-- ==== Sys2Proof/Word.lean ====
section
/-!
DEFINITION. The word types of the block: 32-bit shadow words, bytes, and the 64-bit transport address
(00_scope.md R8, R9). Every value in the block is unsigned (R9).
-/

namespace Sys2Proof

/-- A shadow register, an operand value, a transport data word: `REGW` = 32 bits (R8). -/
abbrev Word := BitVec 32

/-- One byte of target memory as it crosses a port (20_memory.md R121). -/
abbrev Byte := BitVec 8

/-- A transport address: `DMI_ADDRW` = 64 bits (R8). -/
abbrev DmiAddr := BitVec 64

end Sys2Proof
end

