-- ==== Sys2Proof/Syntax.lean ====
section
/-!
DEFINITION. The abstract syntax of what the block executes: one constructor per row of
spec/opcode_table.json. The 26 operations of the request port come first (30_encoding.md R132), then the
six words the abstract command engine writes to `command` (R141).
-/

namespace Sys2Proof

/-- The 17 register names of the DMI register set, in the order of their `aid` (11_dmi_registers.md R61). -/
inductive RegName where
  | data | dmcontrol | dmstatus | hartinfo | haltsum | hawindowsel | hawindow | abstractcs | command
  | abstractauto | confstrptr | nextdm | progbuf | authdata | sbaddress | sbcs | sbdata
deriving DecidableEq, Repr

/-- The operations of the block and the command words it issues.

A register operand is a name and an array index as the request word carries them (R133): the index of a
scalar register, the field id and the accessor are checked by `Instr.wf` (R134). Hart indices, register
numbers and CSR addresses have exactly the width of their field (R131), so an out-of-range one cannot be
written. -/
inductive Instr where
  /-- `read R`, R160. -/
  | read (name : RegName) (idx : BitVec 8)
  /-- `write R`, R161. -/
  | write (name : RegName) (idx : BitVec 8)
  /-- `reset R`, R162. -/
  | reset (name : RegName) (idx : BitVec 8)
  /-- `get R.f`, R163. -/
  | get (name : RegName) (idx : BitVec 8) (fid : BitVec 8)
  /-- `set R.f, v`, R164. -/
  | set (name : RegName) (idx : BitVec 8) (fid : BitVec 8) (v : Word)
  /-- `getHartsel`, R167. -/
  | getHartsel
  /-- `setHartsel v`, R168. -/
  | setHartsel (v : Word)
  /-- `hartselMax`, R169. -/
  | hartselMax
  /-- `cmderrClear`, R170. -/
  | cmderrClear
  /-- `sberrorClear`, R171. -/
  | sberrorClear
  /-- `sbbusyerrorClear`, R172. -/
  | sbbusyerrorClear
  /-- `dtmReset`, R280. -/
  | dtmReset
  /-- `setPollLimit v`, R281. -/
  | setPollLimit (v : Word)
  /-- `getPollLimit`, R282. -/
  | getPollLimit
  /-- `setPretty R, b`, R283. -/
  | setPretty (name : RegName) (idx : BitVec 8) (b : Bool)
  /-- `selectHart h`, R260. -/
  | selectHart (h : BitVec 20)
  /-- `haltHart h`, R261. -/
  | haltHart (h : BitVec 20)
  /-- `resumeHart h`, R262. -/
  | resumeHart (h : BitVec 20)
  /-- `readGpr reg`, R210. -/
  | readGpr (reg : BitVec 5)
  /-- `writeGpr reg, v`, R211. -/
  | writeGpr (reg : BitVec 5) (v : Word)
  /-- `readFpr reg`, R212. -/
  | readFpr (reg : BitVec 5)
  /-- `writeFpr reg, v`, R213. -/
  | writeFpr (reg : BitVec 5) (v : Word)
  /-- `readCsr csr`, R214. -/
  | readCsr (csr : BitVec 12)
  /-- `writeCsr csr, v`, R215. -/
  | writeCsr (csr : BitVec 12) (v : Word)
  /-- `readMem a, len`, R237. -/
  | readMem (a : Word) (len : Word)
  /-- `writeMem a, len`, R238; the write data stand on the request port. -/
  | writeMem (a : Word) (len : Word)
  /-- The `command` word of `readGpr`, R141. -/
  | cmdReadGpr (reg : BitVec 5)
  /-- The `command` word of `writeGpr`, R141. -/
  | cmdWriteGpr (reg : BitVec 5)
  /-- The `command` word of `readFpr`, R141. -/
  | cmdReadFpr (reg : BitVec 5)
  /-- The `command` word of `writeFpr`, R141. -/
  | cmdWriteFpr (reg : BitVec 5)
  /-- The `command` word of `readCsr`, R141. -/
  | cmdReadCsr (csr : BitVec 12)
  /-- The `command` word of `writeCsr`, R141. -/
  | cmdWriteCsr (csr : BitVec 12)
deriving DecidableEq, Repr

end Sys2Proof
end

