-- ==== Sys2Proof/Machine/Registers.lean ====
section
/-!
DEFINITION. The DMI register set, register by register (11_dmi_registers.md): the 54 register instances,
their transport addresses, reset constants and field tables, and the bit-field arithmetic of
10_state.md R22. The numbers are the ones the spec's tables give; the spec marks them as general knowledge
(log 11).
-/

namespace Sys2Proof.Machine

/-- One of the 54 shadow registers: a register name with, for an array, a slot that exists (R21). -/
inductive RegId where
  | data (i : Fin 12) | dmcontrol | dmstatus | hartinfo | haltsum (i : Fin 4) | hawindowsel | hawindow
  | abstractcs | command | abstractauto | confstrptr (i : Fin 4) | nextdm | progbuf (i : Fin 16)
  | authdata | sbaddress (i : Fin 3) | sbcs | sbdata (i : Fin 4)
deriving DecidableEq, Repr

/-- One value of type `α` for each of the 54 register instances (R21). -/
structure RegFile (α : Type) where
  data : Vector α 12
  dmcontrol : α
  dmstatus : α
  hartinfo : α
  haltsum : Vector α 4
  hawindowsel : α
  hawindow : α
  abstractcs : α
  command : α
  abstractauto : α
  confstrptr : Vector α 4
  nextdm : α
  progbuf : Vector α 16
  authdata : α
  sbaddress : Vector α 3
  sbcs : α
  sbdata : Vector α 4
deriving DecidableEq, Repr

/-- The value of one register instance. -/
def RegFile.get {α : Type} (f : RegFile α) : RegId → α
  | .data i => f.data[i]
  | .dmcontrol => f.dmcontrol
  | .dmstatus => f.dmstatus
  | .hartinfo => f.hartinfo
  | .haltsum i => f.haltsum[i]
  | .hawindowsel => f.hawindowsel
  | .hawindow => f.hawindow
  | .abstractcs => f.abstractcs
  | .command => f.command
  | .abstractauto => f.abstractauto
  | .confstrptr i => f.confstrptr[i]
  | .nextdm => f.nextdm
  | .progbuf i => f.progbuf[i]
  | .authdata => f.authdata
  | .sbaddress i => f.sbaddress[i]
  | .sbcs => f.sbcs
  | .sbdata i => f.sbdata[i]

/-- The file with one register instance changed; no register aliases another (R21). -/
def RegFile.set {α : Type} (f : RegFile α) (r : RegId) (v : α) : RegFile α :=
  match r with
  | .data i => { f with data := f.data.set i v }
  | .dmcontrol => { f with dmcontrol := v }
  | .dmstatus => { f with dmstatus := v }
  | .hartinfo => { f with hartinfo := v }
  | .haltsum i => { f with haltsum := f.haltsum.set i v }
  | .hawindowsel => { f with hawindowsel := v }
  | .hawindow => { f with hawindow := v }
  | .abstractcs => { f with abstractcs := v }
  | .command => { f with command := v }
  | .abstractauto => { f with abstractauto := v }
  | .confstrptr i => { f with confstrptr := f.confstrptr.set i v }
  | .nextdm => { f with nextdm := v }
  | .progbuf i => { f with progbuf := f.progbuf.set i v }
  | .authdata => { f with authdata := v }
  | .sbaddress i => { f with sbaddress := f.sbaddress.set i v }
  | .sbcs => { f with sbcs := v }
  | .sbdata i => { f with sbdata := f.sbdata.set i v }

/-- The file that holds `g r` for every register instance `r`. -/
def RegFile.ofFn {α : Type} (g : RegId → α) : RegFile α where
  data := Vector.ofFn fun i => g (.data i)
  dmcontrol := g .dmcontrol
  dmstatus := g .dmstatus
  hartinfo := g .hartinfo
  haltsum := Vector.ofFn fun i => g (.haltsum i)
  hawindowsel := g .hawindowsel
  hawindow := g .hawindow
  abstractcs := g .abstractcs
  command := g .command
  abstractauto := g .abstractauto
  confstrptr := Vector.ofFn fun i => g (.confstrptr i)
  nextdm := g .nextdm
  progbuf := Vector.ofFn fun i => g (.progbuf i)
  authdata := g .authdata
  sbaddress := Vector.ofFn fun i => g (.sbaddress i)
  sbcs := g .sbcs
  sbdata := Vector.ofFn fun i => g (.sbdata i)

/-- The 54 register instances in `aid` order (R21, R61). -/
def RegId.all : List RegId :=
  (List.finRange 12).map .data ++ [.dmcontrol, .dmstatus, .hartinfo] ++ (List.finRange 4).map .haltsum
    ++ [.hawindowsel, .hawindow, .abstractcs, .command, .abstractauto]
    ++ (List.finRange 4).map .confstrptr ++ [.nextdm] ++ (List.finRange 16).map .progbuf ++ [.authdata]
    ++ (List.finRange 3).map .sbaddress ++ [.sbcs] ++ (List.finRange 4).map .sbdata

/-- The transport address `addr(R)` (R61); `haltsum` is the only array whose addresses are not
consecutive. -/
def RegId.addr : RegId → DmiAddr
  | .data i => 0x04 + BitVec.ofNat 64 i.val
  | .dmcontrol => 0x10
  | .dmstatus => 0x11
  | .hartinfo => 0x12
  | .haltsum 0 => 0x40
  | .haltsum 1 => 0x13
  | .haltsum 2 => 0x34
  | .haltsum 3 => 0x35
  | .hawindowsel => 0x14
  | .hawindow => 0x15
  | .abstractcs => 0x16
  | .command => 0x17
  | .abstractauto => 0x18
  | .confstrptr i => 0x19 + BitVec.ofNat 64 i.val
  | .nextdm => 0x1D
  | .progbuf i => 0x20 + BitVec.ofNat 64 i.val
  | .authdata => 0x30
  | .sbaddress i => 0x39 + BitVec.ofNat 64 i.val
  | .sbcs => 0x38
  | .sbdata i => 0x3C + BitVec.ofNat 64 i.val

/-- The reset constant `rst(R)` (R62). -/
def RegId.rst : RegId → Word
  | .dmstatus => 0x00000002
  | .sbcs => 0x20040000
  | _ => 0x00000000

/-- The register name of an instance. -/
def RegId.name : RegId → RegName
  | .data _ => .data
  | .dmcontrol => .dmcontrol
  | .dmstatus => .dmstatus
  | .hartinfo => .hartinfo
  | .haltsum _ => .haltsum
  | .hawindowsel => .hawindowsel
  | .hawindow => .hawindow
  | .abstractcs => .abstractcs
  | .command => .command
  | .abstractauto => .abstractauto
  | .confstrptr _ => .confstrptr
  | .nextdm => .nextdm
  | .progbuf _ => .progbuf
  | .authdata => .authdata
  | .sbaddress _ => .sbaddress
  | .sbcs => .sbcs
  | .sbdata _ => .sbdata

/-! ### Names, array sizes, designators (30_encoding.md R133, R134) -/

end Sys2Proof.Machine

namespace Sys2Proof

/-- The register name id of R61. -/
def RegName.aid : RegName → BitVec 8
  | .data => 0
  | .dmcontrol => 1
  | .dmstatus => 2
  | .hartinfo => 3
  | .haltsum => 4
  | .hawindowsel => 5
  | .hawindow => 6
  | .abstractcs => 7
  | .command => 8
  | .abstractauto => 9
  | .confstrptr => 10
  | .nextdm => 11
  | .progbuf => 12
  | .authdata => 13
  | .sbaddress => 14
  | .sbcs => 15
  | .sbdata => 16

/-- The 17 names in `aid` order. -/
def RegName.all : List RegName :=
  [.data, .dmcontrol, .dmstatus, .hartinfo, .haltsum, .hawindowsel, .hawindow, .abstractcs, .command,
   .abstractauto, .confstrptr, .nextdm, .progbuf, .authdata, .sbaddress, .sbcs, .sbdata]

/-- The name an `aid` stands for; none above 16 (R134 (a)). -/
def RegName.ofAid (aid : BitVec 8) : Option RegName := RegName.all[aid.toNat]?

/-- Does the name stand for an array (R24, R133)? -/
def RegName.isArray : RegName → Bool
  | .data | .haltsum | .confstrptr | .progbuf | .sbaddress | .sbdata => true
  | _ => false

/-- How many register instances the name has (R133); 1 for a scalar. -/
def RegName.size : RegName → Nat
  | .data => 12
  | .haltsum => 4
  | .confstrptr => 4
  | .progbuf => 16
  | .sbaddress => 3
  | .sbdata => 4
  | _ => 1

/-- The scalar index check of R134 (b): a scalar register is named with index 0. -/
def RegName.indexOk (n : RegName) (idx : BitVec 8) : Bool := n.isArray || idx == 0

/-- The register instance a name and an index stand for; none when the index is at or beyond the size
(R24, R134 (c)). -/
def RegName.resolve (n : RegName) (idx : BitVec 8) : Option Machine.RegId :=
  match n with
  | .data => if h : idx.toNat < 12 then some (.data ⟨idx.toNat, h⟩) else none
  | .haltsum => if h : idx.toNat < 4 then some (.haltsum ⟨idx.toNat, h⟩) else none
  | .confstrptr => if h : idx.toNat < 4 then some (.confstrptr ⟨idx.toNat, h⟩) else none
  | .progbuf => if h : idx.toNat < 16 then some (.progbuf ⟨idx.toNat, h⟩) else none
  | .sbaddress => if h : idx.toNat < 3 then some (.sbaddress ⟨idx.toNat, h⟩) else none
  | .sbdata => if h : idx.toNat < 4 then some (.sbdata ⟨idx.toNat, h⟩) else none
  | .dmcontrol => if idx.toNat < 1 then some .dmcontrol else none
  | .dmstatus => if idx.toNat < 1 then some .dmstatus else none
  | .hartinfo => if idx.toNat < 1 then some .hartinfo else none
  | .hawindowsel => if idx.toNat < 1 then some .hawindowsel else none
  | .hawindow => if idx.toNat < 1 then some .hawindow else none
  | .abstractcs => if idx.toNat < 1 then some .abstractcs else none
  | .command => if idx.toNat < 1 then some .command else none
  | .abstractauto => if idx.toNat < 1 then some .abstractauto else none
  | .nextdm => if idx.toNat < 1 then some .nextdm else none
  | .authdata => if idx.toNat < 1 then some .authdata else none
  | .sbcs => if idx.toNat < 1 then some .sbcs else none

end Sys2Proof

namespace Sys2Proof.Machine

/-! ### Fields (R22, R63 to R88) -/

/-- The access class a field has in the debug module (column "DM" of R63 to R84). -/
inductive DmClass where
  | r | rw | w | w1 | rw1c | none
deriving DecidableEq, Repr

/-- The two derived getters of `dmstatus` (R88). -/
inductive Derived where
  | halted | resumeack
deriving DecidableEq, Repr

/-- The accessors the block offers for a field (R87): getter only; getter and setter; getter and
clear-only mutator; the unimplemented pair (R85); a derived getter (R88). -/
inductive Acc where
  | getter | getSet | getClear | unimpl | derived (d : Derived)
deriving DecidableEq, Repr

/-- A named bit-field of a register: offset and width (R22), and its two access classes. -/
structure Field where
  name : String
  off : Nat
  width : Nat
  dm : DmClass
  acc : Acc
deriving DecidableEq, Repr

/-- The mask of R22: `((1 << w) - 1) << o`. -/
def Field.mask (f : Field) : Word := BitVec.ofNat 32 (2 ^ f.width - 1) <<< f.off

/-- A field read on a word, `(x & M) >> o` (R22). -/
def Field.extract (f : Field) (x : Word) : Word := (x &&& f.mask) >>> f.off

/-- A field write on a word, `(x & ~M) | ((v << o) & M)` (R22). -/
def Field.insert (f : Field) (v x : Word) : Word := (x &&& ~~~f.mask) ||| ((v <<< f.off) &&& f.mask)

/-- Does `v` exceed the field's width, so that a setter truncates it and warns (R22, R164)? -/
def Field.overflows (f : Field) (v : Word) : Bool := decide (f.width < 32) && decide (2 ^ f.width ≤ v.toNat)

/-- Has the field a setter a request may name (R134 (e)): access class `G S` or `U`? -/
def Field.settable (f : Field) : Bool :=
  match f.acc with
  | .getSet | .unimpl => true
  | .getter | .getClear | .derived _ => false

/-! The fields the engines and helpers name; the tables below refer to them. -/

/-- `dmcontrol.haltreq`, bit 31 (R64). -/
def Field.haltreq : Field := ⟨"haltreq", 31, 1, .w, .getSet⟩
/-- `dmcontrol.resumereq`, bit 30 (R64). -/
def Field.resumereq : Field := ⟨"resumereq", 30, 1, .w1, .getSet⟩
/-- `dmcontrol.hartsello`, bits 25:16 (R64). -/
def Field.hartsello : Field := ⟨"hartsello", 16, 10, .rw, .getSet⟩
/-- `dmcontrol.hartselhi`, bits 15:6 (R64). -/
def Field.hartselhi : Field := ⟨"hartselhi", 6, 10, .rw, .getSet⟩
/-- `abstractcs.busy`, bit 12 (R70). -/
def Field.busy : Field := ⟨"busy", 12, 1, .r, .getter⟩
/-- `abstractcs.cmderr`, bits 10:8, sticky (R70, R86). -/
def Field.cmderr : Field := ⟨"cmderr", 8, 3, .rw1c, .getClear⟩
/-- `sbcs.sbbusyerror`, bit 22, sticky (R81, R86). -/
def Field.sbbusyerror : Field := ⟨"sbbusyerror", 22, 1, .rw1c, .getClear⟩
/-- `sbcs.sbbusy`, bit 21 (R81). -/
def Field.sbbusy : Field := ⟨"sbbusy", 21, 1, .r, .getter⟩
/-- `sbcs.sbreadonaddr`, bit 20 (R81). -/
def Field.sbreadonaddr : Field := ⟨"sbreadonaddr", 20, 1, .rw, .getSet⟩
/-- `sbcs.sbaccess`, bits 19:17 (R81, R83). -/
def Field.sbaccess : Field := ⟨"sbaccess", 17, 3, .rw, .getSet⟩
/-- `sbcs.sbautoincrement`, bit 16 (R81). -/
def Field.sbautoincrement : Field := ⟨"sbautoincrement", 16, 1, .rw, .getSet⟩
/-- `sbcs.sbreadondata`, bit 15 (R81). -/
def Field.sbreadondata : Field := ⟨"sbreadondata", 15, 1, .rw, .getSet⟩
/-- `sbcs.sberror`, bits 14:12, sticky (R81, R86). -/
def Field.sberror : Field := ⟨"sberror", 12, 3, .rw1c, .getClear⟩

/-- The single 32-bit field of a register that has only one (R63, R69, R78, R80, R84). -/
def Field.whole (name : String) (dm : DmClass) (acc : Acc) : Field := ⟨name, 0, 32, dm, acc⟩

/-- The fields of `dmcontrol` (R64). -/
def dmcontrolFields : List Field :=
  [.haltreq, .resumereq, ⟨"hartreset", 29, 1, .rw, .unimpl⟩, ⟨"ackhavereset", 28, 1, .w1, .getSet⟩,
   ⟨"hasel", 26, 1, .rw, .unimpl⟩, .hartsello, .hartselhi, ⟨"setresethaltreq", 3, 1, .w1, .unimpl⟩,
   ⟨"clrresethaltreq", 2, 1, .w1, .unimpl⟩, ⟨"ndmreset", 1, 1, .rw, .getSet⟩,
   ⟨"dmactive", 0, 1, .rw, .getSet⟩]

/-- The fields of `dmstatus` (R65); the two derived getters are last, over the pairs of bits R88 joins. -/
def dmstatusFields : List Field :=
  [⟨"impebreak", 22, 1, .r, .getter⟩, ⟨"allhavereset", 19, 1, .r, .getter⟩,
   ⟨"anyhavereset", 18, 1, .r, .getter⟩, ⟨"allresumeack", 17, 1, .r, .getter⟩,
   ⟨"anyresumeack", 16, 1, .r, .getter⟩, ⟨"allnonexistent", 15, 1, .r, .getter⟩,
   ⟨"anynonexistent", 14, 1, .r, .getter⟩, ⟨"allunavail", 13, 1, .r, .getter⟩,
   ⟨"anyunavail", 12, 1, .r, .getter⟩, ⟨"allrunning", 11, 1, .r, .getter⟩,
   ⟨"anyrunning", 10, 1, .r, .getter⟩, ⟨"allhalted", 9, 1, .r, .getter⟩,
   ⟨"anyhalted", 8, 1, .r, .getter⟩, ⟨"authenticated", 7, 1, .r, .getter⟩,
   ⟨"authbusy", 6, 1, .r, .getter⟩, ⟨"hasresethaltreq", 5, 1, .r, .getter⟩,
   ⟨"confstrptrvalid", 4, 1, .r, .getter⟩, ⟨"version", 0, 4, .r, .getter⟩,
   ⟨"halted", 8, 2, .none, .derived .halted⟩, ⟨"resumeack", 16, 2, .none, .derived .resumeack⟩]

/-- The fields of `hartinfo` (R66). -/
def hartinfoFields : List Field :=
  [⟨"nscratch", 20, 4, .r, .getter⟩, ⟨"dataaccess", 16, 1, .r, .getter⟩,
   ⟨"datasize", 12, 4, .r, .getter⟩, ⟨"dataaddr", 0, 12, .r, .getter⟩]

/-- The fields of `abstractcs` (R70). -/
def abstractcsFields : List Field :=
  [⟨"progbufsize", 24, 5, .r, .getter⟩, .busy, .cmderr, ⟨"datacount", 0, 4, .r, .getter⟩]

/-- The fields of `command` (R72); fields 2 to 7 overlay `control`. R89 counts bit 23 among the bits no accessor
writes while `cmdtype` is 0; R72 gives `control` that bit and R164 a setter for all of `control`. The setter of
`control` writes it here whatever `cmdtype` is (DESIGN CHOICE, log 18). -/
def commandFields : List Field :=
  [⟨"cmdtype", 24, 8, .w, .getSet⟩, ⟨"control", 0, 24, .w, .getSet⟩, ⟨"aarsize", 20, 3, .w, .getSet⟩,
   ⟨"aarpostincrement", 19, 1, .w, .getSet⟩, ⟨"postexec", 18, 1, .w, .getSet⟩,
   ⟨"transfer", 17, 1, .w, .getSet⟩, ⟨"write", 16, 1, .w, .getSet⟩, ⟨"regno", 0, 16, .w, .getSet⟩]

/-- The fields of `abstractauto` (R75). -/
def abstractautoFields : List Field :=
  [⟨"autoexecprogbuf", 16, 16, .rw, .getSet⟩, ⟨"autoexecdata", 0, 12, .rw, .getSet⟩]

/-- The fields of `sbcs` (R81). -/
def sbcsFields : List Field :=
  [⟨"sbversion", 29, 3, .r, .getter⟩, .sbbusyerror, .sbbusy, .sbreadonaddr, .sbaccess, .sbautoincrement,
   .sbreadondata, .sberror, ⟨"sbasize", 5, 7, .r, .getter⟩, ⟨"sbaccess128", 4, 1, .r, .getter⟩,
   ⟨"sbaccess64", 3, 1, .r, .getter⟩, ⟨"sbaccess32", 2, 1, .r, .getter⟩,
   ⟨"sbaccess16", 1, 1, .r, .getter⟩, ⟨"sbaccess8", 0, 1, .r, .getter⟩]

end Sys2Proof.Machine

namespace Sys2Proof

open Machine

/-- The field table of a register; a field's id is its place in the table (R90). -/
def RegName.fields : RegName → List Field
  | .data => [.whole "data" .rw .getSet]
  | .dmcontrol => dmcontrolFields
  | .dmstatus => dmstatusFields
  | .hartinfo => hartinfoFields
  | .haltsum => [.whole "haltsum" .r .getter]
  | .hawindowsel => [⟨"hawindowsel", 0, 15, .rw, .getSet⟩]
  | .hawindow => [.whole "maskdata" .rw .getSet]
  | .abstractcs => abstractcsFields
  | .command => commandFields
  | .abstractauto => abstractautoFields
  | .confstrptr => [.whole "addr" .r .getter]
  | .nextdm => [.whole "addr" .r .getter]
  | .progbuf => [.whole "data" .rw .getSet]
  | .authdata => [.whole "data" .rw .unimpl]
  | .sbaddress => [.whole "address" .rw .getSet]
  | .sbcs => sbcsFields
  | .sbdata => [.whole "data" .rw .getSet]

/-- The field a field id names, if the register has it (R134 (d)). -/
def RegName.field? (n : RegName) (fid : BitVec 8) : Option Field := n.fields[fid.toNat]?

/-- Bit 23 of `command`, which is in no field but `control` (R72, R73). -/
def commandBit23 : Word := 0x00800000

/-- The reserved bits of a register that holds `x` (R89): those of no field, and bit 23 of `command` when `cmdtype`
is 0. -/
def RegName.reserved (n : RegName) (x : Word) : Word :=
  ~~~(n.fields.foldl (fun m f => m ||| f.mask) 0) |||
    if n = .command ∧ x.extractLsb' 24 8 = 0 then commandBit23 else 0

end Sys2Proof
end

