-- ==== Sys2Proof/WellFormed.lean ====
section
/-!
DEFINITION. Which instructions have an encoding: the designator checks of 30_encoding.md R134 that the types
of `Instr` do not make already.
-/

namespace Sys2Proof

/-- The checks of R134: a scalar register has index 0 (b); the field is in the register's table (d); a
setter is named only for a field that has one (e). An array index beyond the size is well formed (c). -/
def Instr.wf : Instr → Bool
  | .read n idx | .write n idx | .reset n idx | .setPretty n idx _ => n.indexOk idx
  | .get n idx fid => n.indexOk idx && (n.field? fid).isSome
  | .set n idx fid _ => n.indexOk idx && (n.field? fid).any Machine.Field.settable
  | .getHartsel | .setHartsel _ | .hartselMax | .cmderrClear | .sberrorClear | .sbbusyerrorClear
  | .dtmReset | .setPollLimit _ | .getPollLimit | .selectHart _ | .haltHart _ | .resumeHart _
  | .readGpr _ | .writeGpr _ _ | .readFpr _ | .writeFpr _ _ | .readCsr _ | .writeCsr _ _
  | .readMem _ _ | .writeMem _ _
  | .cmdReadGpr _ | .cmdWriteGpr _ | .cmdReadFpr _ | .cmdWriteFpr _ | .cmdReadCsr _ | .cmdWriteCsr _ => true

end Sys2Proof
end

