-- ==== Sys2Proof/Decode.lean ====
section
/-!
DEFINITION. Decoding and encoding (30_encoding.md): the 96-bit request word (R131, R132, R139) and the 32-bit
words the abstract command engine writes to `command` (R141). Decoding is total and rejects by name, in the
order of checks of R134 (g).
-/

namespace Sys2Proof

/-- Why a word is no instruction; each names the check of R134 or R139 that failed. -/
inductive Reject where
  /-- The `op` byte is none of the 26 codes of R132. -/
  | unassignedOp
  /-- A field the format does not use is not zero (R139). -/
  | unusedField
  /-- `aid` is above 16 (R134 (a)). -/
  | unknownAid
  /-- A scalar register is named with a non-zero index (R134 (b)). -/
  | scalarIndex
  /-- The register has no field of this id (R134 (d)). -/
  | noSuchField
  /-- The field has no setter (R134 (e)). -/
  | noSetter
  /-- A 32-bit word that is none of the six command words (R141). -/
  | notCommandWord
deriving DecidableEq, Repr

/-- An instruction as the hardware carries it: on the request port, or on its way to `command`. -/
inductive Encoded where
  | request (word : BitVec 96)
  | command (word : BitVec 32)
deriving DecidableEq, Repr

/-- The fields of a request word (R131). -/
structure Request where
  op : BitVec 8
  fid : BitVec 8
  idx : BitVec 8
  aid : BitVec 8
  a : Word
  v : Word
deriving DecidableEq, Repr

/-- The fields at their bit positions (R131). -/
def Request.ofWord (w : BitVec 96) : Request where
  op := w.extractLsb' 88 8
  fid := w.extractLsb' 80 8
  idx := w.extractLsb' 72 8
  aid := w.extractLsb' 64 8
  a := w.extractLsb' 32 32
  v := w.extractLsb' 0 32

/-- The word with these fields (R131). -/
def Request.toWord (r : Request) : BitVec 96 := r.op ++ r.fid ++ r.idx ++ r.aid ++ r.a ++ r.v

/-- The 24-bit selector of the composite formats, `sel = {fid, idx, aid}` (R131). -/
def Request.sel (r : Request) : BitVec 24 := r.fid ++ r.idx ++ r.aid

/-- A request with the given `op`, selector and value fields. -/
def Request.ofSel (op : BitVec 8) (sel : BitVec 24) (a v : Word) : Request where
  op := op
  fid := sel.extractLsb' 16 8
  idx := sel.extractLsb' 8 8
  aid := sel.extractLsb' 0 8
  a := a
  v := v

/-- Go on only where the unused fields are zero (R139). -/
def requireZero (zero : Bool) (next : Except Reject Instr) : Except Reject Instr :=
  if zero then next else .error .unusedField

/-- The register name of a request: `aid`, then the scalar index check (R134 (a), (b)). -/
def Request.withName (r : Request) (next : RegName → Except Reject Instr) : Except Reject Instr :=
  match RegName.ofAid r.aid with
  | none => .error .unknownAid
  | some n => if n.indexOk r.idx then next n else .error .scalarIndex

/-- The field of a request, after its name (R134 (d)). -/
def Request.withField (r : Request) (next : RegName → Machine.Field → Except Reject Instr) :
    Except Reject Instr :=
  r.withName fun n =>
    match n.field? r.fid with
    | none => .error .noSuchField
    | some f => next n f

/-- The operation of a request (R132), its unused fields checked first (R139), then its designator
(R134). -/
def Request.decode (r : Request) : Except Reject Instr :=
  match r.op.toNat with
  | 0x01 => requireZero (r.fid == 0 && r.a == 0 && r.v == 0) (r.withName fun n => .ok (.read n r.idx))
  | 0x02 => requireZero (r.fid == 0 && r.a == 0 && r.v == 0) (r.withName fun n => .ok (.write n r.idx))
  | 0x03 => requireZero (r.fid == 0 && r.a == 0 && r.v == 0) (r.withName fun n => .ok (.reset n r.idx))
  | 0x04 => requireZero (r.a == 0 && r.v == 0) (r.withField fun n _ => .ok (.get n r.idx r.fid))
  | 0x05 => requireZero (r.a == 0) (r.withField fun n f =>
      if f.settable then .ok (.set n r.idx r.fid r.v) else .error .noSetter)
  | 0x06 => requireZero (r.sel == 0 && r.a == 0 && r.v == 0) (.ok .getHartsel)
  | 0x07 => requireZero (r.sel == 0 && r.a == 0) (.ok (.setHartsel r.v))
  | 0x08 => requireZero (r.sel == 0 && r.a == 0 && r.v == 0) (.ok .hartselMax)
  | 0x09 => requireZero (r.sel == 0 && r.a == 0 && r.v == 0) (.ok .cmderrClear)
  | 0x0A => requireZero (r.sel == 0 && r.a == 0 && r.v == 0) (.ok .sberrorClear)
  | 0x0B => requireZero (r.sel == 0 && r.a == 0 && r.v == 0) (.ok .sbbusyerrorClear)
  | 0x0C => requireZero (r.sel == 0 && r.a == 0 && r.v == 0) (.ok .dtmReset)
  | 0x0D => requireZero (r.sel == 0 && r.a == 0) (.ok (.setPollLimit r.v))
  | 0x0E => requireZero (r.sel == 0 && r.a == 0 && r.v == 0) (.ok .getPollLimit)
  | 0x0F => requireZero (r.fid == 0 && r.a == 0 && r.v.extractLsb' 1 31 == 0)
      (r.withName fun n => .ok (.setPretty n r.idx (r.v.getLsbD 0)))
  | 0x20 => requireZero (r.sel.extractLsb' 20 4 == 0 && r.a == 0 && r.v == 0)
      (.ok (.selectHart (r.sel.extractLsb' 0 20)))
  | 0x21 => requireZero (r.sel.extractLsb' 20 4 == 0 && r.a == 0 && r.v == 0)
      (.ok (.haltHart (r.sel.extractLsb' 0 20)))
  | 0x22 => requireZero (r.sel.extractLsb' 20 4 == 0 && r.a == 0 && r.v == 0)
      (.ok (.resumeHart (r.sel.extractLsb' 0 20)))
  | 0x30 => requireZero (r.sel.extractLsb' 5 19 == 0 && r.a == 0 && r.v == 0)
      (.ok (.readGpr (r.sel.extractLsb' 0 5)))
  | 0x31 => requireZero (r.sel.extractLsb' 5 19 == 0 && r.a == 0)
      (.ok (.writeGpr (r.sel.extractLsb' 0 5) r.v))
  | 0x32 => requireZero (r.sel.extractLsb' 5 19 == 0 && r.a == 0 && r.v == 0)
      (.ok (.readFpr (r.sel.extractLsb' 0 5)))
  | 0x33 => requireZero (r.sel.extractLsb' 5 19 == 0 && r.a == 0)
      (.ok (.writeFpr (r.sel.extractLsb' 0 5) r.v))
  | 0x34 => requireZero (r.sel.extractLsb' 12 12 == 0 && r.a == 0 && r.v == 0)
      (.ok (.readCsr (r.sel.extractLsb' 0 12)))
  | 0x35 => requireZero (r.sel.extractLsb' 12 12 == 0 && r.a == 0)
      (.ok (.writeCsr (r.sel.extractLsb' 0 12) r.v))
  | 0x40 => requireZero (r.sel == 0) (.ok (.readMem r.a r.v))
  | 0x41 => requireZero (r.sel == 0) (.ok (.writeMem r.a r.v))
  | _ => .error .unassignedOp

/-- A request word (R130 to R139). -/
def decodeRequest (w : BitVec 96) : Except Reject Instr := (Request.ofWord w).decode

/-- A word written to `command` by the abstract command engine (R141): the bits above the register number
pick the operation. -/
def decodeCommand (w : BitVec 32) : Except Reject Instr :=
  if w.extractLsb' 5 27 = 0b000000000010001000010000000 then .ok (.cmdReadGpr (w.extractLsb' 0 5))
  else if w.extractLsb' 5 27 = 0b000000000010001100010000000 then .ok (.cmdWriteGpr (w.extractLsb' 0 5))
  else if w.extractLsb' 5 27 = 0b000000000010001000010000001 then .ok (.cmdReadFpr (w.extractLsb' 0 5))
  else if w.extractLsb' 5 27 = 0b000000000010001100010000001 then .ok (.cmdWriteFpr (w.extractLsb' 0 5))
  else if w.extractLsb' 12 20 = 0b00000000001000100000 then .ok (.cmdReadCsr (w.extractLsb' 0 12))
  else if w.extractLsb' 12 20 = 0b00000000001000110000 then .ok (.cmdWriteCsr (w.extractLsb' 0 12))
  else .error .notCommandWord

/-- Decoding, total on both kinds of word. -/
def decode : Encoded → Except Reject Instr
  | .request w => decodeRequest w
  | .command w => decodeCommand w

/-- The instruction the decoder reads from a table word of `nbits` bits: a 96-bit request word or a 32-bit
command word; no other width exists (R143). -/
def decodeTableWord (nbits w : Nat) : Option Instr :=
  if nbits = 96 then (decodeRequest (BitVec.ofNat 96 w)).toOption
  else if nbits = 32 then (decodeCommand (BitVec.ofNat 32 w)).toOption
  else none

/-! ### The encoder -/

/-- A request of format P-REG or P-FLD (R132). -/
def encodeReg (op : BitVec 8) (n : RegName) (idx fid : BitVec 8) (v : Word) : Encoded :=
  .request (Request.toWord ⟨op, fid, idx, n.aid, 0, v⟩)

/-- A request of a format whose selector is one number (R131, R132). -/
def encodeSel (op : BitVec 8) (sel : BitVec 24) (a v : Word) : Encoded :=
  .request (Request.ofSel op sel a v).toWord

/-- The word of an instruction, written from the same tables (R131, R132, R141). -/
def encode : Instr → Encoded
  | .read n idx => encodeReg 0x01 n idx 0 0
  | .write n idx => encodeReg 0x02 n idx 0 0
  | .reset n idx => encodeReg 0x03 n idx 0 0
  | .get n idx fid => encodeReg 0x04 n idx fid 0
  | .set n idx fid v => encodeReg 0x05 n idx fid v
  | .getHartsel => encodeSel 0x06 0 0 0
  | .setHartsel v => encodeSel 0x07 0 0 v
  | .hartselMax => encodeSel 0x08 0 0 0
  | .cmderrClear => encodeSel 0x09 0 0 0
  | .sberrorClear => encodeSel 0x0A 0 0 0
  | .sbbusyerrorClear => encodeSel 0x0B 0 0 0
  | .dtmReset => encodeSel 0x0C 0 0 0
  | .setPollLimit v => encodeSel 0x0D 0 0 v
  | .getPollLimit => encodeSel 0x0E 0 0 0
  | .setPretty n idx b => encodeReg 0x0F n idx 0 ((BitVec.ofBool b).setWidth 32)
  | .selectHart h => encodeSel 0x20 (h.setWidth 24) 0 0
  | .haltHart h => encodeSel 0x21 (h.setWidth 24) 0 0
  | .resumeHart h => encodeSel 0x22 (h.setWidth 24) 0 0
  | .readGpr reg => encodeSel 0x30 (reg.setWidth 24) 0 0
  | .writeGpr reg v => encodeSel 0x31 (reg.setWidth 24) 0 v
  | .readFpr reg => encodeSel 0x32 (reg.setWidth 24) 0 0
  | .writeFpr reg v => encodeSel 0x33 (reg.setWidth 24) 0 v
  | .readCsr csr => encodeSel 0x34 (csr.setWidth 24) 0 0
  | .writeCsr csr v => encodeSel 0x35 (csr.setWidth 24) 0 v
  | .readMem a len => encodeSel 0x40 0 a len
  | .writeMem a len => encodeSel 0x41 0 a len
  | .cmdReadGpr reg => .command (0x00221000 + reg.setWidth 32)
  | .cmdWriteGpr reg => .command (0x00231000 + reg.setWidth 32)
  | .cmdReadFpr reg => .command (0x00221020 + reg.setWidth 32)
  | .cmdWriteFpr reg => .command (0x00231020 + reg.setWidth 32)
  | .cmdReadCsr csr => .command (0x00220000 + csr.setWidth 32)
  | .cmdWriteCsr csr => .command (0x00230000 + csr.setWidth 32)

/-! ### The opcode table -/

/-- One row of the opcode table: the word's width in bits, the mask of the bits the row fixes, and their
values (R132). -/
structure OpRow where
  mnemonic : String
  width : Nat
  pattern : Nat
  mask : Nat
deriving DecidableEq, Repr

/-- Does a word of the row's width carry the row's fixed bits? -/
def OpRow.matchesWord (row : OpRow) (w : Nat) : Bool := w &&& row.mask == row.pattern

/-- The rows of the primitive operations (R132, formats P-REG to P-VAL). -/
def primitiveRows : List OpRow :=
  [⟨"read", 96, 0x010000000000000000000000, 0xFFFF0000FFFFFFFFFFFFFFFF⟩,
   ⟨"write", 96, 0x020000000000000000000000, 0xFFFF0000FFFFFFFFFFFFFFFF⟩,
   ⟨"reset", 96, 0x030000000000000000000000, 0xFFFF0000FFFFFFFFFFFFFFFF⟩,
   ⟨"get", 96, 0x040000000000000000000000, 0xFF000000FFFFFFFFFFFFFFFF⟩,
   ⟨"set", 96, 0x050000000000000000000000, 0xFF000000FFFFFFFF00000000⟩,
   ⟨"getHartsel", 96, 0x060000000000000000000000, 0xFFFFFFFFFFFFFFFFFFFFFFFF⟩,
   ⟨"setHartsel", 96, 0x070000000000000000000000, 0xFFFFFFFFFFFFFFFF00000000⟩,
   ⟨"hartselMax", 96, 0x080000000000000000000000, 0xFFFFFFFFFFFFFFFFFFFFFFFF⟩,
   ⟨"cmderrClear", 96, 0x090000000000000000000000, 0xFFFFFFFFFFFFFFFFFFFFFFFF⟩,
   ⟨"sberrorClear", 96, 0x0A0000000000000000000000, 0xFFFFFFFFFFFFFFFFFFFFFFFF⟩,
   ⟨"sbbusyerrorClear", 96, 0x0B0000000000000000000000, 0xFFFFFFFFFFFFFFFFFFFFFFFF⟩,
   ⟨"dtmReset", 96, 0x0C0000000000000000000000, 0xFFFFFFFFFFFFFFFFFFFFFFFF⟩,
   ⟨"setPollLimit", 96, 0x0D0000000000000000000000, 0xFFFFFFFFFFFFFFFF00000000⟩,
   ⟨"getPollLimit", 96, 0x0E0000000000000000000000, 0xFFFFFFFFFFFFFFFFFFFFFFFF⟩,
   ⟨"setPretty", 96, 0x0F0000000000000000000000, 0xFFFF0000FFFFFFFFFFFFFFFE⟩]

/-- The rows of the composite operations (R132, formats C-HART to C-MEM). -/
def compositeRows : List OpRow :=
  [⟨"selectHart", 96, 0x200000000000000000000000, 0xFFF00000FFFFFFFFFFFFFFFF⟩,
   ⟨"haltHart", 96, 0x210000000000000000000000, 0xFFF00000FFFFFFFFFFFFFFFF⟩,
   ⟨"resumeHart", 96, 0x220000000000000000000000, 0xFFF00000FFFFFFFFFFFFFFFF⟩,
   ⟨"readGpr", 96, 0x300000000000000000000000, 0xFFFFFFE0FFFFFFFFFFFFFFFF⟩,
   ⟨"writeGpr", 96, 0x310000000000000000000000, 0xFFFFFFE0FFFFFFFF00000000⟩,
   ⟨"readFpr", 96, 0x320000000000000000000000, 0xFFFFFFE0FFFFFFFFFFFFFFFF⟩,
   ⟨"writeFpr", 96, 0x330000000000000000000000, 0xFFFFFFE0FFFFFFFF00000000⟩,
   ⟨"readCsr", 96, 0x340000000000000000000000, 0xFFFFF000FFFFFFFFFFFFFFFF⟩,
   ⟨"writeCsr", 96, 0x350000000000000000000000, 0xFFFFF000FFFFFFFF00000000⟩,
   ⟨"readMem", 96, 0x400000000000000000000000, 0xFFFFFFFF0000000000000000⟩,
   ⟨"writeMem", 96, 0x410000000000000000000000, 0xFFFFFFFF0000000000000000⟩]

/-- The rows of the `command` words (R141, format CMD-AR). -/
def commandRows : List OpRow :=
  [⟨"command.readGpr", 32, 0x00221000, 0xFFFFFFE0⟩,
   ⟨"command.writeGpr", 32, 0x00231000, 0xFFFFFFE0⟩,
   ⟨"command.readFpr", 32, 0x00221020, 0xFFFFFFE0⟩,
   ⟨"command.writeFpr", 32, 0x00231020, 0xFFFFFFE0⟩,
   ⟨"command.readCsr", 32, 0x00220000, 0xFFFFF000⟩,
   ⟨"command.writeCsr", 32, 0x00230000, 0xFFFFF000⟩]

/-- The opcode table (R132, R141). -/
def opcodeTable : List OpRow := primitiveRows ++ compositeRows ++ commandRows

/-- The mnemonic of an instruction, as the opcode table spells it. -/
def Instr.mnemonic : Instr → String
  | .read _ _ => "read"
  | .write _ _ => "write"
  | .reset _ _ => "reset"
  | .get _ _ _ => "get"
  | .set _ _ _ _ => "set"
  | .getHartsel => "getHartsel"
  | .setHartsel _ => "setHartsel"
  | .hartselMax => "hartselMax"
  | .cmderrClear => "cmderrClear"
  | .sberrorClear => "sberrorClear"
  | .sbbusyerrorClear => "sbbusyerrorClear"
  | .dtmReset => "dtmReset"
  | .setPollLimit _ => "setPollLimit"
  | .getPollLimit => "getPollLimit"
  | .setPretty _ _ _ => "setPretty"
  | .selectHart _ => "selectHart"
  | .haltHart _ => "haltHart"
  | .resumeHart _ => "resumeHart"
  | .readGpr _ => "readGpr"
  | .writeGpr _ _ => "writeGpr"
  | .readFpr _ => "readFpr"
  | .writeFpr _ _ => "writeFpr"
  | .readCsr _ => "readCsr"
  | .writeCsr _ _ => "writeCsr"
  | .readMem _ _ => "readMem"
  | .writeMem _ _ => "writeMem"
  | .cmdReadGpr _ => "command.readGpr"
  | .cmdWriteGpr _ => "command.writeGpr"
  | .cmdReadFpr _ => "command.readFpr"
  | .cmdWriteFpr _ => "command.writeFpr"
  | .cmdReadCsr _ => "command.readCsr"
  | .cmdWriteCsr _ => "command.writeCsr"

/-! ### The textual syntax (R144)

A notation for writing operations down; nothing the block does depends on it. The rule writes numbers in C notation
and mixes bases: here indices and counts are decimal, values and addresses hexadecimal (DESIGN CHOICE, log 13). -/

/-- The name of a register, as the spec spells it (11_dmi_registers.md R61). -/
def RegName.text : RegName → String
  | .data => "data"
  | .dmcontrol => "dmcontrol"
  | .dmstatus => "dmstatus"
  | .hartinfo => "hartinfo"
  | .haltsum => "haltsum"
  | .hawindowsel => "hawindowsel"
  | .hawindow => "hawindow"
  | .abstractcs => "abstractcs"
  | .command => "command"
  | .abstractauto => "abstractauto"
  | .confstrptr => "confstrptr"
  | .nextdm => "nextdm"
  | .progbuf => "progbuf"
  | .authdata => "authdata"
  | .sbaddress => "sbaddress"
  | .sbcs => "sbcs"
  | .sbdata => "sbdata"

/-- A number in decimal. -/
def decimalText (n : Nat) : String := String.ofList (Nat.toDigits 10 n)

/-- A number in hexadecimal, in C notation. -/
def hexText (n : Nat) : String := "0x" ++ String.ofList ((Nat.toDigits 16 n).map Char.toUpper)

/-- A register operand: `name`, or `name[idx]` for an array (R144). -/
def registerText (n : RegName) (idx : BitVec 8) : String :=
  if n.isArray then n.text ++ "[" ++ decimalText idx.toNat ++ "]" else n.text

/-- A field operand: `name.field` or `name[idx].field` (R144); a number the register has no field for is written as
the number. -/
def fieldText (n : RegName) (idx fid : BitVec 8) : String :=
  registerText n idx ++ "." ++ match n.field? fid with
    | some f => f.name
    | none => decimalText fid.toNat

/-- The operands of an instruction (R144); the write data of `writeMem` are on the port and not of it. -/
def Instr.operandText : Instr → List String
  | .read n idx | .write n idx | .reset n idx => [registerText n idx]
  | .get n idx fid => [fieldText n idx fid]
  | .set n idx fid v => [fieldText n idx fid, hexText v.toNat]
  | .setHartsel v => [hexText v.toNat]
  | .setPollLimit v => [decimalText v.toNat]
  | .setPretty n idx b => [registerText n idx, if b then "1" else "0"]
  | .selectHart h | .haltHart h | .resumeHart h => [decimalText h.toNat]
  | .readGpr reg | .readFpr reg | .cmdReadGpr reg | .cmdWriteGpr reg | .cmdReadFpr reg | .cmdWriteFpr reg =>
    [decimalText reg.toNat]
  | .writeGpr reg v | .writeFpr reg v => [decimalText reg.toNat, hexText v.toNat]
  | .readCsr csr | .cmdReadCsr csr | .cmdWriteCsr csr => [hexText csr.toNat]
  | .writeCsr csr v => [hexText csr.toNat, hexText v.toNat]
  | .readMem a len | .writeMem a len => [hexText a.toNat, decimalText len.toNat]
  | .getHartsel | .hartselMax | .cmderrClear | .sberrorClear | .sbbusyerrorClear | .dtmReset
  | .getPollLimit => []

/-- An instruction in the textual syntax: its mnemonic, then its operands (R144). -/
def Instr.text (i : Instr) : String :=
  match i.operandText with
  | [] => i.mnemonic
  | first :: rest => rest.foldl (fun line operand => line ++ ", " ++ operand) (i.mnemonic ++ " " ++ first)

/-- The width in bits and the value of an encoded instruction, numbered as the opcode table numbers them. -/
def Encoded.tableWord : Encoded → Nat × Nat
  | .request w => (96, w.toNat)
  | .command w => (32, w.toNat)

end Sys2Proof
end

