-- ==== Sys2Proof/Machine/Flags.lean ====
section
/-!
DEFINITION. The status bits that steer the engines, all fields of shadow words (10_state.md R33), and the
classification of the two error fields (11_dmi_registers.md R71, R82). The block has no condition codes.
-/

namespace Sys2Proof.Machine

/-- `abstractcs.busy` is set (R203). -/
def isBusy (x : Word) : Bool := Field.busy.extract x == 1

/-- The condition the abstract engine polls for: `busy == 0` (R207). -/
def notBusy (x : Word) : Bool := Field.busy.extract x == 0

/-- The raw `abstractcs.cmderr` code (R208). -/
def cmderrCode (x : Word) : BitVec 3 := (Field.cmderr.extract x).setWidth 3

/-- `sbcs.sbbusy` is set (R233). -/
def isSbBusy (x : Word) : Bool := Field.sbbusy.extract x == 1

/-- The condition the system bus engine polls for: `sbbusy == 0` (R236). -/
def notSbBusy (x : Word) : Bool := Field.sbbusy.extract x == 0

/-- The raw `sbcs.sberror` code (R236). -/
def sberrorCode (x : Word) : BitVec 3 := (Field.sberror.extract x).setWidth 3

/-- Either sticky field of `sbcs` is set, so that a transfer clears both first (R233). -/
def sbSticky (x : Word) : Bool := sberrorCode x != 0 || Field.sbbusyerror.extract x != 0

/-- The derived getter `dmstatus.halted` (R88, R173): `((x >> 9) | (x >> 8)) & 1`. -/
def haltedBit (x : Word) : Word := ((x >>> 9) ||| (x >>> 8)) &&& 1

/-- The derived getter `dmstatus.resumeack` (R88, R173): `((x >> 17) | (x >> 16)) & 1`. -/
def resumeackBit (x : Word) : Word := ((x >>> 17) ||| (x >>> 16)) &&& 1

/-- The predicate `haltHart` polls for (R263). -/
def isHalted (x : Word) : Bool := haltedBit x == 1

/-- The predicate `resumeHart` polls for (R263). -/
def isResumeack (x : Word) : Bool := resumeackBit x == 1

/-- The value of a derived getter on a `dmstatus` word (R173). -/
def derivedValue : Derived → Word → Word
  | .halted, x => haltedBit x
  | .resumeack, x => resumeackBit x

/-- The classes of `cmderr` (R71). -/
inductive CmderrClass where
  | none | busy | notSupported | exception | haltResume | bus | reserved | other
deriving DecidableEq, Repr

/-- Classification of a `cmderr` code, total (R71, R208). -/
def classifyCmderr (c : BitVec 3) : CmderrClass :=
  match c.toNat with
  | 0 => .none
  | 1 => .busy
  | 2 => .notSupported
  | 3 => .exception
  | 4 => .haltResume
  | 5 => .bus
  | 6 => .reserved
  | _ => .other

/-- The classes of `sberror` (R82). -/
inductive SberrorClass where
  | none | timeout | badAddress | alignment | badSize | reserved | other
deriving DecidableEq, Repr

/-- Classification of an `sberror` code, total; codes 5 and 6 are both reserved (R82, R239). -/
def classifySberror (c : BitVec 3) : SberrorClass :=
  match c.toNat with
  | 0 => .none
  | 1 => .timeout
  | 2 => .badAddress
  | 3 => .alignment
  | 4 => .badSize
  | 5 => .reserved
  | 6 => .reserved
  | _ => .other

/-- The width in bits an `sbaccess` code stands for; codes 5 to 7 have no meaning (R83). -/
def sbaccessBits (c : BitVec 3) : Option Nat :=
  match c.toNat with
  | 0 => some 8
  | 1 => some 16
  | 2 => some 32
  | 3 => some 64
  | 4 => some 128
  | _ => .none

/-- The width in bits an `aarsize` code stands for (R73); the other codes have no meaning (R142). -/
def aarsizeBits (c : BitVec 3) : Option Nat :=
  match c.toNat with
  | 2 => some 32
  | 3 => some 64
  | 4 => some 128
  | _ => .none

/-- What a 16-bit register number of an access-register command names (R74). -/
inductive RegnoSpace where
  | csr | gpr | fpr | reserved | nonStandard
deriving DecidableEq, Repr

/-- The ranges of R74. -/
def classifyRegno (n : BitVec 16) : RegnoSpace :=
  if n.toNat ≤ 0x0FFF then .csr
  else if n.toNat ≤ 0x101F then .gpr
  else if n.toNat ≤ 0x103F then .fpr
  else if n.toNat ≤ 0xBFFF then .reserved
  else .nonStandard

end Sys2Proof.Machine
end

