-- ==== Sys2Proof/Machine/Operands.lean ====
section
/-!
DEFINITION. Operand assembly (30_encoding.md R135): hart index, register number, command word, unit size and
byte packing of a memory transfer.
-/

namespace Sys2Proof.Machine

/-! ### Hart index (R135 (a), R167, R168) -/

/-- The low half of a hart index, `h[9:0]`, as a setter's operand. -/
def hartLo (h : BitVec 20) : Word := (h.extractLsb' 0 10).setWidth 32

/-- The high half of a hart index, `h[19:10]`, as a setter's operand. -/
def hartHi (h : BitVec 20) : Word := (h.extractLsb' 10 10).setWidth 32

/-- The two `hartsel` halves of a `dmcontrol` word replaced by those of `h` (R168, R260). -/
def withHartsel (h : BitVec 20) (x : Word) : Word :=
  Field.hartselhi.insert (hartHi h) (Field.hartsello.insert (hartLo h) x)

/-- The composite `hartsel = hartselhi << 10 | hartsello` of a `dmcontrol` word (R25, R167). -/
def hartselOf (x : Word) : Word := (Field.hartselhi.extract x <<< 10) ||| Field.hartsello.extract x

/-- The word with `h[9:0]` in bits 25:16 and `h[19:10]` in bits 15:6, `enc(h)` of 43_hart_control.md. -/
def encHart (h : BitVec 20) : Word := (hartLo h <<< 16) ||| (hartHi h <<< 6)

/-! ### Register numbers and command words (R135 (b), (c), R141, R206) -/

/-- The register number of a general register (R74, R210). -/
def gprRegno (reg : BitVec 5) : BitVec 16 := 0x1000 + reg.setWidth 16

/-- The register number of a floating-point register (R74, R212). -/
def fprRegno (reg : BitVec 5) : BitVec 16 := 0x1020 + reg.setWidth 16

/-- The register number of a CSR (R74, R214). -/
def csrRegno (csr : BitVec 12) : BitVec 16 := csr.setWidth 16

/-- The command word `0x00220000 | (W << 16) | regno` (R206); `W` is true for a write access. -/
def commandWord (write : Bool) (regno : BitVec 16) : Word :=
  0x00220000 ||| (((BitVec.ofBool write).setWidth 32) <<< 16) ||| regno.setWidth 32

/-! ### Memory units (R231, R232) -/

/-- The unit size in bytes: the largest of 4, 2, 1 that divides the address and the length (R231). -/
def unitSize (a len : Word) : Nat :=
  if a.toNat % 4 = 0 ∧ len.toNat % 4 = 0 then 4
  else if a.toNat % 2 = 0 ∧ len.toNat % 2 = 0 then 2
  else 1

/-- The `sbaccess` code of a unit size, `log2(u)` (R231). -/
def unitCode (u : Nat) : Word := if u = 4 then 2 else if u = 2 then 1 else 0

/-- The number of units of a transfer, `len / u` (R231). -/
def unitCount (a len : Word) : Nat := len.toNat / unitSize a len

/-- The unit `i` of size `u` assembled little-endian from the bytes `buf` gives, zero-extended to 32 bits
(R135 (d), R232). -/
def packUnit (buf : Nat → Byte) (i u : Nat) : Word :=
  (List.range u).foldl (fun x j => x ||| ((buf (i * u + j)).setWidth 32 <<< (8 * j))) 0

/-- The `u` bytes of a unit in increasing address order; the bits above are ignored (R232). -/
def unpackUnit (x : Word) (u : Nat) : List Byte :=
  (List.range u).map fun j => (x >>> (8 * j)).setWidth 8

end Sys2Proof.Machine
end

