-- ==== Sys2Proof/Machine/Ports.lean ====
section
/-!
DEFINITION. What crosses the four ports of the block (00_scope.md R4): transport accesses and their answers
(20_memory.md R101, R103), warning events (30_encoding.md R138), responses (R136, R137), and the inputs the
caller and the reset input present; and the engine state registers (10_state.md R27).
-/

namespace Sys2Proof.Machine

/-- The five values of an engine state register (R27). -/
inductive EngineState where
  | idle | issued | polling | done | failed
deriving DecidableEq, Repr

/-- The three engines that hold a state register (R27). -/
inductive Engine where
  /-- The abstract command engine, `ac_state`. -/
  | ac
  /-- The system bus engine, `sb_state`. -/
  | sb
  /-- The hart control engine, `hc_state`. -/
  | hc
deriving DecidableEq, Repr

/-- One transport cycle as the block issues it (R101): `DmiRead(a)` or `DmiWrite(a, v)`. -/
inductive Access where
  | read (addr : DmiAddr)
  | write (addr : DmiAddr) (v : Word)
deriving DecidableEq, Repr

/-- The answer to one transport cycle (R103): `Ok(word)`, or `Err(e)` with an opaque error value, a
natural number here (log 10). -/
inductive Answer where
  | ok (w : Word)
  | err (e : Nat)
deriving DecidableEq, Repr, Inhabited

/-- A warning event (R138). -/
inductive Warning where
  | trunc (aid idx fid : BitVec 8) (v : Word)
  | index (aid idx : BitVec 8)
  | unimpl (aid fid : BitVec 8)
deriving DecidableEq, Repr

/-- The outcome codes of a response (R137). -/
inductive Status where
  | ok | cmdError | busError | pollTimeout | transportError | refused
deriving DecidableEq, Repr

/-- The fields of the 72-bit response word (R136). -/
structure Response where
  status : Status
  cls : BitVec 4
  value : Word
  count : Word
deriving DecidableEq, Repr

/-- One thing that happened at the ports, or to an engine state register, in the order it happened (log 7).
The read data of `readMem` stand with its response (R136). -/
inductive Event where
  | cycle (a : Access) (r : Answer)
  | transportReset
  | warning (w : Warning)
  | engine (e : Engine) (st : EngineState)
  | response (r : Response) (data : List Byte)
deriving DecidableEq, Repr

/-- What the outside presents next (log 4, log 5, log 8). -/
inductive Input where
  /-- A request word with its write data on the request port (R130). -/
  | request (word : BitVec 96) (data : List Byte)
  /-- The abstract command engine is given this command word to issue (R141, R206, log 5). -/
  | command (word : Word)
  /-- The reset input is asserted while the block waits for a request (R340). -/
  | reset
  /-- A request whose execution the reset input ends after `k` events (R340, log 8). -/
  | abandoned (word : BitVec 96) (data : List Byte) (k : Nat)
deriving DecidableEq, Repr

/-- The numeric code of an engine state (R27). -/
def EngineState.code : EngineState → BitVec 3
  | .idle => 0
  | .issued => 1
  | .polling => 2
  | .done => 3
  | .failed => 4

/-- The numeric code of a status (R137). -/
def Status.code : Status → BitVec 4
  | .ok => 0
  | .cmdError => 1
  | .busError => 2
  | .pollTimeout => 3
  | .transportError => 4
  | .refused => 5

/-- The 72-bit response word: status 71:68, class 67:64, value 63:32, count 31:0 (R136). -/
def Response.toWord (r : Response) : BitVec 72 := r.status.code ++ r.cls ++ r.value ++ r.count

/-- Is the event on the transport master port? -/
def Event.isTransport : Event → Bool
  | .cycle _ _ | .transportReset => true
  | .warning _ | .engine _ _ | .response _ _ => false

/-- Is the event a response? -/
def Event.isResponse : Event → Bool
  | .response _ _ => true
  | .cycle _ _ | .transportReset | .warning _ | .engine _ _ => false

/-- The access of a transport cycle event. -/
def Event.access? : Event → Option Access
  | .cycle a _ => some a
  | .transportReset | .warning _ | .engine _ _ | .response _ _ => none

/-- The warning of a warning event. -/
def Event.warning? : Event → Option Warning
  | .warning w => some w
  | .cycle _ _ | .transportReset | .engine _ _ | .response _ _ => none

/-- The response and read data of a response event. -/
def Event.response? : Event → Option (Response × List Byte)
  | .response r d => some (r, d)
  | .cycle _ _ | .transportReset | .warning _ | .engine _ _ => none

/-- The transport address an access drives. -/
def Access.addr : Access → DmiAddr
  | .read a => a
  | .write a _ => a

end Sys2Proof.Machine
end

