-- ==== Sys2Proof/Config.lean ====
section
/-!
DEFINITION. What the spec leaves to the implementation or to the environment, as constants with no body:
nothing can be proved of a value of theirs but what holds for every value
(93_implementation_defined.md: "a model needs exactly two free inputs to be closed").
-/

namespace Sys2Proof.Config

/-- The open parameter behind `POLL_LIMIT_RESET` (00_scope.md R8, 93_implementation_defined.md U1, log 1). -/
opaque pollLimitResetRaw : Word

/-- `POLL_LIMIT_RESET`: any 32-bit value that is at least 1 (R8, R341, log 1). -/
def pollLimitReset : Word := if pollLimitResetRaw = 0 then 1 else pollLimitResetRaw

/-- The transport oracle: the answer to an access after a history of transport events
(93_implementation_defined.md U7, U8, U10, U12; log 2). -/
opaque transport (history : List Machine.Event) (access : Machine.Access) : Machine.Answer

/-- A byte of write data that a `writeMem` request lacks, by the length of the event log and the byte's
place (log 6). -/
opaque absentByte (time place : Nat) : Byte

end Sys2Proof.Config
end

