-- ==== Sys2Proof/Machine/State.lean ====
section
/-!
DEFINITION. The state of the block (10_state.md R20) with the model's own record of the four ports, the
closed types of faults and refusals, and the state after reset (70_reset_and_hazards.md R341).
-/

namespace Sys2Proof.Machine

/-- The state of the block. The first eight fields are all of R20: "the complete state of one block is the
following, and nothing else". The last five are the environment's side of the ports (R34): what is presented
to the block and what has left it. -/
structure State where
  /-- The shadow register file (R21). -/
  sh : RegFile Word
  /-- The abstract command engine state register (R27). -/
  acState : EngineState
  /-- The system bus engine state register (R27). -/
  sbState : EngineState
  /-- The hart control engine state register (R27). -/
  hcState : EngineState
  /-- Reads done by the polling loop in progress or last finished (R30). -/
  pollCount : Word
  /-- Index of the system-bus unit in progress; after a transfer, the units transferred (R29). -/
  unitIdx : Word
  /-- The bound on reads in one polling loop (R31). -/
  pollLimit : Word
  /-- The formatting mode of each register (R32). -/
  pretty : RegFile Bool
  /-- What the caller and the reset input present next (log 4). -/
  inputs : List Input
  /-- The write data of the request being served (R121, log 6). -/
  wdata : List Byte
  /-- The read data the memory operation has delivered so far (R121, log 6). -/
  rdata : List Byte
  /-- The scripted transport answers not yet consumed (R103, log 2). -/
  answers : List Answer
  /-- Everything that has happened at the ports, oldest first (R14, log 7). -/
  events : List Event
deriving DecidableEq, Repr

/-- The faults of the machine: none. "No exceptions/panics cross the register or command layer boundary"
(00_scope.md R15); every error is a status in a response and a next state (60_exceptions.md R300, R315).
Nobody raises a fault; that is safe, since the type has no value. -/
inductive Fault where
deriving DecidableEq, Repr

/-- Why a step has no meaning. -/
inductive Refusal where
  /-- An instruction without a meaning; raised by an arm of `exec` that rejects its instruction by name.
  No arm does. Safe: the model stops where the hardware would go on. -/
  | notModelled (mnemonic : String)
  /-- A 32-bit word in the issue slot of the abstract command engine that is none of the six words the
  engine writes (30_encoding.md R141, log 5); raised by `step`. Safe: the model stops, and the spec says the
  engine holds no such word. -/
  | notCommandWord (word : Word)
deriving DecidableEq, Repr

/-- The state after block reset (R341): the shadows at their reset constants, the engines idle, the
counters zero, `POLL_LIMIT` at the open parameter, every register in compact mode; nothing presented,
nothing scripted and nothing recorded (log 2, log 4, log 7). -/
def State.reset : State where
  sh := RegFile.ofFn RegId.rst
  acState := .idle
  sbState := .idle
  hcState := .idle
  pollCount := 0
  unitIdx := 0
  pollLimit := Config.pollLimitReset
  pretty := RegFile.ofFn fun _ => false
  inputs := []
  wdata := []
  rdata := []
  answers := []
  events := []

end Sys2Proof.Machine
end

