-- ==== Sys2Proof/Machine/Ops.lean ====
section
/-!
DEFINITION. The shared operations: the writers of each state element, the transport cycle, the micro-steps
`rd`, `wr` and `poll` (00_scope.md R10), and the way an operation ends early (`raise`, R10, 60_exceptions.md
R311, R312) and answers. The block has no trap and no return from one (R315): ending with a non-OK status is
all that stands in its place.
-/

namespace Sys2Proof.Machine

/-! ### Reads and writes of the state elements -/

/-- The shadow value of a register, `sh[R]` (R10). -/
def State.shadow (s : State) (r : RegId) : Word := s.sh.get r

/-- `sh[R] <- v` (R10). -/
def State.setShadow (s : State) (r : RegId) (v : Word) : State := { s with sh := s.sh.set r v }

/-- `sh[R].f <- v`, a field write without a warning (R10, R22). -/
def State.putField (s : State) (r : RegId) (f : Field) (v : Word) : State :=
  s.setShadow r (f.insert v (s.shadow r))

/-- Append one event to the record of the ports (log 7). -/
def State.record (s : State) (e : Event) : State := { s with events := s.events ++ [e] }

/-- The value of an engine state register (R27). -/
def State.engineState (s : State) : Engine → EngineState
  | .ac => s.acState
  | .sb => s.sbState
  | .hc => s.hcState

/-- `st <- S` (R10): write an engine state register; the transition is recorded (log 7). -/
def State.setEngine (s : State) (e : Engine) (st : EngineState) : State :=
  match e with
  | .ac => { s with acState := st, events := s.events ++ [.engine .ac st] }
  | .sb => { s with sbState := st, events := s.events ++ [.engine .sb st] }
  | .hc => { s with hcState := st, events := s.events ++ [.engine .hc st] }

/-- Write `poll_count` (R30). -/
def State.setPollCount (s : State) (n : Word) : State := { s with pollCount := n }

/-- Write `unit_idx` (R29). -/
def State.setUnitIdx (s : State) (n : Word) : State := { s with unitIdx := n }

/-- Write `POLL_LIMIT` (R31). -/
def State.setPollLimit (s : State) (n : Word) : State := { s with pollLimit := n }

/-- Write the formatting mode of a register (R32). -/
def State.setPretty (s : State) (r : RegId) (b : Bool) : State := { s with pretty := s.pretty.set r b }

/-- Put bytes after the read data delivered so far (R121). -/
def State.deliver (s : State) (bytes : List Byte) : State := { s with rdata := s.rdata ++ bytes }

/-- Byte `i` of the write data; a byte the request lacks is a free value (R121, log 6). -/
def State.writeByte (s : State) (i : Nat) : Byte :=
  match s.wdata[i]? with
  | some b => b
  | none => Config.absentByte s.events.length i

/-- Block reset (R340, R341): every state element of the block takes its reset value. What the environment
holds stays: the inputs still to come, the answers still to come, the record of the past; no transport access
is made (R342). -/
def State.blockReset (s : State) : State :=
  { State.reset with inputs := s.inputs, answers := s.answers, events := s.events }

/-! ### Warnings and responses -/

/-- `warn(w)` (R10, R138). -/
def State.warn (s : State) (w : Warning) : State := s.record (.warning w)

/-- Answer the request with a response and its read data (R136). -/
def State.respond (s : State) (r : Response) (data : List Byte) : State := s.record (.response r data)

/-- The response of an operation that completed (R136, R137). -/
def Response.okWith (value count : Word) : Response := ⟨.ok, 0, value, count⟩

/-- Answer `OK` with a value (R136). -/
def State.respondOk (s : State) (value : Word) : State := s.respond (Response.okWith value 0) []

/-- The response to a word that is no request: `REFUSED`, all other fields 0 (R139, R309). -/
def Response.refusal : Response := ⟨.refused, 0, 0, 0⟩

/-- Answer `REFUSED`; nothing else changes, nothing is sent, nothing is warned of (R139, R309). -/
def State.refuse (s : State) : State := s.respond Response.refusal []

/-! ### How an operation ends early -/

/-- The outcomes `raise` ends an operation with (R10, R300). -/
inductive Stop where
  /-- A transport cycle answered `Err(e)` (R301). -/
  | transportError (e : Nat)
  /-- A polling loop expired (R305). -/
  | pollTimeout
  /-- `cmderr` was not `NONE` after the completion poll (R302). -/
  | cmdError (c : BitVec 3)
  /-- `sberror` was not `NONE` after a unit's poll (R304). -/
  | busError (c : BitVec 3)
deriving DecidableEq, Repr

/-- The response an early end is reported with (R136, R137): the raw class code zero-extended, the error
value truncated or zero-extended to 32 bits, and the count of units for a memory operation. -/
def Stop.response (count : Word) : Stop → Response
  | .transportError e => ⟨.transportError, 0, BitVec.ofNat 32 e, count⟩
  | .pollTimeout => ⟨.pollTimeout, 0, 0, count⟩
  | .cmdError c => ⟨.cmdError, c.setWidth 4, 0, count⟩
  | .busError c => ⟨.busError, c.setWidth 4, 0, count⟩

/-- A part of an operation goes on with a value, or ends the operation at once; either way with the state
that stands then: nothing is rolled back (R312). -/
inductive Res (α : Type) where
  | go (a : α) (s : State)
  | stop (x : Stop) (s : State)
deriving DecidableEq, Repr

/-- One part of an operation after another; after an early end no later part happens (R10). -/
def Res.andThen {α β : Type} (r : Res α) (f : α → State → Res β) : Res β :=
  match r with
  | .go a s => f a s
  | .stop x s => .stop x s

/-! ### The transport cycle (R101 to R105, R112) -/

/-- The transport's answer to an access: the next scripted one, or the oracle's after this history
(log 2). -/
def State.answerTo (s : State) (a : Access) : Answer :=
  match s.answers with
  | r :: _ => r
  | [] => Config.transport (s.events.filter Event.isTransport) a

/-- The state after one answered cycle: the answer is consumed and the cycle recorded; no shadow changes. -/
def State.afterCycle (s : State) (a : Access) : State :=
  { s with answers := s.answers.tail, events := s.events ++ [.cycle a (s.answerTo a)] }

/-- The micro-step `rd(R)` (R10, R160): one transport read; the whole shadow takes the word read; on `Err(e)`
the operation ends and the shadow is unchanged. -/
def rd (r : RegId) (s : State) : Res Unit :=
  match s.answerTo (.read r.addr) with
  | .ok x => .go () ((s.afterCycle (.read r.addr)).setShadow r x)
  | .err e => .stop (.transportError e) (s.afterCycle (.read r.addr))

/-- The micro-step `wr(R)` (R10, R161): one transport write of the shadow as it stands; the shadow takes the
acknowledged word, whatever it is (R104); on `Err(e)` the operation ends and the shadow keeps the word
sent. -/
def wr (r : RegId) (s : State) : Res Unit :=
  match s.answerTo (.write r.addr (s.shadow r)) with
  | .ok k => .go () ((s.afterCycle (.write r.addr (s.shadow r))).setShadow r k)
  | .err e => .stop (.transportError e) (s.afterCycle (.write r.addr (s.shadow r)))

/-! ### The polling loop (R201) -/

/-- The loop with `n` reads left: expired when none is left; else one read, one more counted, and ready if
the word read satisfies the condition. -/
def pollLoop (r : RegId) (cond : Word → Bool) : Nat → State → Res Bool
  | 0, s => .go false s
  | n + 1, s =>
    (rd r s).andThen fun _ s' =>
      let s'' := s'.setPollCount (s'.pollCount + 1)
      if cond (s''.shadow r) then .go true s'' else pollLoop r cond n s''

/-- `poll(R, cond)` (R201): at most `POLL_LIMIT` reads; `true` is `Ready`, `false` is `Expired`. -/
def poll (r : RegId) (cond : Word → Bool) (s : State) : Res Bool :=
  pollLoop r cond s.pollLimit.toNat (s.setPollCount 0)

/-- A poll whose expiry ends the operation with `POLL_TIMEOUT` (R305). -/
def pollOrStop (r : RegId) (cond : Word → Bool) (s : State) : Res Unit :=
  (poll r cond s).andThen fun ready s' => if ready then .go () s' else .stop .pollTimeout s'

/-! ### Designators (30_encoding.md R134, 40_register_ops.md R165) -/

/-- An operation on the register instance a designator names: refused for a scalar with an index (R134 (b));
with an index beyond the array, one `W_INDEX`, `OK` with value 0 and no other effect (R165). -/
def withReg (n : RegName) (idx : BitVec 8) (s : State) (f : RegId → State) : State :=
  if n.indexOk idx then
    match n.resolve idx with
    | some r => f r
    | none => (s.warn (.index n.aid idx)).respondOk 0
  else s.refuse

/-- An operation on a field: refused where the register has no such field or the field no such accessor
(R134 (d), (e)), before the array index is looked at (R134 (g)). -/
def withField (n : RegName) (idx fid : BitVec 8) (usable : Field → Bool) (s : State)
    (f : RegId → Field → State) : State :=
  match n.field? fid with
  | some fd => if usable fd then withReg n idx s fun r => f r fd else s.refuse
  | none => s.refuse

end Sys2Proof.Machine
end

