-- ==== Sys2Proof/Machine/AbstractCommand.lean ====
section
/-!
DEFINITION. The abstract command engine (41_abstract_command.md): the procedure `AccessReg` (R202), the six
register operations, and the six `command` words, whose meaning is the engine run with that word (log 5).
-/

namespace Sys2Proof.Machine

open Host (Outcome)

/-- Step 1, second half (R204): a stale `cmderr` in the shadow is cleared by writing all-ones and read back;
the result is not tested. -/
def clearStaleCmderr (s : State) : Res Unit :=
  if cmderrCode (s.shadow .abstractcs) = 0 then .go () s
  else (wr .abstractcs (s.putField .abstractcs .cmderr 7)).andThen fun _ s' => rd .abstractcs s'

/-- Step 1 (R203, R204): a stale `busy` in the shadow is waited out first. -/
def prepareCommand (s : State) : Res Unit :=
  if isBusy (s.shadow .abstractcs) then
    (pollOrStop .abstractcs notBusy s).andThen fun _ s' => clearStaleCmderr s'
  else clearStaleCmderr s

/-- Step 2 (R205): a write access stages its value in `data0`; `none` where there is nothing to stage. -/
def stageValue (staged : Option Word) (s : State) : Res Unit :=
  match staged with
  | some v => wr (.data 0) (s.setShadow (.data 0) v)
  | none => .go () s

/-- Steps 5 and 6 (R208, R209): classify `cmderr` as the poll's last read left it; then a read access
fetches `data0`. The result value is 0 for a write access. -/
def completeCommand (write : Bool) (s : State) : Res Word :=
  if cmderrCode (s.shadow .abstractcs) = 0 then
    if write then .go 0 s
    else (rd (.data 0) s).andThen fun _ s' => .go (s'.shadow (.data 0)) s'
  else .stop (.cmdError (cmderrCode (s.shadow .abstractcs))) s

/-- Steps 3 to 6 (R206 to R209): write the command word, wait until `busy` is clear, complete. -/
def issueCommand (write : Bool) (word : Word) (s : State) : Res Word :=
  (wr .command (s.setShadow .command word)).andThen fun _ s1 =>
  (pollOrStop .abstractcs notBusy ((s1.setEngine .ac .issued).setEngine .ac .polling)).andThen fun _ s2 =>
  completeCommand write s2

/-- The end of an abstract command (R216): `Done` and `OK` with the value, or `Failed` and the outcome. -/
def commandEnd : Res Word → State
  | .go v s => (s.setEngine .ac .done).respondOk v
  | .stop x s => (s.setEngine .ac .failed).respond (x.response 0) []

/-- `AccessReg(W, regno, val)` (R202), with the value it stages: none for a read access, and none for a word in
the issue slot, which carries no value (log 5). -/
def accessReg (write : Bool) (regno : BitVec 16) (staged : Option Word) (s : State) : State :=
  commandEnd ((prepareCommand s).andThen fun _ s1 =>
    (stageValue staged s1).andThen fun _ s2 =>
    issueCommand write (commandWord write regno) s2)

/-- `readGpr reg` (R210). -/
def execReadGpr (reg : BitVec 5) (s : State) : Outcome State Fault Refusal :=
  .next (accessReg false (gprRegno reg) none s)

/-- `writeGpr reg, v` (R211). -/
def execWriteGpr (reg : BitVec 5) (v : Word) (s : State) : Outcome State Fault Refusal :=
  .next (accessReg true (gprRegno reg) (some v) s)

/-- `readFpr reg` (R212). -/
def execReadFpr (reg : BitVec 5) (s : State) : Outcome State Fault Refusal :=
  .next (accessReg false (fprRegno reg) none s)

/-- `writeFpr reg, v` (R213). -/
def execWriteFpr (reg : BitVec 5) (v : Word) (s : State) : Outcome State Fault Refusal :=
  .next (accessReg true (fprRegno reg) (some v) s)

/-- `readCsr csr` (R214). -/
def execReadCsr (csr : BitVec 12) (s : State) : Outcome State Fault Refusal :=
  .next (accessReg false (csrRegno csr) none s)

/-- `writeCsr csr, v` (R215). -/
def execWriteCsr (csr : BitVec 12) (v : Word) (s : State) : Outcome State Fault Refusal :=
  .next (accessReg true (csrRegno csr) (some v) s)

/-! ### The command words (R141)

The row of a word is the engine run with that word to issue (log 5): the preconditions of step 1, so that no command
is issued while the engine believes one is busy (R218) or over a stale `cmderr` (R204), then steps 3 to 6; nothing is
staged. -/

/-- The engine run with the word `0x00221000 + reg` (R141, R206, R210). -/
def execCmdReadGpr (reg : BitVec 5) (s : State) : Outcome State Fault Refusal :=
  .next (accessReg false (gprRegno reg) none s)

/-- The engine run with the word `0x00231000 + reg` (R141, R206, R211). -/
def execCmdWriteGpr (reg : BitVec 5) (s : State) : Outcome State Fault Refusal :=
  .next (accessReg true (gprRegno reg) none s)

/-- The engine run with the word `0x00221020 + reg` (R141, R206, R212). -/
def execCmdReadFpr (reg : BitVec 5) (s : State) : Outcome State Fault Refusal :=
  .next (accessReg false (fprRegno reg) none s)

/-- The engine run with the word `0x00231020 + reg` (R141, R206, R213). -/
def execCmdWriteFpr (reg : BitVec 5) (s : State) : Outcome State Fault Refusal :=
  .next (accessReg true (fprRegno reg) none s)

/-- The engine run with the word `0x00220000 + csr` (R141, R206, R214). -/
def execCmdReadCsr (csr : BitVec 12) (s : State) : Outcome State Fault Refusal :=
  .next (accessReg false (csrRegno csr) none s)

/-- The engine run with the word `0x00230000 + csr` (R141, R206, R215). -/
def execCmdWriteCsr (csr : BitVec 12) (s : State) : Outcome State Fault Refusal :=
  .next (accessReg true (csrRegno csr) none s)

end Sys2Proof.Machine
end

