-- ==== Sys2Proof/Machine/HartControl.lean ====
section
/-!
DEFINITION. The hart control engine (43_hart_control.md): select, halt, resume.
-/

namespace Sys2Proof.Machine

open Host (Outcome)

/-- The micro-steps of `selectHart h` (R260): the two `hartsel` halves set, one write of `dmcontrol`. -/
def selectSteps (h : BitVec 20) (s : State) : Res Unit :=
  wr .dmcontrol (s.setShadow .dmcontrol (withHartsel h (s.shadow .dmcontrol)))

/-- `selectHart h` (R260): `hc_state` is not changed by it, whatever its outcome. -/
def execSelectHart (h : BitVec 20) (s : State) : Outcome State Fault Refusal :=
  .next (match selectSteps h s with
    | .go _ s' => s'.respondOk 0
    | .stop x s' => s'.respond (x.response 0) [])

/-- The `dmcontrol` word of the second write (R261, R262, R268): `hartsel` set again, since the
acknowledgement need not carry it, one request bit set and the other cleared. -/
def requestWord (h : BitVec 20) (request clear : Field) (k : Word) : Word :=
  clear.insert 0 (request.insert 1 (withHartsel h k))

/-- The micro-steps `haltHart` and `resumeHart` share (R261, R262): select, second write with the request
bit, poll `dmstatus`. -/
def requestSteps (h : BitVec 20) (request clear : Field) (cond : Word → Bool) (s : State) : Res Unit :=
  (selectSteps h s).andThen fun _ s1 =>
  (wr .dmcontrol (s1.setShadow .dmcontrol (requestWord h request clear (s1.shadow .dmcontrol)))).andThen
    fun _ s2 =>
  pollOrStop .dmstatus cond ((s2.setEngine .hc .issued).setEngine .hc .polling)

/-- The end of a halt or resume (R264): `Done` and `OK`, or `Failed` and the outcome. -/
def hartEnd : Res Unit → State
  | .go _ s => (s.setEngine .hc .done).respondOk 0
  | .stop x s => (s.setEngine .hc .failed).respond (x.response 0) []

/-- `haltHart h` (R261). -/
def execHaltHart (h : BitVec 20) (s : State) : Outcome State Fault Refusal :=
  .next (hartEnd (requestSteps h .haltreq .resumereq isHalted s))

/-- `resumeHart h` (R262). -/
def execResumeHart (h : BitVec 20) (s : State) : Outcome State Fault Refusal :=
  .next (hartEnd (requestSteps h .resumereq .haltreq isResumeack s))

end Sys2Proof.Machine
end

