-- ==== Sys2Proof/Machine/Primitive.lean ====
section
/-!
DEFINITION. The meanings of the primitive operations (40_register_ops.md): the register triad, the field
accessors, the hart selection helpers and the clear mutators. None changes an engine state register,
`poll_count` or `unit_idx` (10_state.md R28).
-/

namespace Sys2Proof.Machine

open Host (Outcome)

/-- The end of a primitive operation that used the transport: `OK`, or the transport error; no engine state
changes (R301). -/
def primitiveEnd : Res Unit → State
  | .go _ s => s.respondOk 0
  | .stop x s => s.respond (x.response 0) []

/-- `read R` (R160). -/
def execRead (n : RegName) (idx : BitVec 8) (s : State) : Outcome State Fault Refusal :=
  .next (withReg n idx s fun r => primitiveEnd (rd r s))

/-- `write R` (R161). -/
def execWrite (n : RegName) (idx : BitVec 8) (s : State) : Outcome State Fault Refusal :=
  .next (withReg n idx s fun r => primitiveEnd (wr r s))

/-- `reset R` (R162): the local shadow only. -/
def execReset (n : RegName) (idx : BitVec 8) (s : State) : Outcome State Fault Refusal :=
  .next (withReg n idx s fun r => (s.setShadow r r.rst).respondOk 0)

/-- What a getter does once its register exists (R163, R166, R173). -/
def getField (n : RegName) (fid : BitVec 8) (s : State) (r : RegId) (f : Field) : State :=
  match f.acc with
  | .unimpl => (s.warn (.unimpl n.aid fid)).respondOk 0
  | .derived d => s.respondOk (derivedValue d (s.shadow r))
  | .getter | .getSet | .getClear => s.respondOk (f.extract (s.shadow r))

/-- `get R.f` (R163). -/
def execGet (n : RegName) (idx fid : BitVec 8) (s : State) : Outcome State Fault Refusal :=
  .next (withField n idx fid (fun _ => true) s (getField n fid s))

/-- What a setter does once its register exists (R164, R166): the unimplemented setter warns and changes
nothing, and gives no truncation warning; the others warn of truncation, then store every bit of the field's mask.
For `command.control` that is bit 23 too, whatever `cmdtype` is, which R89 denies (DESIGN CHOICE, log 18). -/
def setField (n : RegName) (idx fid : BitVec 8) (v : Word) (s : State) (r : RegId) (f : Field) : State :=
  match f.acc with
  | .unimpl => (s.warn (.unimpl n.aid fid)).respondOk 0
  | .getSet | .getter | .getClear | .derived _ =>
    let s' := if f.overflows v then s.warn (.trunc n.aid idx fid v) else s
    (s'.putField r f v).respondOk 0

/-- `set R.f, v` (R164). -/
def execSet (n : RegName) (idx fid : BitVec 8) (v : Word) (s : State) : Outcome State Fault Refusal :=
  .next (withField n idx fid Field.settable s (setField n idx fid v s))

/-- `getHartsel` (R167). -/
def execGetHartsel (s : State) : Outcome State Fault Refusal :=
  .next (s.respondOk (hartselOf (s.shadow .dmcontrol)))

/-- `setHartsel v` (R168): one warning for a value beyond 20 bits, attributed to `hartsello`. -/
def execSetHartsel (v : Word) (s : State) : Outcome State Fault Refusal :=
  let s' := if 2 ^ 20 ≤ v.toNat then s.warn (.trunc 1 0 5 v) else s
  .next ((s'.setShadow .dmcontrol (withHartsel (v.setWidth 20) (s'.shadow .dmcontrol))).respondOk 0)

/-- `hartselMax` (R169). -/
def execHartselMax (s : State) : Outcome State Fault Refusal :=
  .next (((s.putField .dmcontrol .hartsello 0x3FF).putField .dmcontrol .hartselhi 0x3FF).respondOk 0)

/-- `cmderrClear` (R170): a local mutation only. -/
def execCmderrClear (s : State) : Outcome State Fault Refusal :=
  .next ((s.putField .abstractcs .cmderr 7).respondOk 0)

/-- `sberrorClear` (R171): a local mutation only. -/
def execSberrorClear (s : State) : Outcome State Fault Refusal :=
  .next ((s.putField .sbcs .sberror 7).respondOk 0)

/-- `sbbusyerrorClear` (R172): a local mutation only. -/
def execSbbusyerrorClear (s : State) : Outcome State Fault Refusal :=
  .next ((s.putField .sbcs .sbbusyerror 1).respondOk 0)

end Sys2Proof.Machine
end

