-- ==== Sys2Proof/Machine/SystemBus.lean ====
section
/-!
DEFINITION. The system bus engine (42_system_bus.md): `readMem` and `writeMem`.
-/

namespace Sys2Proof.Machine

open Host (Outcome)

/-- The clearing half of `sb_pre` (R233): both sticky fields set to all-ones when either is set, written and
read back; the result is not tested. -/
def clearStaleSberror (s : State) : Res Unit :=
  if sbSticky (s.shadow .sbcs) then
    (wr .sbcs ((s.putField .sbcs .sberror 7).putField .sbcs .sbbusyerror 1)).andThen fun _ s' => rd .sbcs s'
  else .go () s

/-- `sb_pre` (R233). While a stale `sbbusy` is waited out `sb_state` is `Polling`; after it, as before
(R242, log 9). -/
def prepareTransfer (s : State) : Res Unit :=
  if isSbBusy (s.shadow .sbcs) then
    (pollOrStop .sbcs notSbBusy (s.setEngine .sb .polling)).andThen fun _ s' =>
    clearStaleSberror (s'.setEngine .sb s.sbState)
  else clearStaleSberror s

/-- The `sbcs` word of a transfer (R234): four fields of the current word replaced. -/
def configWord (code : Word) (several isRead : Bool) (x : Word) : Word :=
  Field.sbreadondata.insert ((BitVec.ofBool (isRead && several)).setWidth 32)
    (Field.sbreadonaddr.insert ((BitVec.ofBool isRead).setWidth 32)
      (Field.sbautoincrement.insert ((BitVec.ofBool several).setWidth 32)
        (Field.sbaccess.insert code x)))

/-- `sb_config` (R234), then the address write of R235. -/
def startTransfer (a : Word) (code : Word) (several isRead : Bool) (s : State) : Res Unit :=
  (wr .sbcs (s.setShadow .sbcs (configWord code several isRead (s.shadow .sbcs)))).andThen fun _ s1 =>
  wr (.sbaddress 0) ((s1.setEngine .sb .issued).setShadow (.sbaddress 0) a)

/-- `sb_wait` (R236): poll, then check the word the poll's last read loaded. -/
def waitBus (s : State) : Res Unit :=
  (pollOrStop .sbcs notSbBusy (s.setEngine .sb .polling)).andThen fun _ s' =>
  if sberrorCode (s'.shadow .sbcs) = 0 then .go () s'
  else .stop (.busError (sberrorCode (s'.shadow .sbcs))) s'

/-- Before the last unit of a streaming read is fetched, `sbreadondata` is cleared and `sbcs` written
(R245). -/
def endStreaming (last : Bool) (s : State) : Res Unit :=
  if last then wr .sbcs (s.putField .sbcs .sbreadondata 0) else .go () s

/-- One unit of a read (R237): wait, stop the streaming before the last unit, fetch, deliver. -/
def readUnit (u n i : Nat) (s : State) : Res Unit :=
  (waitBus (s.setUnitIdx (BitVec.ofNat 32 i))).andThen fun _ s1 =>
  (endStreaming (decide (i + 1 = n) && decide (1 < n)) s1).andThen fun _ s2 =>
  (rd (.sbdata 0) (s2.setEngine .sb .issued)).andThen fun _ s3 =>
  .go () (s3.deliver (unpackUnit (s3.shadow (.sbdata 0)) u))

/-- The units of a read from the one with `k` units left on. -/
def readUnits (u n : Nat) : Nat → State → Res Unit
  | 0, s => .go () s
  | k + 1, s => (readUnit u n (n - (k + 1)) s).andThen fun _ s' => readUnits u n k s'

/-- One unit of a write (R238): send, wait. -/
def writeUnit (u i : Nat) (s : State) : Res Unit :=
  (wr (.sbdata 0) ((s.setUnitIdx (BitVec.ofNat 32 i)).setShadow (.sbdata 0)
    (packUnit s.writeByte i u))).andThen fun _ s1 =>
  waitBus (s1.setEngine .sb .issued)

/-- The units of a write from the one with `k` units left on. -/
def writeUnits (u n : Nat) : Nat → State → Res Unit
  | 0, s => .go () s
  | k + 1, s => (writeUnit u (n - (k + 1)) s).andThen fun _ s' => writeUnits u n k s'

/-- The state a memory operation starts from: no unit transferred, no read data delivered. -/
def beginTransfer (s : State) : State := { s.setUnitIdx 0 with rdata := [] }

/-- The end of a memory operation (R240, R242): `Done` and `OK`, or `Failed` and the outcome; every response
carries the units transferred and, for a read, their bytes. -/
def transferEnd : Res Unit → State
  | .go _ s => (s.setEngine .sb .done).respond (Response.okWith 0 s.unitIdx) s.rdata
  | .stop x s => (s.setEngine .sb .failed).respond (x.response s.unitIdx) s.rdata

/-- The micro-steps of a read of `n > 0` units (R237). -/
def readSteps (a : Word) (u n : Nat) (s : State) : Res Unit :=
  (prepareTransfer s).andThen fun _ s1 =>
  (startTransfer a (unitCode u) (decide (1 < n)) true s1).andThen fun _ s2 =>
  (readUnits u n n s2).andThen fun _ s3 =>
  .go () (s3.setUnitIdx (BitVec.ofNat 32 n))

/-- The micro-steps of a write of `n > 0` units (R238). -/
def writeSteps (a : Word) (u n : Nat) (s : State) : Res Unit :=
  (prepareTransfer s).andThen fun _ s1 =>
  (startTransfer a (unitCode u) (decide (1 < n)) false s1).andThen fun _ s2 =>
  (waitBus s2).andThen fun _ s3 =>
  (writeUnits u n n s3).andThen fun _ s4 =>
  .go () (s4.setUnitIdx (BitVec.ofNat 32 n))

/-- `readMem a, len` (R237); a transfer of no unit touches nothing but `unit_idx` and `sb_state` (R243). -/
def execReadMem (a len : Word) (s : State) : Outcome State Fault Refusal :=
  .next (transferEnd (if unitCount a len = 0 then .go () (beginTransfer s)
    else readSteps a (unitSize a len) (unitCount a len) (beginTransfer s)))

/-- `writeMem a, len` with the write data on the request port (R238). -/
def execWriteMem (a len : Word) (s : State) : Outcome State Fault Refusal :=
  .next (transferEnd (if unitCount a len = 0 then .go () (beginTransfer s)
    else writeSteps a (unitSize a len) (unitCount a len) (beginTransfer s)))

end Sys2Proof.Machine
end

