-- ==== Sys2Proof/Machine/SystemOps.lean ====
section
/-!
DEFINITION. The meanings of the system operations (44_system_ops.md): transport reset, the poll bound, the
formatting mode.
-/

namespace Sys2Proof.Machine

open Host (Outcome)

/-- `dtmReset` (R280): one `TransportReset`, no state of the block changes, always `OK`. -/
def execDtmReset (s : State) : Outcome State Fault Refusal :=
  .next ((s.record .transportReset).respondOk 0)

/-- `setPollLimit v` (R281): every 32-bit value is accepted. -/
def execSetPollLimit (v : Word) (s : State) : Outcome State Fault Refusal :=
  .next ((s.setPollLimit v).respondOk 0)

/-- `getPollLimit` (R282). -/
def execGetPollLimit (s : State) : Outcome State Fault Refusal :=
  .next (s.respondOk s.pollLimit)

/-- `setPretty R, b` (R283); nothing reads the flag (R284). -/
def execSetPretty (n : RegName) (idx : BitVec 8) (b : Bool) (s : State) : Outcome State Fault Refusal :=
  .next (withReg n idx s fun r => (s.setPretty r b).respondOk 0)

end Sys2Proof.Machine
end

