-- ==== Sys2Proof/Machine/Dispatch.lean ====
section
/-!
DEFINITION. The meaning of each instruction: one arm per constructor, each a direct call of the instruction's
own definition.
-/

namespace Sys2Proof.Machine

/-- The meaning of an instruction at a state. -/
def exec (i : Instr) (s : State) : Host.Outcome State Fault Refusal :=
  match i with
  | .read n idx => Sys2Proof.Machine.execRead n idx s
  | .write n idx => Sys2Proof.Machine.execWrite n idx s
  | .reset n idx => Sys2Proof.Machine.execReset n idx s
  | .get n idx fid => Sys2Proof.Machine.execGet n idx fid s
  | .set n idx fid v => Sys2Proof.Machine.execSet n idx fid v s
  | .getHartsel => Sys2Proof.Machine.execGetHartsel s
  | .setHartsel v => Sys2Proof.Machine.execSetHartsel v s
  | .hartselMax => Sys2Proof.Machine.execHartselMax s
  | .cmderrClear => Sys2Proof.Machine.execCmderrClear s
  | .sberrorClear => Sys2Proof.Machine.execSberrorClear s
  | .sbbusyerrorClear => Sys2Proof.Machine.execSbbusyerrorClear s
  | .dtmReset => Sys2Proof.Machine.execDtmReset s
  | .setPollLimit v => Sys2Proof.Machine.execSetPollLimit v s
  | .getPollLimit => Sys2Proof.Machine.execGetPollLimit s
  | .setPretty n idx b => Sys2Proof.Machine.execSetPretty n idx b s
  | .selectHart h => Sys2Proof.Machine.execSelectHart h s
  | .haltHart h => Sys2Proof.Machine.execHaltHart h s
  | .resumeHart h => Sys2Proof.Machine.execResumeHart h s
  | .readGpr reg => Sys2Proof.Machine.execReadGpr reg s
  | .writeGpr reg v => Sys2Proof.Machine.execWriteGpr reg v s
  | .readFpr reg => Sys2Proof.Machine.execReadFpr reg s
  | .writeFpr reg v => Sys2Proof.Machine.execWriteFpr reg v s
  | .readCsr csr => Sys2Proof.Machine.execReadCsr csr s
  | .writeCsr csr v => Sys2Proof.Machine.execWriteCsr csr v s
  | .readMem a len => Sys2Proof.Machine.execReadMem a len s
  | .writeMem a len => Sys2Proof.Machine.execWriteMem a len s
  | .cmdReadGpr reg => Sys2Proof.Machine.execCmdReadGpr reg s
  | .cmdWriteGpr reg => Sys2Proof.Machine.execCmdWriteGpr reg s
  | .cmdReadFpr reg => Sys2Proof.Machine.execCmdReadFpr reg s
  | .cmdWriteFpr reg => Sys2Proof.Machine.execCmdWriteFpr reg s
  | .cmdReadCsr csr => Sys2Proof.Machine.execCmdReadCsr csr s
  | .cmdWriteCsr csr => Sys2Proof.Machine.execCmdWriteCsr csr s

end Sys2Proof.Machine
end

