-- ==== Sys2Proof/Machine/Fetch.lean ====
section
/-!
DEFINITION. How the block takes what is presented to it: a request word from the request port, a command word
from the issue slot of the abstract command engine, the reset input (00_scope.md R4, 70_reset_and_hazards.md
R340; log 4, log 5, log 8).
-/

namespace Sys2Proof.Machine

open Host (Outcome)

/-- The state in which a request is served: it is taken off the inputs and its write data stand on the
request port (R121). -/
def State.accept (s : State) (rest : List Input) (data : List Byte) : State :=
  { s with inputs := rest, wdata := data }

/-- Serve a request word: run the operation it encodes, or answer `REFUSED` (R139). -/
def serveRequest (word : BitVec 96) (s : State) : Outcome State Fault Refusal :=
  match decodeRequest word with
  | .ok i => exec i s
  | .error _ => .next s.refuse

/-- Run the engine with the command word in its issue slot: its preconditions, then the word (R203, R204, R206,
log 5). -/
def serveCommand (word : Word) (s : State) : Outcome State Fault Refusal :=
  match decodeCommand word with
  | .ok i => exec i s
  | .error _ => .refused (.notCommandWord word)

/-- The events of an operation that are kept when the reset input ends it after `k` of them: its response is
never given (R340, log 8). -/
def keptEvents (before after : State) (k : Nat) : List Event :=
  ((after.events.drop before.events.length).take k).filter fun e => !e.isResponse

/-- How many transport answers a list of events used up. -/
def answersUsed (es : List Event) : Nat := (es.filterMap Event.access?).length

/-- A request abandoned by the reset input after `k` of its events (R340): what had left the block by then
has left it, the answers it used are used, and every state element takes its reset value. -/
def abandon (k : Nat) (before after : State) : State :=
  { State.reset with
    inputs := before.inputs
    answers := before.answers.drop (answersUsed (keptEvents before after k))
    events := before.events ++ keptEvents before after k }

/-- Serve a request that the reset input ends after `k` events. -/
def serveAbandoned (word : BitVec 96) (k : Nat) (s : State) : Outcome State Fault Refusal :=
  match serveRequest word s with
  | .next t => .next (abandon k s t)
  | .fault r => .fault r
  | .refused r => .refused r

/-- What the block does with the next thing presented; with nothing presented it waits, unchanged (R4,
R340). -/
def serveNext (s : State) : Outcome State Fault Refusal :=
  match s.inputs with
  | [] => .next s
  | .request word data :: rest => serveRequest word (s.accept rest data)
  | .command word :: rest => serveCommand word (s.accept rest [])
  | .reset :: rest => .next (s.accept rest []).blockReset
  | .abandoned word data k :: rest => serveAbandoned word k (s.accept rest data)

/-- The input that carries a table word of `nbits` bits. -/
def tableInput (nbits w : Nat) : Input :=
  if nbits = 32 then .command (BitVec.ofNat 32 w) else .request (BitVec.ofNat 96 w) []

end Sys2Proof.Machine
end

