-- ==== Sys2Proof/Machine/Step.lean ====
section
/-!
DEFINITION. One step of the machine: one thing presented to the block, served to its end (10_state.md R26,
log 3).
-/

namespace Sys2Proof.Machine

/-- One step (R26): the operation presented runs as one big step over the transport's answers. -/
def step (s : State) : Host.Outcome State Fault Refusal := serveNext s

/-- The state with a table word presented next (log 4, log 16). -/
def State.withFetchWord (s : State) (nbits w : Nat) : State :=
  { s with inputs := tableInput nbits w :: s.inputs }

end Sys2Proof.Machine
end

