-- ==== Sys2Proof/Safety.lean ====
section
/-!
DEFINITION. The terms claims use: which words are valid requests (30_encoding.md R134, R139), the traffic of the
four ports read off the record, what the rules say each operation may touch, raise and answer, the scripts of
transport answers a claim supposes, and the invariants.
-/

namespace Sys2Proof

open Machine

/-! ### Valid request words (30_encoding.md R133, R134, R139)

Written from the rules and their tables, apart from the decoder. -/

/-- The `aid`s that name arrays (R133). -/
def arrayAids : List Nat := [0, 4, 10, 12, 14, 16]

/-- How many fields the register of each `aid` has, by `aid` (11_dmi_registers.md R63 to R84). -/
def fieldCounts : List Nat := [1, 11, 20, 4, 1, 1, 1, 4, 8, 2, 1, 1, 1, 1, 1, 14, 1]

/-- The field ids with a setter or an unimplemented accessor pair, by `aid` (column "acc" of R63 to R84). -/
def setterFids : List (List Nat) :=
  [[0], [0, 1, 2, 3, 4, 5, 6, 7, 8, 9, 10], [], [], [], [0], [0], [], [0, 1, 2, 3, 4, 5, 6, 7], [0, 1], [],
   [], [0], [0], [0], [3, 4, 5, 6], [0]]

/-- R134 (a) and (b): a register name, and index 0 for a scalar. -/
def nameValid (aid idx : Nat) : Bool := decide (aid ≤ 16) && (arrayAids.contains aid || idx == 0)

/-- R134 (d): the field is in the register's table. -/
def fidValid (aid fid : Nat) : Bool := decide (fid < fieldCounts.getD aid 0)

/-- R134 (e): the field has a setter. -/
def setterValid (aid fid : Nat) : Bool := (setterFids.getD aid []).contains fid

/-- Designator validity of a request with these bytes (R134): only `read`, `write`, `reset`, `get`, `set` and
`setPretty` have a designator. -/
def designatorValid (op fid idx aid : Nat) : Bool :=
  match op with
  | 0x01 | 0x02 | 0x03 | 0x0F => nameValid aid idx
  | 0x04 => nameValid aid idx && fidValid aid fid
  | 0x05 => nameValid aid idx && setterValid aid fid
  | _ => true

/-- A valid request word (R139): it carries the fixed bits of a row of R132, and its designator is valid. -/
def validRequest (w : BitVec 96) : Bool :=
  (primitiveRows ++ compositeRows).any (fun row => row.matchesWord w.toNat) &&
    designatorValid (w.extractLsb' 88 8).toNat (w.extractLsb' 80 8).toNat (w.extractLsb' 72 8).toNat
      (w.extractLsb' 64 8).toNat

/-! ### What each operation may touch, raise and answer -/

/-- The engine an operation runs (10_state.md R27); none for a primitive or system operation and for
`selectHart` (R264). -/
def Instr.engine? : Instr → Option Engine
  | .haltHart _ | .resumeHart _ => some .hc
  | .readGpr _ | .writeGpr _ _ | .readFpr _ | .writeFpr _ _ | .readCsr _ | .writeCsr _ _
  | .cmdReadGpr _ | .cmdWriteGpr _ | .cmdReadFpr _ | .cmdWriteFpr _ | .cmdReadCsr _ | .cmdWriteCsr _ =>
    some .ac
  | .readMem _ _ | .writeMem _ _ => some .sb
  | .read _ _ | .write _ _ | .reset _ _ | .get _ _ _ | .set _ _ _ _ | .getHartsel | .setHartsel _
  | .hartselMax | .cmderrClear | .sberrorClear | .sbbusyerrorClear | .dtmReset | .setPollLimit _
  | .getPollLimit | .setPretty _ _ _ | .selectHart _ => none

/-- The shadow registers an operation may change (10_state.md R23, 40_register_ops.md R175,
70_reset_and_hazards.md R357). -/
def Instr.mayChange (i : Instr) (r : RegId) : Bool :=
  match i with
  | .read n idx | .write n idx | .reset n idx | .set n idx _ _ => decide (n.resolve idx = some r)
  | .setHartsel _ | .hartselMax | .selectHart _ => decide (r = .dmcontrol)
  | .cmderrClear => decide (r = .abstractcs)
  | .sberrorClear | .sbbusyerrorClear => decide (r = .sbcs)
  | .haltHart _ | .resumeHart _ => decide (r ∈ [.dmcontrol, .dmstatus])
  | .readGpr _ | .writeGpr _ _ | .readFpr _ | .writeFpr _ _ | .readCsr _ | .writeCsr _ _
  | .cmdReadGpr _ | .cmdWriteGpr _ | .cmdReadFpr _ | .cmdWriteFpr _ | .cmdReadCsr _ | .cmdWriteCsr _ =>
    decide (r ∈ [.abstractcs, .command, .data 0])
  | .readMem _ _ | .writeMem _ _ => decide (r ∈ [.sbcs, .sbaddress 0, .sbdata 0])
  | .get _ _ _ | .getHartsel | .dtmReset | .setPollLimit _ | .getPollLimit | .setPretty _ _ _ => false

/-- The registers whose addresses an operation may drive (R175, R217, R244, R267). -/
def Instr.mayAccess (i : Instr) (r : RegId) : Bool :=
  match i with
  | .reset _ _ | .set _ _ _ _ | .setHartsel _ | .hartselMax | .cmderrClear | .sberrorClear
  | .sbbusyerrorClear => false
  | _ => i.mayChange r

/-- Does the operation move memory units, so that it writes `unit_idx` (10_state.md R29)? -/
def Instr.movesMemory : Instr → Bool
  | .readMem _ _ | .writeMem _ _ => true
  | _ => false

/-- The statuses an operation's rule lets it answer with (60_exceptions.md R300); `REFUSED` stands here for a
term that no request word decodes to (log 14). -/
def Instr.statuses (i : Instr) : List Status :=
  if i.wf then
    match i with
    | .read _ _ | .write _ _ | .selectHart _ => [.ok, .transportError]
    | .haltHart _ | .resumeHart _ => [.ok, .pollTimeout, .transportError]
    | .readGpr _ | .writeGpr _ _ | .readFpr _ | .writeFpr _ _ | .readCsr _ | .writeCsr _ _
    | .cmdReadGpr _ | .cmdWriteGpr _ | .cmdReadFpr _ | .cmdWriteFpr _ | .cmdReadCsr _
    | .cmdWriteCsr _ => [.ok, .cmdError, .pollTimeout, .transportError]
    | .readMem _ _ | .writeMem _ _ => [.ok, .busError, .pollTimeout, .transportError]
    | _ => [.ok]
  else [.refused]

end Sys2Proof

namespace Sys2Proof.Machine

/-! ### The ports, read off the record -/

/-- The transport accesses of a list of events, oldest first (20_memory.md R112). -/
def accessesOf (es : List Event) : List Access := es.filterMap Event.access?

/-- The warning events of a list of events (30_encoding.md R138). -/
def warningsOf (es : List Event) : List Warning := es.filterMap Event.warning?

/-- The responses of a list of events, with their read data (R136). -/
def responsesOf (es : List Event) : List (Response × List Byte) := es.filterMap Event.response?

/-- The values one engine state register takes in a list of events. -/
def engineTrace (en : Engine) (es : List Event) : List EngineState :=
  es.filterMap fun e => match e with
    | .engine en' st => if en' = en then some st else none
    | .cycle _ _ | .transportReset | .warning _ | .response _ _ => none

/-- The words a register was answered with when it was read. -/
def wordsRead (r : RegId) (es : List Event) : List Word :=
  es.filterMap fun e => match e with
    | .cycle (.read a) (.ok x) => if a = r.addr then some x else none
    | _ => none

/-- The words sent to a register. -/
def wordsSent (r : RegId) (es : List Event) : List Word :=
  es.filterMap fun e => match e with
    | .cycle (.write a v) _ => if a = r.addr then some v else none
    | _ => none

/-- Does the access drive the address of a register that `p` holds of? -/
def Access.drives (p : RegId → Bool) (a : Access) : Bool := RegId.all.any fun r => p r && a.addr == r.addr

/-! ### Scripts of transport answers -/

/-- Words answered `Ok`. -/
def okAll (ws : List Word) : List Answer := ws.map .ok

/-- The record of one answered read of a register. -/
def fetched (r : RegId) (x : Word) : Event := .cycle (.read r.addr) (.ok x)

/-- The record of one answered write of a register: the word sent and the word acknowledged. -/
def wrote (r : RegId) (v k : Word) : Event := .cycle (.write r.addr v) (.ok k)

/-- The record of the answered reads of one register. -/
def polled (r : RegId) (ws : List Word) : List Event := ws.map (fetched r)

/-- The shadow file after reads of one register that answered these words. -/
def RegFile.setLast (f : RegFile Word) (r : RegId) (ws : List Word) : RegFile Word :=
  match ws.getLast? with
  | some w => f.set r w
  | none => f

/-- The record of an operation that answers `OK` with a value (30_encoding.md R136). -/
def answeredOk (value : Word) : Event := .response ⟨.ok, 0, value, 0⟩ []

/-! ### Hart control (43_hart_control.md) -/

/-- The predicate of `haltHart`: bit 9 or bit 8 (R263). -/
def haltSeen (x : Word) : Bool := x.getLsbD 9 || x.getLsbD 8

/-- The predicate of `resumeHart`: bit 17 or bit 16 (R263). -/
def resumeSeen (x : Word) : Bool := x.getLsbD 17 || x.getLsbD 16

/-- The first word a hart operation writes to `dmcontrol` (R260). -/
def selectWord (h : BitVec 20) (x : Word) : Word := (x &&& ~~~0x03FFFFC0) ||| encHart h

/-- The second word, with its request bit (R261, R262, R268). -/
def secondWord (h : BitVec 20) (request k1 : Word) : Word := (k1 &&& 0x3C00003F) ||| encHart h ||| request

/-- The state before the poll of a halt or resume whose two writes were acknowledged with `k1` and `k2`. -/
def hartEvents (h : BitVec 20) (request x k1 k2 : Word) : List Event :=
  [wrote .dmcontrol (selectWord h x) k1, wrote .dmcontrol (secondWord h request k1) k2,
   .engine .hc .issued, .engine .hc .polling]

/-! ### Abstract commands (41_abstract_command.md) -/

/-- `busy` and `cmderr` are both 0 in an `abstractcs` word (R217: a clean shadow). -/
def cleanCommand (x : Word) : Bool := x &&& 0x00001700 == 0

/-- The completion wait of a command reads these words and the command then fails with `x`: every read busy up
to the bound (R207), or the last not busy with a non-zero `cmderr` (R208). -/
def commandFails (limit : Nat) (ws : List Word) (x : Stop) : Prop :=
  match x with
  | .pollTimeout => ws.length = limit ∧ ∀ w ∈ ws, w.getLsbD 12 = true
  | .cmdError c => ws.length ≤ limit ∧ ∃ busy w, ws = busy ++ [w] ∧ (∀ b ∈ busy, b.getLsbD 12 = true) ∧
      w.getLsbD 12 = false ∧ w.extractLsb' 8 3 = c ∧ c ≠ 0
  | .transportError _ | .busError _ => False

/-- The events of issuing a command word and of its completion wait (R206, R207). -/
def commandEvents (word k : Word) (ws : List Word) : List Event :=
  [wrote .command word k, .engine .ac .issued, .engine .ac .polling] ++ polled .abstractcs ws

/-- The row `command.*` that an abstract operation issues, and the value it stages before that (R141, R205). -/
def commandForm? : Instr → Option (Instr × Option Word)
  | .readGpr reg => some (.cmdReadGpr reg, none)
  | .writeGpr reg v => some (.cmdWriteGpr reg, some v)
  | .readFpr reg => some (.cmdReadFpr reg, none)
  | .writeFpr reg v => some (.cmdWriteFpr reg, some v)
  | .readCsr csr => some (.cmdReadCsr csr, none)
  | .writeCsr csr v => some (.cmdWriteCsr csr, some v)
  | _ => none

/-- The value an instruction stages in `data0` before its command (R205); none for the rows `command.*`. -/
def stagedValue? : Instr → Option Word
  | .writeGpr _ v | .writeFpr _ v | .writeCsr _ v => some v
  | _ => none

/-- Is it an access that reads the target register, and its command word (30_encoding.md R141)? -/
def commandWord? : Instr → Option (Bool × Word)
  | .readGpr reg | .cmdReadGpr reg => some (true, 0x00221000 + reg.setWidth 32)
  | .writeGpr reg _ | .cmdWriteGpr reg => some (false, 0x00231000 + reg.setWidth 32)
  | .readFpr reg | .cmdReadFpr reg => some (true, 0x00221020 + reg.setWidth 32)
  | .writeFpr reg _ | .cmdWriteFpr reg => some (false, 0x00231020 + reg.setWidth 32)
  | .readCsr csr | .cmdReadCsr csr => some (true, 0x00220000 + csr.setWidth 32)
  | .writeCsr csr _ | .cmdWriteCsr csr => some (false, 0x00230000 + csr.setWidth 32)
  | _ => none

/-- The state after `v` has been staged in `data0` and acknowledged with `k` (R205). -/
def State.afterStaging (s : State) (v k : Word) (rest : List Answer) : State :=
  { s with
    sh := s.sh.set (.data 0) k
    answers := rest
    events := s.events ++ [wrote (.data 0) v k] }

/-- The read access `i` run at `s`, being at step 3 in `t`, completes (R206 to R209): the script acknowledges the
command word with `k`, shows busy `busy.length` times and then not busy without error, and delivers `v`. -/
def ReadCompletesFrom (i : Instr) (word : Word) (s t : State) : Prop :=
  ∀ (k : Word) (busy : List Word) (c v : Word) (rest : List Answer),
    t.answers = .ok k :: okAll (busy ++ [c]) ++ .ok v :: rest →
    (∀ b ∈ busy, b.getLsbD 12 = true) → cleanCommand c = true → busy.length + 1 ≤ t.pollLimit.toNat →
    exec i s = .next { t with
      sh := ((t.sh.set .command k).set .abstractcs c).set (.data 0) v
      acState := .done
      pollCount := BitVec.ofNat 32 (busy.length + 1)
      answers := rest
      events := t.events ++ commandEvents word k (busy ++ [c]) ++
        [fetched (.data 0) v, .engine .ac .done, answeredOk v] }

/-- The write access `i` run at `s`, being at step 3 in `t`, completes (R206 to R209). -/
def WriteCompletesFrom (i : Instr) (word : Word) (s t : State) : Prop :=
  ∀ (k : Word) (busy : List Word) (c : Word) (rest : List Answer),
    t.answers = .ok k :: okAll (busy ++ [c]) ++ rest →
    (∀ b ∈ busy, b.getLsbD 12 = true) → cleanCommand c = true → busy.length + 1 ≤ t.pollLimit.toNat →
    exec i s = .next { t with
      sh := (t.sh.set .command k).set .abstractcs c
      acState := .done
      pollCount := BitVec.ofNat 32 (busy.length + 1)
      answers := rest
      events := t.events ++ commandEvents word k (busy ++ [c]) ++ [.engine .ac .done, answeredOk 0] }

/-- The access `i` run at `s`, being at step 3 in `t`, fails at its completion wait (R207, R208), and fetches
nothing. -/
def CommandFailsFrom (i : Instr) (word : Word) (s t : State) : Prop :=
  ∀ (k : Word) (ws : List Word) (x : Stop) (rest : List Answer),
    t.answers = .ok k :: okAll ws ++ rest → commandFails t.pollLimit.toNat ws x →
    exec i s = .next { t with
      sh := (t.sh.set .command k).setLast .abstractcs ws
      acState := .failed
      pollCount := BitVec.ofNat 32 ws.length
      answers := rest
      events := t.events ++ commandEvents word k ws ++ [.engine .ac .failed, .response (x.response 0) []] }

/-- The access `i` run at `s` goes on from `t` with steps 3 to 6 (R206 to R209): it completes or fails as the
script after its command word says. -/
def CommandRunsFrom (i : Instr) (isRead : Bool) (word : Word) (s t : State) : Prop :=
  (if isRead then ReadCompletesFrom i word s t else WriteCompletesFrom i word s t) ∧
    CommandFailsFrom i word s t

/-- A read access whose command word is `word` completes. -/
def ReadAccessCompletes (i : Instr) (word : Word) (s : State) : Prop := ReadCompletesFrom i word s s

/-- A write access that stages nothing and whose command word is `word` completes. -/
def WriteAccessCompletes (i : Instr) (word : Word) (s : State) : Prop := WriteCompletesFrom i word s s

/-- A write access that stages `v` and whose command word is `word` completes (R205 to R209). -/
def StagedAccessCompletes (i : Instr) (word v : Word) (s : State) : Prop :=
  ∀ (k : Word) (rest : List Answer), s.answers = .ok k :: rest →
    WriteCompletesFrom i word s (s.afterStaging v k rest)

/-! ### Memory transfers (42_system_bus.md) -/

/-- `sbbusy`, `sberror` and `sbbusyerror` are all 0 in an `sbcs` word (R233). -/
def cleanBus (x : Word) : Bool := x &&& 0x00607000 == 0

/-- The `sbcs` word of a transfer (R234), by its masks. -/
def transferWord (u : Nat) (several isRead : Bool) (x : Word) : Word :=
  (x &&& ~~~0x001F8000) ||| (if isRead then 0x00100000 else 0) |||
    (if u = 4 then 0x00040000 else if u = 2 then 0x00020000 else 0) |||
    (if several then 0x00010000 else 0) ||| (if isRead && several then 0x00008000 else 0)

/-- One wait for the bus that ends well: the busy reads, then a read with `sbbusy` and `sberror` both 0
(R236). -/
structure Wait where
  busy : List Word
  ready : Word
deriving DecidableEq, Repr

/-- The words a wait reads. -/
def Wait.words (w : Wait) : List Word := w.busy ++ [w.ready]

/-- The wait ends well within the bound (R236). -/
def Wait.good (limit : Nat) (w : Wait) : Prop :=
  (∀ b ∈ w.busy, b.getLsbD 21 = true) ∧ w.ready &&& 0x00207000 = 0 ∧ w.words.length ≤ limit

/-- The wait reads these words and the transfer then fails with `x` (R236): every read busy up to the bound, or
the last not busy with a non-zero `sberror`. -/
def busFails (limit : Nat) (ws : List Word) (x : Stop) : Prop :=
  match x with
  | .pollTimeout => ws.length = limit ∧ ∀ w ∈ ws, w.getLsbD 21 = true
  | .busError c => ws.length ≤ limit ∧ ∃ busy w, ws = busy ++ [w] ∧ (∀ b ∈ busy, b.getLsbD 21 = true) ∧
      w.getLsbD 21 = false ∧ w.extractLsb' 12 3 = c ∧ c ≠ 0
  | .transportError _ | .cmdError _ => False

/-- One unit of a transfer: its wait, and the word that crosses with it: for a read the word fetched from
`sbdata0`, for a write the word acknowledged for `sbdata0`. -/
structure UnitRun where
  wait : Wait
  word : Word
deriving DecidableEq, Repr

/-- The events of one wait (R236). -/
def waitEvents (ws : List Word) : List Event := .engine .sb .polling :: polled .sbcs ws

/-- The events of starting a transfer: configuration and address (R234, R235). -/
def startEvents (cfg a k1 k2 : Word) : List Event :=
  [wrote .sbcs cfg k1, .engine .sb .issued, wrote (.sbaddress 0) a k2]

/-- The answers to a unit of a read that is not the last of several (R237). -/
def UnitRun.readAnswers (u : UnitRun) : List Answer := okAll u.wait.words ++ [.ok u.word]

/-- The events of such a unit (R237). -/
def UnitRun.readEvents (u : UnitRun) : List Event :=
  waitEvents u.wait.words ++ [.engine .sb .issued, fetched (.sbdata 0) u.word]

/-- The answers to the last unit of a read; of several units, with the acknowledgement `k3` of the write that
ends the streaming (R245). -/
def UnitRun.lastReadAnswers (several : Bool) (k3 : Word) (u : UnitRun) : List Answer :=
  okAll u.wait.words ++ (if several then [.ok k3] else []) ++ [.ok u.word]

/-- The events of the last unit of a read (R237, R245): only `sbreadondata` of the word the wait read last is
changed. -/
def UnitRun.lastReadEvents (several : Bool) (k3 : Word) (u : UnitRun) : List Event :=
  waitEvents u.wait.words ++
    (if several then [wrote .sbcs (u.wait.ready &&& ~~~0x00008000) k3] else []) ++
    [.engine .sb .issued, fetched (.sbdata 0) u.word]

/-- The answers to one unit of a write (R238). -/
def UnitRun.writeAnswers (u : UnitRun) : List Answer := .ok u.word :: okAll u.wait.words

/-- The events of the units of a write from unit `i` on (R238): unit `i` is packed from the write data
(R232). -/
def writeEvents (data : List Byte) (size : Nat) : Nat → List UnitRun → List Event
  | _, [] => []
  | i, u :: us =>
    wrote (.sbdata 0) (packUnit (fun j => data.getD j 0) i size) u.word :: .engine .sb .issued ::
      waitEvents u.wait.words ++ writeEvents data size (i + 1) us

/-- One entry of the record of a write transfer: is a unit sent and not yet seen finished, and how many have been
(R236, R240)? A unit is sent by an answered write of `sbdata0`, and is seen finished by a read of `sbcs` that shows
`sbbusy` and `sberror` both 0. -/
def seeUnit (seen : Bool × Nat) (e : Event) : Bool × Nat :=
  match e with
  | .cycle (.write a _) (.ok _) => if a = (RegId.sbdata 0).addr then (true, seen.2) else seen
  | .cycle (.read a) (.ok x) =>
    if seen.1 = true ∧ a = RegId.sbcs.addr ∧ x &&& 0x00207000 = 0 then (false, seen.2 + 1) else seen
  | _ => seen

/-- The units whose bus write was seen finished without error, read off the record (R240). -/
def unitsFinished (es : List Event) : Nat := (es.foldl seeUnit (false, 0)).2

/-- The bytes a read delivers (R232). -/
def delivered (size : Nat) (words : List Word) : List Byte := words.flatMap fun x => unpackUnit x size

/-! ### Invariants and the laws of the record -/

/-- The state block reset leaves (70_reset_and_hazards.md R341), element by element of 10_state.md R20. -/
def State.afterReset (s : State) : Prop :=
  (∀ r, s.shadow r = if r = .dmstatus then 0x00000002 else if r = .sbcs then 0x20040000 else 0) ∧
  s.acState = .idle ∧ s.sbState = .idle ∧ s.hcState = .idle ∧ s.pollCount = 0 ∧ s.unitIdx = 0 ∧
  s.pollLimit = Config.pollLimitReset ∧ 1 ≤ s.pollLimit.toNat ∧ ∀ r, s.pretty.get r = false

/-- An engine state register that is at rest (10_state.md R28). -/
def EngineState.resting : EngineState → Bool
  | .idle | .done | .failed => true
  | .issued | .polling => false

/-- No engine is in `Issued` or `Polling` (R28). -/
def State.quiet (s : State) : Prop := ∀ e, (s.engineState e).resting = true

/-- Every access on record drives the address of one of the 54 registers (20_memory.md R102). -/
def State.addressed (s : State) : Prop := ∀ a ∈ accessesOf s.events, a.drives (fun _ => true) = true

/-- The values `ac_state` takes during an abstract command, or `hc_state` during a halt or resume (R216, R264):
failed before anything was issued, or issued, polled and then done or failed. -/
def legalEngineRun : List EngineState → Bool
  | [.failed] | [.issued, .polling, .done] | [.issued, .polling, .failed] => true
  | _ => false

end Sys2Proof.Machine
end

