-- ==== Sys2Proof/Certificates/Slice0/Obligations.lean ====
section
/-!
DEFINITION. The statements for the provers, in the order of OBLIGATIONS.json. R<n> is a numbered rule of spec/; "log
<n>" is notes/assumptions/<n>.md.
-/

open Sys2Proof Sys2Proof.Machine

/-! ### The step and the reset input -/

/-- O1. A step at which a request word is presented and decodes to `i` is `exec i` at the state with the request
taken off the inputs and its write data on the port; and `i` is well formed (R4, R26, R130). How requests reach
the port is the model's (log 3, log 4). -/
def Obligations.StepRunsTheDecodedRequest : Prop :=
  ∀ (s : State) (word : BitVec 96) (data : List Byte) (rest : List Input) (i : Instr),
    s.inputs = .request word data :: rest → decodeRequest word = .ok i →
    i.wf = true ∧ step s = exec i { s with inputs := rest, wdata := data }

/-- O2. A step at which a command word stands in the issue slot and decodes to `i` is `exec i` at the state with
the word taken off. The issue slot is the model's way to run the rows `command.*` (log 5). -/
def Obligations.StepRunsTheDecodedCommandWord : Prop :=
  ∀ (s : State) (word : Word) (rest : List Input) (i : Instr),
    s.inputs = .command word :: rest → decodeCommand word = .ok i →
    i.wf = true ∧ step s = exec i { s with inputs := rest, wdata := [] }

/-- O3. With nothing presented the block waits, unchanged. That a waiting step is a next state is the model's
choice (log 4). -/
def Obligations.StepWaitsWithNothingPresented : Prop :=
  ∀ s : State, s.inputs = [] → step s = .next s

/-- O4. A request word that is not a valid encoding (R139, R134) answers `REFUSED` with every other field 0:
no warning, no access, no change of any state (R309). -/
def Obligations.StepRefusesInvalidRequests : Prop :=
  ∀ (s : State) (word : BitVec 96) (data : List Byte) (rest : List Input),
    s.inputs = .request word data :: rest → validRequest word = false →
    step s = .next { s with
      inputs := rest
      wdata := data
      events := s.events ++ [.response ⟨.refused, 0, 0, 0⟩ []] }

/-- O5. The words the decoder accepts are exactly the valid ones: a row of R132, its unused fields zero (R139),
its designator valid by R134, checked against the tables of R133 and R63 to R84 written out apart from the
decoder. -/
def Obligations.DecoderAcceptsTheValidRequests : Prop :=
  ∀ word : BitVec 96, validRequest word = true ↔ ∃ i, decodeRequest word = .ok i

/-- O6. When the reset input is asserted every state element takes the value of R341 and no access is made
(R340, R342). -/
def Obligations.BlockResetRestoresEveryElement : Prop :=
  ∀ (s : State) (rest : List Input), s.inputs = .reset :: rest →
    ∃ t, step s = .next t ∧ t.afterReset ∧ t.inputs = rest ∧ t.answers = s.answers ∧ t.events = s.events

/-- O7. The state after reset holds the values of R341. -/
def Obligations.ResetStateHasTheResetValues : Prop := State.reset.afterReset

/-- O8. A request the reset input ends is never answered (R340): the state is as after reset, no response is
added, and what had left the block before, an initial part of what the whole request would have recorded, stands.
Where in the request it ends is the input's (log 8). -/
def Obligations.AbandonedRequestIsNeverAnswered : Prop :=
  ∀ (s : State) (word : BitVec 96) (data : List Byte) (k : Nat) (rest : List Input),
    s.inputs = .abandoned word data k :: rest →
    ∃ t es, step s = .next t ∧ t.afterReset ∧ t.inputs = rest ∧ t.events = s.events ++ es ∧
      responsesOf es = [] ∧ t.answers = s.answers.drop (accessesOf es).length ∧
      ∃ u kept lost, step { s with inputs := .request word data :: rest } = .next u ∧
        u.events = s.events ++ (kept ++ lost) ∧ es = kept.filter (fun e => !e.isResponse) ∧
        (kept.length = k ∨ (lost = [] ∧ kept.length ≤ k))

/-! ### Encoding -/

/-- O9. Decoding the encoding of a well-formed instruction gives it back, with every operand at every value
(R131, R132, R141). -/
def Obligations.DecodeOfEncode : Prop := ∀ i : Instr, i.wf = true → decode (encode i) = .ok i

/-- O10. A word that decodes is the encoding of what it decodes to, which is well formed: no word has a second
meaning and no bit of a word is dropped (R139, R143). -/
def Obligations.EncodeOfDecode : Prop :=
  ∀ (e : Encoded) (i : Instr), decode e = .ok i → encode i = e ∧ i.wf = true

/-- O11. No word carries the fixed bits of two rows of its width (R132, R141). -/
def Obligations.OpcodeRowsAreDisjoint : Prop :=
  opcodeTable.Pairwise fun a b =>
    a.width = b.width → ∀ w : Nat, ¬ (a.matchesWord w = true ∧ b.matchesWord w = true)

/-- O12. A word that decodes carries the fixed bits of the row of its mnemonic (R132, R141). -/
def Obligations.DecodedWordsCarryTheirRow : Prop :=
  ∀ (nbits w : Nat) (i : Instr), decodeTableWord nbits w = some i →
    ∃ row ∈ opcodeTable, row.mnemonic = i.mnemonic ∧ row.width = nbits ∧
      row.matchesWord (w % 2 ^ nbits) = true

/-- O13. Words written out from R131, R132 and R141 decode to the instructions they stand for. -/
def Obligations.SampleWordsDecode : Prop :=
  decodeRequest 0x010003000000000000000000 = .ok (.read .data 3) ∧
  decodeRequest 0x0504000F0000000000000008 = .ok (.set .sbcs 0 4 8) ∧
  decodeRequest 0x070000000000000000012345 = .ok (.setHartsel 0x12345) ∧
  decodeRequest 0x0F00000F0000000000000001 = .ok (.setPretty .sbcs 0 true) ∧
  decodeRequest 0x210123450000000000000000 = .ok (.haltHart 0x12345) ∧
  decodeRequest 0x3100000A00000000CAFEF00D = .ok (.writeGpr 10 0xCAFEF00D) ∧
  decodeRequest 0x340007B10000000000000000 = .ok (.readCsr 0x7B1) ∧
  decodeRequest 0x400000000000100000000010 = .ok (.readMem 0x1000 16) ∧
  decodeCommand 0x0023103F = .ok (.cmdWriteFpr 31) ∧
  decodeCommand 0x002207B1 = .ok (.cmdReadCsr 0x7B1)

/-! ### Primitive operations -/

/-- O14. `read R` (R160): out of range, one `W_INDEX`, `OK`, nothing else; else one transport read, whose word
becomes the whole shadow, or whose error ends the operation with the shadow unchanged. -/
def Obligations.ReadOperation : Prop :=
  ∀ (n : RegName) (idx : BitVec 8) (s : State),
    (n.isArray = true → n.size ≤ idx.toNat →
      exec (.read n idx) s = .next { s with
        events := s.events ++ [.warning (.index n.aid idx), answeredOk 0] }) ∧
    (∀ r x, n.resolve idx = some r → s.answerTo (.read r.addr) = .ok x →
      exec (.read n idx) s = .next { s with
        sh := s.sh.set r x
        answers := s.answers.tail
        events := s.events ++ [.cycle (.read r.addr) (.ok x), answeredOk 0] }) ∧
    (∀ r e, n.resolve idx = some r → s.answerTo (.read r.addr) = .err e →
      exec (.read n idx) s = .next { s with
        answers := s.answers.tail
        events := s.events ++ [.cycle (.read r.addr) (.err e),
          .response ⟨.transportError, 0, BitVec.ofNat 32 e, 0⟩ []] })

/-- O15. `write R` (R161): out of range, one `W_INDEX`, `OK`, nothing else; else one transport write of the
shadow as it stands, whose acknowledgement becomes the shadow, or whose error ends the operation with the shadow
unchanged. -/
def Obligations.WriteOperation : Prop :=
  ∀ (n : RegName) (idx : BitVec 8) (s : State),
    (n.isArray = true → n.size ≤ idx.toNat →
      exec (.write n idx) s = .next { s with
        events := s.events ++ [.warning (.index n.aid idx), answeredOk 0] }) ∧
    (∀ r k, n.resolve idx = some r → s.answerTo (.write r.addr (s.shadow r)) = .ok k →
      exec (.write n idx) s = .next { s with
        sh := s.sh.set r k
        answers := s.answers.tail
        events := s.events ++ [.cycle (.write r.addr (s.shadow r)) (.ok k), answeredOk 0] }) ∧
    (∀ r e, n.resolve idx = some r → s.answerTo (.write r.addr (s.shadow r)) = .err e →
      exec (.write n idx) s = .next { s with
        answers := s.answers.tail
        events := s.events ++ [.cycle (.write r.addr (s.shadow r)) (.err e),
          .response ⟨.transportError, 0, BitVec.ofNat 32 e, 0⟩ []] })

/-- O16. `reset R` (R162): out of range, one `W_INDEX`, `OK`, nothing else; else the shadow takes the reset
constant of R62 and no access is made. -/
def Obligations.ResetRegisterOperation : Prop :=
  ∀ (n : RegName) (idx : BitVec 8) (s : State),
    (n.isArray = true → n.size ≤ idx.toNat →
      exec (.reset n idx) s = .next { s with
        events := s.events ++ [.warning (.index n.aid idx), answeredOk 0] }) ∧
    (∀ r, n.resolve idx = some r →
      exec (.reset n idx) s = .next { s with
        sh := s.sh.set r (if r = .dmstatus then 0x00000002 else if r = .sbcs then 0x20040000 else 0)
        events := s.events ++ [answeredOk 0] })

/-- O17. The array index check of R165, in all six operations that make it: one `W_INDEX`, no access, no change
of state, `OK` with value 0; and a name with an index resolves exactly when the index is in range (a scalar has
one instance). -/
def Obligations.OutOfRangeIndex : Prop :=
  (∀ (n : RegName) (idx : BitVec 8), (n.resolve idx).isSome = true ↔ idx.toNat < n.size) ∧
  ∀ (n : RegName) (idx fid : BitVec 8) (v : Word) (b : Bool) (s : State) (i : Instr),
    n.isArray = true → n.size ≤ idx.toNat → i.wf = true →
    i ∈ [Instr.read n idx, .write n idx, .reset n idx, .get n idx fid, .set n idx fid v,
      .setPretty n idx b] →
    exec i s = .next { s with events := s.events ++ [.warning (.index n.aid idx), answeredOk 0] }

/-- O18. `get R.f` of a field with a plain getter (R163, R22): the value is the field's bits of the shadow,
zero-extended; nothing but the response happens. -/
def Obligations.GetOperation : Prop :=
  ∀ (n : RegName) (idx fid : BitVec 8) (f : Field) (r : RegId) (s : State),
    n.field? fid = some f → n.resolve idx = some r → f.acc ∈ [Acc.getter, .getSet, .getClear] →
    ∃ value : Word,
      (∀ j, value.getLsbD j = (decide (j < f.width) && (s.shadow r).getLsbD (f.off + j))) ∧
      exec (.get n idx fid) s = .next { s with events := s.events ++ [answeredOk value] }

/-- O19. `set R.f, v` of a field with a setter (R164, R22): exactly the field's bits of the shadow take the low
bits of `v`; one `W_TRUNC` exactly when `v` does not fit; no access; `OK`. That `command.control` takes bit 23 while
`cmdtype` is 0 too is the model's choice (log 18): R164 and R22 give the setter every bit of the field, and R89 counts
that bit among those no accessor writes. -/
def Obligations.SetOperation : Prop :=
  ∀ (n : RegName) (idx fid : BitVec 8) (v : Word) (f : Field) (r : RegId) (s : State),
    n.field? fid = some f → n.resolve idx = some r → f.acc = .getSet →
    ∃ word : Word,
      (∀ j, word.getLsbD j =
        if f.off ≤ j ∧ j < f.off + f.width then v.getLsbD (j - f.off) else (s.shadow r).getLsbD j) ∧
      exec (.set n idx fid v) s = .next { s with
        sh := s.sh.set r word
        events := s.events ++
          (if f.width < 32 ∧ 2 ^ f.width ≤ v.toNat then [.warning (.trunc n.aid idx fid v)] else []) ++
          [answeredOk 0] }

/-- O20. The five unimplemented accessor pairs (R85, R166): `get` answers 0 whatever the shadow is and `set`
changes nothing whatever `v` is; each with one `W_UNIMPL` and no `W_TRUNC`. -/
def Obligations.UnimplementedAccessors : Prop :=
  ∀ (n : RegName) (fid : BitVec 8) (v : Word) (s : State),
    (n, fid) ∈ [(RegName.dmcontrol, (2 : BitVec 8)), (.dmcontrol, 4), (.dmcontrol, 7), (.dmcontrol, 8),
      (.authdata, 0)] →
    exec (.get n 0 fid) s = .next { s with events := s.events ++ [.warning (.unimpl n.aid fid), answeredOk 0] } ∧
    exec (.set n 0 fid v) s = .next { s with
      events := s.events ++ [.warning (.unimpl n.aid fid), answeredOk 0] }

/-- O21. The derived getters of `dmstatus` (R88, R173): fields 18 and 19 answer the OR of the two bits. -/
def Obligations.DerivedGetters : Prop :=
  ∀ s : State,
    exec (.get .dmstatus 0 18) s = .next { s with
      events := s.events ++ [answeredOk (if haltSeen (s.shadow .dmstatus) then 1 else 0)] } ∧
    exec (.get .dmstatus 0 19) s = .next { s with
      events := s.events ++ [answeredOk (if resumeSeen (s.shadow .dmstatus) then 1 else 0)] }

/-- O22. `getHartsel` (R167), `setHartsel` (R168) and `hartselMax` (R169), in bits: the low half of the index
stands in bits 25:16 of `dmcontrol`, the high half in bits 15:6. -/
def Obligations.HartselHelpers : Prop :=
  ∀ (v : Word) (s : State),
    exec .getHartsel s = .next { s with
      events := s.events ++ [answeredOk
        (((s.shadow .dmcontrol).extractLsb' 6 10 ++ (s.shadow .dmcontrol).extractLsb' 16 10).setWidth 32)] } ∧
    exec (.setHartsel v) s = .next { s with
      sh := s.sh.set .dmcontrol (((s.shadow .dmcontrol) &&& 0xFC00003F) |||
        ((v.extractLsb' 0 10).setWidth 32 <<< 16) ||| ((v.extractLsb' 10 10).setWidth 32 <<< 6))
      events := s.events ++ (if 2 ^ 20 ≤ v.toNat then [.warning (.trunc 1 0 5 v)] else []) ++
        [answeredOk 0] } ∧
    exec .hartselMax s = .next { s with
      sh := s.sh.set .dmcontrol (s.shadow .dmcontrol ||| 0x03FFFFC0)
      events := s.events ++ [answeredOk 0] }

/-- O23. `getHartsel` after `setHartsel v` answers `v mod 2^20` (R135, R174 (f)). -/
def Obligations.SetHartselThenGetHartsel : Prop :=
  ∀ (v : Word) (s : State), ∃ t u w,
    exec (.setHartsel v) s = .next t ∧ exec .getHartsel t = .next u ∧
    u.events = t.events ++ [answeredOk w] ∧ w.toNat = v.toNat % 2 ^ 20

/-- O24. The clear mutators (R170 to R172): a local OR of all-ones into the sticky field, no access, no warning;
until the next read or write the getter answers all-ones. -/
def Obligations.ClearMutators : Prop :=
  ∀ s : State,
    (∃ t, exec .cmderrClear s = .next t ∧ t = { s with
        sh := s.sh.set .abstractcs (s.shadow .abstractcs ||| 0x00000700)
        events := s.events ++ [answeredOk 0] } ∧
      exec (.get .abstractcs 0 2) t = .next { t with events := t.events ++ [answeredOk 7] }) ∧
    (∃ t, exec .sberrorClear s = .next t ∧ t = { s with
        sh := s.sh.set .sbcs (s.shadow .sbcs ||| 0x00007000)
        events := s.events ++ [answeredOk 0] } ∧
      exec (.get .sbcs 0 7) t = .next { t with events := t.events ++ [answeredOk 7] }) ∧
    (∃ t, exec .sbbusyerrorClear s = .next t ∧ t = { s with
        sh := s.sh.set .sbcs (s.shadow .sbcs ||| 0x00400000)
        events := s.events ++ [answeredOk 0] } ∧
      exec (.get .sbcs 0 1) t = .next { t with events := t.events ++ [answeredOk 1] })

/-- O25. The reserved bits of each register (R89) are 0 after reset (R62), and every accessor but the setter of
`command.control` keeps them in every register (R22): the setters, the hart selection helpers and the clear
mutators. The exception is the model's choice (log 18): R89 counts bit 23 of `command` as reserved while `cmdtype` is
0, and R72 and R164 let the setter of `control` write it. -/
def Obligations.AccessorsKeepReservedBits : Prop :=
  (∀ (n : RegName) (x : Word), n.reserved x =
    match n with
    | .dmcontrol => 0x08000030
    | .dmstatus => 0xFFB00000
    | .hartinfo => 0xFF0E0000
    | .hawindowsel => 0xFFFF8000
    | .abstractcs => 0xE0FFE8F0
    | .command => if x.extractLsb' 24 8 = 0 then 0x00800000 else 0
    | .abstractauto => 0x0000F000
    | .sbcs => 0x1F800000
    | _ => 0) ∧
  (∀ r, State.reset.shadow r &&& r.name.reserved (State.reset.shadow r) = 0) ∧
  (∀ (i : Instr) (s t : State) (r : RegId) (n : RegName) (idx fid : BitVec 8) (v : Word),
    i ∈ [Instr.set n idx fid v, .setHartsel v, .hartselMax, .cmderrClear, .sberrorClear,
      .sbbusyerrorClear] →
    (∀ idx' v', i ≠ .set .command idx' 1 v') → exec i s = .next t →
    t.shadow r &&& r.name.reserved (s.shadow r) = s.shadow r &&& r.name.reserved (s.shadow r)) ∧
  ∀ (v : Word) (s : State), ∃ t, exec (.set .command 0 1 v) s = .next t ∧
    t.shadow .command = (s.shadow .command &&& 0xFF000000) ||| (v &&& 0x00FFFFFF) ∧
    ∀ r, r ≠ .command → t.shadow r = s.shadow r

/-! ### System operations -/

/-- O26. `dtmReset` (R280): one `TransportReset`, `OK`, no state of the block changes. -/
def Obligations.DtmResetOperation : Prop :=
  ∀ s : State, exec .dtmReset s = .next { s with
    events := s.events ++ [.transportReset, answeredOk 0] }

/-- O27. `setPollLimit` and `getPollLimit` (R281, R282): every value is accepted as the new `POLL_LIMIT`, 0 too;
`getPollLimit` answers `POLL_LIMIT` and changes nothing. -/
def Obligations.PollLimitOperations : Prop :=
  ∀ (v : Word) (s : State),
    exec (.setPollLimit v) s = .next { s with
      pollLimit := v
      events := s.events ++ [answeredOk 0] } ∧
    exec .getPollLimit s = .next { s with events := s.events ++ [answeredOk s.pollLimit] }

/-- O28. `setPretty R, b` (R283): out of range, one `W_INDEX`, `OK`, nothing else; else the formatting mode of
that one register instance. -/
def Obligations.SetPrettyOperation : Prop :=
  ∀ (n : RegName) (idx : BitVec 8) (b : Bool) (s : State),
    (n.isArray = true → n.size ≤ idx.toNat →
      exec (.setPretty n idx b) s = .next { s with
        events := s.events ++ [.warning (.index n.aid idx), answeredOk 0] }) ∧
    (∀ r, n.resolve idx = some r →
      exec (.setPretty n idx b) s = .next { s with
        pretty := s.pretty.set r b
        events := s.events ++ [answeredOk 0] })

/-- O29. The formatting modes influence no response, no warning and no access (R284): from two states that differ
in them alone, every instruction does the same, and but for `setPretty` keeps them. -/
def Obligations.PrettyInfluencesNothing : Prop :=
  ∀ (i : Instr) (s t : State) (p : RegFile Bool), exec i s = .next t →
    ∃ q, exec i { s with pretty := p } = .next { t with pretty := q } ∧
      ((∀ n idx b, i ≠ .setPretty n idx b) → q = p ∧ t.pretty = s.pretty)

/-! ### Hart control -/

/-- O30. `selectHart h` (R260): one transport write of `dmcontrol` with the `hartsel` bits replaced by those of
`h`; the acknowledgement becomes the shadow; a transport error leaves the new word in the shadow. No engine state
changes. -/
def Obligations.SelectHartOperation : Prop :=
  ∀ (h : BitVec 20) (s : State),
    let word := (s.shadow .dmcontrol &&& 0xFC00003F) ||| ((h.extractLsb' 0 10).setWidth 32 <<< 16) |||
      ((h.extractLsb' 10 10).setWidth 32 <<< 6)
    (∀ k, s.answerTo (.write 0x10 word) = .ok k →
      exec (.selectHart h) s = .next { s with
        sh := s.sh.set .dmcontrol k
        answers := s.answers.tail
        events := s.events ++ [.cycle (.write 0x10 word) (.ok k), answeredOk 0] }) ∧
    (∀ e, s.answerTo (.write 0x10 word) = .err e →
      exec (.selectHart h) s = .next { s with
        sh := s.sh.set .dmcontrol word
        answers := s.answers.tail
        events := s.events ++ [.cycle (.write 0x10 word) (.err e),
          .response ⟨.transportError, 0, BitVec.ofNat 32 e, 0⟩ []] })

/-- O31. `haltHart` and `resumeHart` complete (R261, R262, R267, R268): two writes of `dmcontrol`, the second with
the request bit, then the reads of `dmstatus` up to the first that shows the flag: `N + 1` reads after `N` that do
not. -/
def Obligations.HaltAndResumeComplete : Prop :=
  ∀ (h : BitVec 20) (s : State) (k1 k2 w : Word) (ws : List Word) (rest : List Answer),
    s.answers = .ok k1 :: .ok k2 :: okAll (ws ++ [w]) ++ rest → ws.length + 1 ≤ s.pollLimit.toNat →
    ((∀ x ∈ ws, haltSeen x = false) → haltSeen w = true →
      exec (.haltHart h) s = .next { s with
        sh := (s.sh.set .dmcontrol k2).set .dmstatus w
        hcState := .done
        pollCount := BitVec.ofNat 32 (ws.length + 1)
        answers := rest
        events := s.events ++ hartEvents h 0x80000000 (s.shadow .dmcontrol) k1 k2 ++
          polled .dmstatus (ws ++ [w]) ++ [.engine .hc .done, answeredOk 0] }) ∧
    ((∀ x ∈ ws, resumeSeen x = false) → resumeSeen w = true →
      exec (.resumeHart h) s = .next { s with
        sh := (s.sh.set .dmcontrol k2).set .dmstatus w
        hcState := .done
        pollCount := BitVec.ofNat 32 (ws.length + 1)
        answers := rest
        events := s.events ++ hartEvents h 0x40000000 (s.shadow .dmcontrol) k1 k2 ++
          polled .dmstatus (ws ++ [w]) ++ [.engine .hc .done, answeredOk 0] })

/-- O32. `haltHart` and `resumeHart` time out (R261, R262, R267, R305): `POLL_LIMIT` reads, none showing the flag,
end in `POLL_TIMEOUT` with `hc_state` = `Failed`; a limit of 0 makes no read at all. -/
def Obligations.HaltAndResumeTimeOut : Prop :=
  ∀ (h : BitVec 20) (s : State) (k1 k2 : Word) (ws : List Word) (rest : List Answer),
    s.answers = .ok k1 :: .ok k2 :: okAll ws ++ rest → ws.length = s.pollLimit.toNat →
    ((∀ x ∈ ws, haltSeen x = false) →
      exec (.haltHart h) s = .next { s with
        sh := (s.sh.set .dmcontrol k2).setLast .dmstatus ws
        hcState := .failed
        pollCount := s.pollLimit
        answers := rest
        events := s.events ++ hartEvents h 0x80000000 (s.shadow .dmcontrol) k1 k2 ++
          polled .dmstatus ws ++ [.engine .hc .failed, .response ⟨.pollTimeout, 0, 0, 0⟩ []] }) ∧
    ((∀ x ∈ ws, resumeSeen x = false) →
      exec (.resumeHart h) s = .next { s with
        sh := (s.sh.set .dmcontrol k2).setLast .dmstatus ws
        hcState := .failed
        pollCount := s.pollLimit
        answers := rest
        events := s.events ++ hartEvents h 0x40000000 (s.shadow .dmcontrol) k1 k2 ++
          polled .dmstatus ws ++ [.engine .hc .failed, .response ⟨.pollTimeout, 0, 0, 0⟩ []] })

/-! ### Abstract commands -/

/-- O33. `readGpr`, `readFpr` and `readCsr` complete from a clean shadow (R210, R212, R214, R217): the command
word, the reads of `abstractcs` up to the first not busy, then the value from `data0`. -/
def Obligations.RegisterReadsComplete : Prop :=
  ∀ s : State, cleanCommand (s.shadow .abstractcs) = true →
    (∀ reg : BitVec 5, ReadAccessCompletes (.readGpr reg) (0x00221000 + reg.setWidth 32) s) ∧
    (∀ reg : BitVec 5, ReadAccessCompletes (.readFpr reg) (0x00221020 + reg.setWidth 32) s) ∧
    (∀ csr : BitVec 12, ReadAccessCompletes (.readCsr csr) (0x00220000 + csr.setWidth 32) s)

/-- O34. `writeGpr`, `writeFpr` and `writeCsr` complete from a clean shadow (R211, R213, R215, R217): the value to
`data0`, the command word, the reads of `abstractcs` up to the first not busy. -/
def Obligations.RegisterWritesComplete : Prop :=
  ∀ s : State, cleanCommand (s.shadow .abstractcs) = true →
    (∀ (reg : BitVec 5) (v : Word),
      StagedAccessCompletes (.writeGpr reg v) (0x00231000 + reg.setWidth 32) v s) ∧
    (∀ (reg : BitVec 5) (v : Word),
      StagedAccessCompletes (.writeFpr reg v) (0x00231020 + reg.setWidth 32) v s) ∧
    (∀ (csr : BitVec 12) (v : Word),
      StagedAccessCompletes (.writeCsr csr v) (0x00230000 + csr.setWidth 32) v s)

/-- O35. The six command words complete from a clean shadow (R141, R206 to R209). What a row `command.*` means is
the model's choice: the engine run with that word to issue (log 5). -/
def Obligations.CommandWordsComplete : Prop :=
  ∀ s : State, cleanCommand (s.shadow .abstractcs) = true →
    (∀ reg : BitVec 5, ReadAccessCompletes (.cmdReadGpr reg) (0x00221000 + reg.setWidth 32) s) ∧
    (∀ reg : BitVec 5, ReadAccessCompletes (.cmdReadFpr reg) (0x00221020 + reg.setWidth 32) s) ∧
    (∀ csr : BitVec 12, ReadAccessCompletes (.cmdReadCsr csr) (0x00220000 + csr.setWidth 32) s) ∧
    (∀ reg : BitVec 5, WriteAccessCompletes (.cmdWriteGpr reg) (0x00231000 + reg.setWidth 32) s) ∧
    (∀ reg : BitVec 5, WriteAccessCompletes (.cmdWriteFpr reg) (0x00231020 + reg.setWidth 32) s) ∧
    (∀ csr : BitVec 12, WriteAccessCompletes (.cmdWriteCsr csr) (0x00230000 + csr.setWidth 32) s)

/-- O36. An abstract operation does what the row of its command word does (R202): a read access from every state; a
write access, from a clean shadow, after its staging (R203, R204, R205: step 1 makes no access). What a row
`command.*` means is the model's choice: the engine run with that word to issue, nothing staged (log 5). -/
def Obligations.CleanOperationIsItsCommand : Prop :=
  ∀ (i c : Instr) (s : State),
    (commandForm? i = some (c, none) → exec i s = exec c s) ∧
    (∀ v k rest, commandForm? i = some (c, some v) → cleanCommand (s.shadow .abstractcs) = true →
      s.answers = .ok k :: rest → exec i s = exec c (s.afterStaging v k rest))

/-- O37. From a clean shadow the six abstract operations, after the staging of a write, fail at the completion wait
of their command (R207, R208, R302, R305): `CMD_ERROR` with the raw code of the word that showed not busy, or
`POLL_TIMEOUT` after `POLL_LIMIT` busy reads; no result is fetched and `ac_state` = `Failed`. The six rows
`command.*` fail so too; what they mean is the model's choice (log 5). -/
def Obligations.CommandsFail : Prop :=
  ∀ (i : Instr) (isRead : Bool) (word : Word) (s : State),
    commandWord? i = some (isRead, word) → cleanCommand (s.shadow .abstractcs) = true →
    (stagedValue? i = none → CommandFailsFrom i word s s) ∧
    (∀ v k rest, stagedValue? i = some v → s.answers = .ok k :: rest →
      CommandFailsFrom i word s (s.afterStaging v k rest))

/-- O38. A stale `busy` in the shadow is waited out with one bounded poll before anything else (R203, R218): the
operation then goes on as from the state the poll leaves; if the poll expires it ends with `POLL_TIMEOUT` and no
command is issued. So too for the six rows `command.*`; what they mean is the model's choice (log 5). -/
def Obligations.StaleBusyIsWaitedOut : Prop :=
  ∀ (i : Instr) (isRead : Bool) (word : Word) (s : State) (ws : List Word) (rest : List Answer),
    commandWord? i = some (isRead, word) → (s.shadow .abstractcs).getLsbD 12 = true →
    (∀ b ∈ ws, b.getLsbD 12 = true) →
    (∀ w, s.answers = okAll (ws ++ [w]) ++ rest → w.getLsbD 12 = false →
      ws.length + 1 ≤ s.pollLimit.toNat →
      exec i s = exec i { s with
        sh := s.sh.set .abstractcs w
        pollCount := BitVec.ofNat 32 (ws.length + 1)
        answers := rest
        events := s.events ++ polled .abstractcs (ws ++ [w]) }) ∧
    (s.answers = okAll ws ++ rest → ws.length = s.pollLimit.toNat →
      exec i s = .next { s with
        sh := s.sh.setLast .abstractcs ws
        acState := .failed
        pollCount := s.pollLimit
        answers := rest
        events := s.events ++ polled .abstractcs ws ++
          [.engine .ac .failed, .response ⟨.pollTimeout, 0, 0, 0⟩ []] })

/-- O39. A stale `cmderr` in the shadow is cleared before the command (R204): all-ones written, read back, and the
result not tested: whatever the read gave, the operation goes on with staging and its command word and completes or
fails as the answers after that say. So too for the six rows `command.*`; what they mean is the model's choice
(log 5). -/
def Obligations.StaleCmderrIsCleared : Prop :=
  ∀ (i : Instr) (isRead : Bool) (word : Word) (s : State) (k w : Word) (rest : List Answer),
    commandWord? i = some (isRead, word) →
    (s.shadow .abstractcs).getLsbD 12 = false → (s.shadow .abstractcs).extractLsb' 8 3 ≠ 0 →
    s.answers = .ok k :: .ok w :: rest →
    let t : State := { s with
      sh := s.sh.set .abstractcs w
      answers := rest
      events := s.events ++ [wrote .abstractcs (s.shadow .abstractcs ||| 0x00000700) k,
        fetched .abstractcs w] }
    (stagedValue? i = none → CommandRunsFrom i isRead word s t) ∧
    (∀ v k' rest', stagedValue? i = some v → rest = .ok k' :: rest' →
      CommandRunsFrom i isRead word s (t.afterStaging v k' rest'))

/-- O40. Whatever the state and the answers, an abstract operation writes to `command` no word but its own of
R141, and writes it at most once. -/
def Obligations.OnlyItsCommandWord : Prop :=
  ∀ (i : Instr) (isRead : Bool) (word : Word) (s t : State) (es : List Event),
    commandWord? i = some (isRead, word) → exec i s = .next t → t.events = s.events ++ es →
    wordsSent .command es = [] ∨ wordsSent .command es = [word]

/-- O41. The values `ac_state` takes during an abstract command, and `hc_state` during a halt or resume, are those
of the tables of R216 and R264: failed with nothing issued, or issued, polling, then done or failed; and the last
is the value the register keeps. -/
def Obligations.EngineTransitions : Prop :=
  ∀ (i : Instr) (en : Engine) (s t : State) (es : List Event),
    i.engine? = some en → en ≠ .sb → exec i s = .next t → t.events = s.events ++ es →
    legalEngineRun (engineTrace en es) = true ∧ (engineTrace en es).getLast? = some (t.engineState en)

/-! ### Memory transfers -/

/-- O42. Unit selection (R231): the largest of 4, 2, 1 that divides both the address and the length; the number of
units times the unit size is the length, exactly. -/
def Obligations.UnitSelection : Prop :=
  ∀ a len : Word,
    unitSize a len ∈ [1, 2, 4] ∧ unitSize a len ∣ a.toNat ∧ unitSize a len ∣ len.toNat ∧
    (∀ u ∈ [1, 2, 4], u ∣ a.toNat → u ∣ len.toNat → u ≤ unitSize a len) ∧
    unitCount a len * unitSize a len = len.toNat ∧ 2 ^ (unitCode (unitSize a len)).toNat = unitSize a len

/-- O43. Packing and unpacking (R232, R108): byte `j` of a unit stands in bits `8j+7:8j`, with zeros above, and
unpacking gives the bytes of the unit back. -/
def Obligations.PackingIsLittleEndian : Prop :=
  ∀ (buf : Nat → Byte) (i u : Nat), u ≤ 4 →
    (∀ j, (packUnit buf i u).getLsbD j = (decide (j < 8 * u) && (buf (i * u + j / 8)).getLsbD (j % 8))) ∧
    unpackUnit (packUnit buf i u) u = (List.range u).map fun j => buf (i * u + j)

/-- O44. A transfer of no byte (R243): no access, no shadow changed, `unit_idx` 0, `sb_state` `Done`, `OK` with
`count` 0, whatever `sbcs` shows. -/
def Obligations.ZeroLengthTransfers : Prop :=
  ∀ (a : Word) (s : State),
    exec (.readMem a 0) s = .next { s with
      sbState := .done, unitIdx := 0, rdata := []
      events := s.events ++ [.engine .sb .done, .response ⟨.ok, 0, 0, 0⟩ []] } ∧
    exec (.writeMem a 0) s = .next { s with
      sbState := .done, unitIdx := 0, rdata := []
      events := s.events ++ [.engine .sb .done, .response ⟨.ok, 0, 0, 0⟩ []] }

/-- O45. `readMem` completes from a clean shadow (R233 to R237, R245): configuration, address, then for each unit
its wait and its fetch, with the streaming ended before the last fetch of several; the bytes of the fetched words
are the read data and `count` is the number of units. -/
def Obligations.ReadMemCompletes : Prop :=
  ∀ (a len : Word) (s : State) (k1 k2 k3 : Word) (first : List UnitRun) (last : UnitRun)
    (rest : List Answer),
    let u := unitSize a len
    let several := decide (1 < unitCount a len)
    let words := (first ++ [last]).map UnitRun.word
    cleanBus (s.shadow .sbcs) = true → unitCount a len = first.length + 1 →
    (∀ r ∈ first ++ [last], r.wait.good s.pollLimit.toNat) →
    s.answers = .ok k1 :: .ok k2 :: first.flatMap UnitRun.readAnswers ++ last.lastReadAnswers several k3 ++
      rest →
    exec (.readMem a len) s = .next { s with
      sh := ((s.sh.set .sbcs (if several then k3 else last.wait.ready)).set (.sbaddress 0) k2).set
        (.sbdata 0) last.word
      sbState := .done
      pollCount := BitVec.ofNat 32 last.wait.words.length
      unitIdx := BitVec.ofNat 32 (unitCount a len)
      rdata := delivered u words
      answers := rest
      events := s.events ++ startEvents (transferWord u several true (s.shadow .sbcs)) a k1 k2 ++
        first.flatMap UnitRun.readEvents ++ last.lastReadEvents several k3 ++
        [.engine .sb .done, .response ⟨.ok, 0, 0, BitVec.ofNat 32 (unitCount a len)⟩ (delivered u words)] }

/-- O46. `writeMem` completes from a clean shadow (R233 to R236, R238): configuration, address, a first wait, then
for each unit the packed word and its wait; `count` is the number of units. The write data are those on the
request port, `len` bytes at least (R121); bytes beyond `len` are ignored, the model's choice (log 6). -/
def Obligations.WriteMemCompletes : Prop :=
  ∀ (a len : Word) (s : State) (k1 k2 : Word) (w0 : Wait) (units : List UnitRun) (last : UnitRun)
    (rest : List Answer),
    let u := unitSize a len
    let several := decide (1 < unitCount a len)
    cleanBus (s.shadow .sbcs) = true → unitCount a len = units.length + 1 → len.toNat ≤ s.wdata.length →
    w0.good s.pollLimit.toNat → (∀ r ∈ units ++ [last], r.wait.good s.pollLimit.toNat) →
    s.answers = .ok k1 :: .ok k2 :: okAll w0.words ++ (units ++ [last]).flatMap UnitRun.writeAnswers ++
      rest →
    exec (.writeMem a len) s = .next { s with
      sh := ((s.sh.set .sbcs last.wait.ready).set (.sbaddress 0) k2).set (.sbdata 0) last.word
      sbState := .done
      pollCount := BitVec.ofNat 32 last.wait.words.length
      unitIdx := BitVec.ofNat 32 (unitCount a len)
      rdata := []
      answers := rest
      events := s.events ++ startEvents (transferWord u several false (s.shadow .sbcs)) a k1 k2 ++
        waitEvents w0.words ++ writeEvents s.wdata u 0 (units ++ [last]) ++
        [.engine .sb .done, .response ⟨.ok, 0, 0, BitVec.ofNat 32 (unitCount a len)⟩ []] }

/-- O47. `readMem` stops at the wait of a unit (R236, R304, R305, R240): `BUS_ERROR` with the raw code, or
`POLL_TIMEOUT`; the units before it are delivered and counted, the failed one is never fetched, and
`sb_state` = `Failed`. -/
def Obligations.ReadMemStops : Prop :=
  ∀ (a len : Word) (s : State) (k1 k2 : Word) (units : List UnitRun) (ws : List Word) (x : Stop)
    (rest : List Answer),
    let u := unitSize a len
    let several := decide (1 < unitCount a len)
    let data := delivered u (units.map UnitRun.word)
    cleanBus (s.shadow .sbcs) = true → units.length < unitCount a len →
    (∀ r ∈ units, r.wait.good s.pollLimit.toNat) → busFails s.pollLimit.toNat ws x →
    s.answers = .ok k1 :: .ok k2 :: units.flatMap UnitRun.readAnswers ++ okAll ws ++ rest →
    ∃ t, exec (.readMem a len) s = .next t ∧
      t.sbState = .failed ∧ t.unitIdx = BitVec.ofNat 32 units.length ∧ t.rdata = data ∧ t.answers = rest ∧
      t.pollCount = BitVec.ofNat 32 ws.length ∧
      (∀ r, Instr.mayChange (.readMem a len) r = false → t.shadow r = s.shadow r) ∧
      (∀ w, ws.getLast? = some w → t.shadow .sbcs = w) ∧
      t.events = s.events ++ startEvents (transferWord u several true (s.shadow .sbcs)) a k1 k2 ++
        units.flatMap UnitRun.readEvents ++ waitEvents ws ++
        [.engine .sb .failed, .response (x.response (BitVec.ofNat 32 units.length)) data]

/-- O48. `writeMem` stops at its first wait or at the wait of a unit (R236, R238, R240, R304, R305): `count` is the
number of units whose write was seen finished without error. -/
def Obligations.WriteMemStops : Prop :=
  ∀ (a len : Word) (s : State) (k1 k2 : Word) (ws : List Word) (x : Stop) (rest : List Answer),
    let u := unitSize a len
    let several := decide (1 < unitCount a len)
    cleanBus (s.shadow .sbcs) = true → 0 < unitCount a len → len.toNat ≤ s.wdata.length →
    busFails s.pollLimit.toNat ws x →
    (s.answers = .ok k1 :: .ok k2 :: okAll ws ++ rest →
      ∃ t, exec (.writeMem a len) s = .next t ∧ t.sbState = .failed ∧ t.unitIdx = 0 ∧ t.answers = rest ∧
        t.events = s.events ++ startEvents (transferWord u several false (s.shadow .sbcs)) a k1 k2 ++
          waitEvents ws ++ [.engine .sb .failed, .response (x.response 0) []]) ∧
    (∀ (w0 : Wait) (units : List UnitRun) (k : Word),
      w0.good s.pollLimit.toNat → (∀ r ∈ units, r.wait.good s.pollLimit.toNat) →
      units.length < unitCount a len →
      s.answers = .ok k1 :: .ok k2 :: okAll w0.words ++ units.flatMap UnitRun.writeAnswers ++ .ok k ::
        okAll ws ++ rest →
      ∃ t, exec (.writeMem a len) s = .next t ∧ t.sbState = .failed ∧
        t.unitIdx = BitVec.ofNat 32 units.length ∧ t.answers = rest ∧
        t.events = s.events ++ startEvents (transferWord u several false (s.shadow .sbcs)) a k1 k2 ++
          waitEvents w0.words ++ writeEvents s.wdata u 0 units ++
          wrote (.sbdata 0) (packUnit (fun j => s.wdata.getD j 0) units.length u) k ::
            .engine .sb .issued :: waitEvents ws ++
          [.engine .sb .failed, .response (x.response (BitVec.ofNat 32 units.length)) []])

/-- O49. The preconditions of a transfer (R233): a stale `sbbusy` in the shadow is waited out first, with
`sb_state` `Polling` (R242) and then as before (log 9); if that wait expires the transfer ends with `POLL_TIMEOUT`,
`sb_state` `Failed` and `count` 0, and nothing is configured (R305). A sticky field is then cleared by writing both to
all-ones and reading back. The result of the clear is not tested: whatever was read back, still sticky or busy too,
the configuration word built on it and the address are sent next; where it is clean, the transfer goes on as from
that state. -/
def Obligations.TransferPreconditions : Prop :=
  ∀ (i : Instr) (a len : Word) (s : State), i ∈ [Instr.readMem a len, .writeMem a len] → len ≠ 0 →
    (∀ (ws : List Word) (w : Word) (rest : List Answer),
      (s.shadow .sbcs).getLsbD 21 = true → (∀ b ∈ ws, b.getLsbD 21 = true) → w.getLsbD 21 = false →
      ws.length + 1 ≤ s.pollLimit.toNat → s.answers = okAll (ws ++ [w]) ++ rest →
      exec i s = exec i { s with
        sh := s.sh.set .sbcs w
        pollCount := BitVec.ofNat 32 (ws.length + 1)
        answers := rest
        events := s.events ++ waitEvents (ws ++ [w]) ++ [.engine .sb s.sbState] }) ∧
    (∀ (ws : List Word) (rest : List Answer),
      (s.shadow .sbcs).getLsbD 21 = true → (∀ b ∈ ws, b.getLsbD 21 = true) →
      ws.length = s.pollLimit.toNat → s.answers = okAll ws ++ rest →
      exec i s = .next { s with
        sh := s.sh.setLast .sbcs ws
        sbState := .failed
        pollCount := s.pollLimit
        unitIdx := 0
        rdata := []
        answers := rest
        events := s.events ++ waitEvents ws ++
          [.engine .sb .failed, .response ⟨.pollTimeout, 0, 0, 0⟩ []] }) ∧
    (∀ (k w : Word) (rest : List Answer),
      (s.shadow .sbcs).getLsbD 21 = false → cleanBus (s.shadow .sbcs) = false →
      s.answers = .ok k :: .ok w :: rest →
      let t : State := { s with
        sh := s.sh.set .sbcs w
        answers := rest
        events := s.events ++ [wrote .sbcs (s.shadow .sbcs ||| 0x00407000) k, fetched .sbcs w] }
      (cleanBus w = true → exec i s = exec i t) ∧
      (∀ k1 k2 rest', rest = .ok k1 :: .ok k2 :: rest' → ∃ u es, exec i s = .next u ∧
        u.events = t.events ++ startEvents (transferWord (unitSize a len) (decide (1 < unitCount a len))
          (decide (i = .readMem a len)) w) a k1 k2 ++ es))

/-- O50. What `writeMem` wrote, `readMem` of the same block reads back (R241): if both answer `OK` and the words
the read was given from `sbdata0` hold, in order, the units the write sent there in their low bits, the read data are
the write data. The bits above a unit of 1 or 2 bytes may differ (R108). -/
def Obligations.MemoryRoundTrip : Prop :=
  ∀ (a len : Word) (s t s' t' : State) (es es' : List Event) (count count' : Word) (data : List Byte),
    s.wdata.length = len.toNat →
    exec (.writeMem a len) s = .next t → t.events = s.events ++ es →
    (⟨.ok, 0, 0, count⟩, []) ∈ responsesOf es →
    exec (.readMem a len) s' = .next t' → t'.events = s'.events ++ es' →
    (⟨.ok, 0, 0, count'⟩, data) ∈ responsesOf es' →
    (wordsRead (.sbdata 0) es').map (BitVec.setWidth (8 * unitSize a len)) =
      (wordsSent (.sbdata 0) es).map (BitVec.setWidth (8 * unitSize a len)) →
    data = s.wdata

/-- O51. A transfer always ends, after at most `(n + 2) * (POLL_LIMIT + 1) + 4` accesses (R246). -/
def Obligations.TransferAccessBound : Prop :=
  ∀ (i : Instr) (a len : Word) (s : State), i ∈ [Instr.readMem a len, .writeMem a len] →
    ∃ t es, exec i s = .next t ∧ t.events = s.events ++ es ∧
      (accessesOf es).length ≤ (unitCount a len + 2) * (s.pollLimit.toNat + 1) + 4

/-- O52. `count` is the number of units transferred under every status (R240, R29, R121): it is `unit_idx` when the
operation ends, it is at most `n` and is `n` on `OK`; for a read it is the number of words fetched from `sbdata0`,
whose bytes are the read data; for a write it is the number of units whose bus write was seen finished without
error. -/
def Obligations.CountIsUnitsTransferred : Prop :=
  ∀ (i : Instr) (a len : Word) (s t : State) (es : List Event) (r : Response) (data : List Byte),
    i ∈ [Instr.readMem a len, .writeMem a len] → exec i s = .next t → t.events = s.events ++ es →
    (r, data) ∈ responsesOf es →
    r.count = t.unitIdx ∧ r.count.toNat ≤ unitCount a len ∧
      (r.status = .ok → r.count.toNat = unitCount a len) ∧
      (i = .readMem a len → r.count.toNat = (wordsRead (.sbdata 0) es).length ∧
        data = delivered (unitSize a len) (wordsRead (.sbdata 0) es) ∧
        data.length = r.count.toNat * unitSize a len) ∧
      (i = .writeMem a len → r.count.toNat = unitsFinished es)

/-! ### The machine as a whole -/

/-- O53. A polling loop is bounded (R201, R30, R317): it makes at most `POLL_LIMIT` reads of the polled register
and no other access; ready, the last read satisfies the condition and none before; expired, there were exactly
`POLL_LIMIT` and none did; the counter holds how many there were. -/
def Obligations.PollingIsBounded : Prop :=
  ∀ (r : RegId) (cond : Word → Bool) (s t : State) (ready : Bool), poll r cond s = .go ready t →
    ∃ ws : List Word, t.events = s.events ++ polled r ws ∧ t.pollCount.toNat = ws.length ∧
      ws.length ≤ s.pollLimit.toNat ∧ t.sh = s.sh.setLast r ws ∧
      (ready = true → ∃ init w, ws = init ++ [w] ∧ (∀ x ∈ init, cond x = false) ∧ cond w = true) ∧
      (ready = false → ws.length = s.pollLimit.toNat ∧ ∀ x ∈ ws, cond x = false)

/-- O54. One request, one response (R136, R300, R314): every operation, at every state, ends in a next state, with
exactly one response as its last event and at most one warning before it; a composite operation gives none
(R138). -/
def Obligations.EveryOperationAnswersOnce : Prop :=
  ∀ (i : Instr) (s : State), ∃ t es r data,
    exec i s = .next t ∧ t.events = s.events ++ (es ++ [.response r data]) ∧ responsesOf es = [] ∧
      (warningsOf es).length ≤ 1 ∧ (i.engine? ≠ none → warningsOf es = [])

/-- O55. Nothing follows a transport error (R105, R301, R311): after a cycle answered `Err(e)` the operation makes
no further access and gives no warning; its engine fails and it answers `TRANSPORT_ERROR` with `e`. And it answers
so only then. -/
def Obligations.NothingFollowsATransportError : Prop :=
  ∀ (i : Instr) (s t : State) (es : List Event), exec i s = .next t → t.events = s.events ++ es →
    (∀ pre a e post, es = pre ++ .cycle a (.err e) :: post → ∃ count data,
      post = (match i.engine? with | some en => [Event.engine en .failed] | none => []) ++
        [.response ⟨.transportError, 0, BitVec.ofNat 32 e, count⟩ data]) ∧
    (∀ r data, (r, data) ∈ responsesOf es → r.status = .transportError →
      ∃ a e, Event.cycle a (.err e) ∈ es)

/-- O56. Every operation keeps its frame (R23, R28, R29, R31, R32, R175, R217, R244, R267, R357): only the shadows
its rule names change and only their addresses are driven; only the engine it runs changes its state register;
`poll_count` changes only by an engine, `unit_idx` only by a transfer, `POLL_LIMIT` and the formatting modes only
by their setters; every answer consumed is one access. -/
def Obligations.OperationsKeepTheirFrame : Prop :=
  ∀ (i : Instr) (s t : State) (es : List Event), exec i s = .next t → t.events = s.events ++ es →
    (∀ r, i.mayChange r = false → t.shadow r = s.shadow r) ∧
    (∀ a ∈ accessesOf es, a.drives i.mayAccess = true) ∧
    (∀ en, i.engine? ≠ some en → t.engineState en = s.engineState en ∧ engineTrace en es = []) ∧
    (i.engine? = none → t.pollCount = s.pollCount) ∧
    (i.movesMemory = false → t.unitIdx = s.unitIdx ∧ t.rdata = s.rdata) ∧
    ((∀ v, i ≠ .setPollLimit v) → t.pollLimit = s.pollLimit) ∧
    ((∀ n idx b, i ≠ .setPretty n idx b) → t.pretty = s.pretty) ∧
    (i ≠ .dtmReset → Event.transportReset ∉ es) ∧
    t.inputs = s.inputs ∧ t.wdata = s.wdata ∧ t.answers = s.answers.drop (accessesOf es).length

/-- O57. Each operation answers only with the statuses its rule gives it (R300), and the fields of the response are
as R136 says: a class only with `CMD_ERROR` or `BUS_ERROR`, and then not 0; a count only from a transfer; no value
with an error but the error value of a transport error. A term that no request word decodes to answers `REFUSED`
(log 14). -/
def Obligations.StatusesOfOperations : Prop :=
  ∀ (i : Instr) (s t : State) (es : List Event) (r : Response) (data : List Byte),
    exec i s = .next t → t.events = s.events ++ es → (r, data) ∈ responsesOf es →
    r.status ∈ i.statuses ∧ (r.cls ≠ 0 ↔ r.status = .cmdError ∨ r.status = .busError) ∧
      (i.movesMemory = false → r.count = 0 ∧ data = []) ∧
      (r.status ≠ .ok → r.status ≠ .transportError → r.value = 0)

/-- O58. While no operation is in progress no engine is in `Issued` or `Polling` (R28): every step keeps that, from
every state that has it. -/
def Obligations.StepKeepsEnginesAtRest : Prop :=
  ∀ s t : State, s.quiet → step s = .next t → t.quiet

/-- O59. The block drives only the addresses of its 54 registers (R102, R61): every step keeps that of the whole
record, from every state that has it. -/
def Obligations.StepKeepsAccessesAddressed : Prop :=
  ∀ s t : State, s.addressed → step s = .next t → t.addressed

/-- O60. After reset both invariants hold: the engines are `Idle` (R341, R27), and the record, which the spec does
not have, is empty by the model's choice (log 7, log 12). -/
def Obligations.ResetStateHasTheInvariants : Prop := State.reset.quiet ∧ State.reset.addressed
end

