-- ==== Sys2Proof/Laws/Codec.lean ====
section
/-!
SUPPORT. The request word and its fields (30_encoding.md R131): taking a word apart and putting it together undo
each other.
-/

namespace Sys2Proof

/-- The fields of a word put together are the fields (R131). -/
@[simp] theorem Request.ofWord_toWord (r : Request) : Request.ofWord r.toWord = r := by
  obtain ⟨op, fid, idx, aid, a, v⟩ := r
  simp only [Request.ofWord, Request.toWord, Request.mk.injEq]
  refine ⟨?_, ?_, ?_, ?_, ?_, ?_⟩ <;>
  · apply BitVec.eq_of_getLsbD_eq
    intro i hi
    simp only [BitVec.getLsbD_extractLsb', BitVec.getLsbD_append, hi, decide_true, Bool.true_and]
    repeat (first | rw [if_pos (by omega)] | rw [if_neg (by omega)])
    congr 1; omega

/-- A word is the word of its fields (R131). -/
@[simp] theorem Request.toWord_ofWord (w : BitVec 96) : (Request.ofWord w).toWord = w := by
  apply BitVec.eq_of_getLsbD_eq
  intro i hi
  simp only [Request.ofWord, Request.toWord, BitVec.getLsbD_extractLsb', BitVec.getLsbD_append]
  repeat' split
  all_goals
    rw [decide_eq_true (by omega), Bool.true_and]
    congr 1; omega

/-- The three selector bytes put together are the selector (R131). -/
@[simp] theorem Request.sel_ofSel (op : BitVec 8) (sel : BitVec 24) (a v : Word) :
    (Request.ofSel op sel a v).sel = sel := by
  apply BitVec.eq_of_getLsbD_eq
  intro i hi
  simp only [Request.ofSel, Request.sel, BitVec.getLsbD_extractLsb', BitVec.getLsbD_append]
  repeat' split
  all_goals
    rw [decide_eq_true (by omega), Bool.true_and]
    congr 1; omega

@[simp] theorem Request.op_ofSel (op : BitVec 8) (sel : BitVec 24) (a v : Word) :
    (Request.ofSel op sel a v).op = op := rfl

@[simp] theorem Request.a_ofSel (op : BitVec 8) (sel : BitVec 24) (a v : Word) :
    (Request.ofSel op sel a v).a = a := rfl

@[simp] theorem Request.v_ofSel (op : BitVec 8) (sel : BitVec 24) (a v : Word) :
    (Request.ofSel op sel a v).v = v := rfl

/-- A request is the request of its selector (R131). -/
theorem Request.ofSel_sel (r : Request) : Request.ofSel r.op r.sel r.a r.v = r := by
  obtain ⟨op, fid, idx, aid, a, v⟩ := r
  simp only [Request.ofSel, Request.sel, Request.mk.injEq, true_and, and_true]
  refine ⟨?_, ?_, ?_⟩ <;>
  · apply BitVec.eq_of_getLsbD_eq
    intro i hi
    simp only [BitVec.getLsbD_extractLsb', BitVec.getLsbD_append, hi, decide_true, Bool.true_and]
    repeat (first | rw [if_pos (by omega)] | rw [if_neg (by omega)])
    congr 1; omega

/-- The name of an `aid` is the name whose `aid` it is (R61). -/
@[simp] theorem RegName.ofAid_aid (n : RegName) : RegName.ofAid n.aid = some n := by cases n <;> rfl

/-- Decoding goes by the fields alone. -/
@[simp] theorem decodeRequest_toWord (r : Request) : decodeRequest r.toWord = r.decode := by
  rw [decodeRequest, Request.ofWord_toWord]

/-- What a check of unused fields passes on (R139). -/
theorem requireZero_ok {b : Bool} {next : Except Reject Instr} {i : Instr} :
    requireZero b next = .ok i ↔ b = true ∧ next = .ok i := by
  cases b <;> simp [requireZero]

/-- The `aid` a name is found by is its own (R61). -/
theorem RegName.aid_of_ofAid {aid : BitVec 8} {n : RegName} (h : RegName.ofAid aid = some n) :
    aid = n.aid := by
  unfold RegName.ofAid at h
  have hlt : aid.toNat < 17 := by
    by_contra hc
    rw [List.getElem?_eq_none (by simp [RegName.all]; omega)] at h
    cases h
  have all : ∀ k, k < 17 → RegName.all[k]? = some n → BitVec.ofNat 8 k = n.aid := by
    intro k hk
    interval_cases k <;> simp [RegName.all] <;> rintro rfl <;> rfl
  rw [← all _ hlt h]
  simp

/-- What the name check passes on (R134 (a), (b)). -/
theorem Request.withName_ok {r : Request} {next : RegName → Except Reject Instr} {i : Instr} :
    r.withName next = .ok i ↔ ∃ n : RegName, r.aid = n.aid ∧ n.indexOk r.idx = true ∧ next n = .ok i := by
  unfold Request.withName
  constructor
  · intro h
    split at h
    · cases h
    next n hn =>
      split at h
      next hi => exact ⟨n, RegName.aid_of_ofAid hn, hi, h⟩
      next => cases h
  · rintro ⟨n, ha, hi, hn⟩
    rw [ha, RegName.ofAid_aid]
    simp [hi, hn]

/-- What the field check passes on (R134 (d)). -/
theorem Request.withField_ok {r : Request} {next : RegName → Machine.Field → Except Reject Instr}
    {i : Instr} :
    r.withField next = .ok i ↔ ∃ (n : RegName) (f : Machine.Field), r.aid = n.aid ∧
      n.indexOk r.idx = true ∧ n.field? r.fid = some f ∧ next n f = .ok i := by
  unfold Request.withField
  rw [Request.withName_ok]
  constructor
  · rintro ⟨n, ha, hi, h⟩
    split at h
    · cases h
    next f hf => exact ⟨n, f, ha, hi, hf, h⟩
  · rintro ⟨n, f, ha, hi, hf, h⟩
    refine ⟨n, ha, hi, ?_⟩
    simp [hf, h]

/-- A selector whose bits from `n` on are 0 is its low `n` bits (R131). -/
theorem selector_low {n : Nat} {sel : BitVec 24} (h : sel.extractLsb' n (24 - n) = 0) (hn : n ≤ 24) :
    (sel.extractLsb' 0 n).setWidth 24 = sel := by
  apply BitVec.eq_of_getLsbD_eq
  intro i hi
  rw [BitVec.getLsbD_setWidth, BitVec.getLsbD_extractLsb']
  by_cases hin : i < n
  · simp [hi, hin]
  · have e := congrArg (fun w => BitVec.getLsbD w (i - n)) h
    simp only [BitVec.getLsbD_extractLsb'] at e
    rw [show n + (i - n) = i by omega, show decide (i - n < 24 - n) = true by simp; omega] at e
    simpa [hin] using e.symm

end Sys2Proof
end

