-- ==== Sys2Proof/Laws/Registers.lean ====
section
/-!
SUPPORT. The register file: a read after a write, field by field of the register set (10_state.md R21, "none
aliases another").
-/

namespace Sys2Proof.Machine

variable {α : Type}

/-- A register reads as what was written to it. -/
@[simp] theorem RegFile.get_set_same (f : RegFile α) (r : RegId) (v : α) : (f.set r v).get r = v := by
  cases r <;> simp [RegFile.get, RegFile.set]

/-- A write leaves every other register alone. -/
theorem RegFile.get_set_ne (f : RegFile α) {r q : RegId} (v : α) (h : q ≠ r) :
    (f.set r v).get q = f.get q := by
  cases r <;> cases q <;>
    first
    | rfl
    | exact absurd rfl h
    | (rename_i i j
       have hij : (i : Nat) ≠ j := fun e => h (by rw [Fin.ext e])
       simp [RegFile.get, RegFile.set, hij])

/-- A read after a write, in one equation. -/
theorem RegFile.get_set (f : RegFile α) (r q : RegId) (v : α) :
    (f.set r v).get q = if q = r then v else f.get q := by
  split
  next h => subst h; exact RegFile.get_set_same f q v
  next h => exact RegFile.get_set_ne f v h

/-- A second write to a register hides the first. -/
@[simp] theorem RegFile.set_set (f : RegFile α) (r : RegId) (v w : α) :
    (f.set r v).set r w = f.set r w := by
  cases r <;> simp [RegFile.set]

/-- Writes to two registers commute. -/
theorem RegFile.set_comm (f : RegFile α) {r q : RegId} (v w : α) (h : r ≠ q) :
    (f.set r v).set q w = (f.set q w).set r v := by
  cases r <;> cases q <;>
    first
    | rfl
    | exact absurd rfl h
    | (rename_i i j
       have hij : (i : Nat) ≠ j := fun e => h (by rw [Fin.ext e])
       simp only [RegFile.set]
       rw [Vector.set_comm _ _ hij])

/-- The file of a function reads as the function. -/
@[simp] theorem RegFile.get_ofFn (g : RegId → α) (r : RegId) : (RegFile.ofFn g).get r = g r := by
  cases r <;> simp [RegFile.get, RegFile.ofFn]

/-- Writing what a register holds changes nothing. -/
@[simp] theorem RegFile.set_get_self (f : RegFile α) (r : RegId) : f.set r (f.get r) = f := by
  cases r <;> simp [RegFile.get, RegFile.set]

/-- Two files that read alike are equal. -/
theorem RegFile.ext_get {f g : RegFile α} (h : ∀ r, f.get r = g.get r) : f = g := by
  obtain ⟨a1, a2, a3, a4, a5, a6, a7, a8, a9, a10, a11, a12, a13, a14, a15, a16, a17⟩ := f
  obtain ⟨b1, b2, b3, b4, b5, b6, b7, b8, b9, b10, b11, b12, b13, b14, b15, b16, b17⟩ := g
  have arr : ∀ {n : Nat} {x y : Vector α n}, (∀ i : Fin n, x[i] = y[i]) → x = y :=
    fun {n x y} e => Vector.ext fun i hi => e ⟨i, hi⟩
  rw [RegFile.mk.injEq]
  exact ⟨arr fun i => h (.data i), h .dmcontrol, h .dmstatus, h .hartinfo, arr fun i => h (.haltsum i),
    h .hawindowsel, h .hawindow, h .abstractcs, h .command, h .abstractauto,
    arr fun i => h (.confstrptr i), h .nextdm, arr fun i => h (.progbuf i), h .authdata,
    arr fun i => h (.sbaddress i), h .sbcs, arr fun i => h (.sbdata i)⟩

/-- Every register instance is listed. -/
theorem RegId.mem_all (r : RegId) : r ∈ RegId.all := by
  cases r <;> simp [RegId.all]

/-- Two register instances never share a transport address (R61). -/
theorem RegId.addr_injective : ∀ r ∈ RegId.all, ∀ q ∈ RegId.all, r.addr = q.addr → r = q := by decide

/-- The address names the register. -/
theorem RegId.addr_inj {r q : RegId} : r.addr = q.addr ↔ r = q :=
  ⟨RegId.addr_injective r r.mem_all q q.mem_all, fun h => h ▸ rfl⟩

end Sys2Proof.Machine
end

