-- ==== Sys2Proof/Laws/State.lean ====
section
/-!
SUPPORT. One lemma per field per update of the state, so that no later proof unfolds an update.
-/

namespace Sys2Proof.Machine

variable (s : State)

/-! `setShadow r v` -/

@[simp] theorem State.setShadow_sh (r : RegId) (v : Word) :
    (s.setShadow r v).sh = s.sh.set r v := rfl
@[simp] theorem State.setShadow_acState (r : RegId) (v : Word) :
    (s.setShadow r v).acState = s.acState := rfl
@[simp] theorem State.setShadow_sbState (r : RegId) (v : Word) :
    (s.setShadow r v).sbState = s.sbState := rfl
@[simp] theorem State.setShadow_hcState (r : RegId) (v : Word) :
    (s.setShadow r v).hcState = s.hcState := rfl
@[simp] theorem State.setShadow_pollCount (r : RegId) (v : Word) :
    (s.setShadow r v).pollCount = s.pollCount := rfl
@[simp] theorem State.setShadow_unitIdx (r : RegId) (v : Word) :
    (s.setShadow r v).unitIdx = s.unitIdx := rfl
@[simp] theorem State.setShadow_pollLimit (r : RegId) (v : Word) :
    (s.setShadow r v).pollLimit = s.pollLimit := rfl
@[simp] theorem State.setShadow_pretty (r : RegId) (v : Word) :
    (s.setShadow r v).pretty = s.pretty := rfl
@[simp] theorem State.setShadow_inputs (r : RegId) (v : Word) :
    (s.setShadow r v).inputs = s.inputs := rfl
@[simp] theorem State.setShadow_wdata (r : RegId) (v : Word) :
    (s.setShadow r v).wdata = s.wdata := rfl
@[simp] theorem State.setShadow_rdata (r : RegId) (v : Word) :
    (s.setShadow r v).rdata = s.rdata := rfl
@[simp] theorem State.setShadow_answers (r : RegId) (v : Word) :
    (s.setShadow r v).answers = s.answers := rfl
@[simp] theorem State.setShadow_events (r : RegId) (v : Word) :
    (s.setShadow r v).events = s.events := rfl

/-! `record e` -/

@[simp] theorem State.record_sh (e : Event) :
    (s.record e).sh = s.sh := rfl
@[simp] theorem State.record_acState (e : Event) :
    (s.record e).acState = s.acState := rfl
@[simp] theorem State.record_sbState (e : Event) :
    (s.record e).sbState = s.sbState := rfl
@[simp] theorem State.record_hcState (e : Event) :
    (s.record e).hcState = s.hcState := rfl
@[simp] theorem State.record_pollCount (e : Event) :
    (s.record e).pollCount = s.pollCount := rfl
@[simp] theorem State.record_unitIdx (e : Event) :
    (s.record e).unitIdx = s.unitIdx := rfl
@[simp] theorem State.record_pollLimit (e : Event) :
    (s.record e).pollLimit = s.pollLimit := rfl
@[simp] theorem State.record_pretty (e : Event) :
    (s.record e).pretty = s.pretty := rfl
@[simp] theorem State.record_inputs (e : Event) :
    (s.record e).inputs = s.inputs := rfl
@[simp] theorem State.record_wdata (e : Event) :
    (s.record e).wdata = s.wdata := rfl
@[simp] theorem State.record_rdata (e : Event) :
    (s.record e).rdata = s.rdata := rfl
@[simp] theorem State.record_answers (e : Event) :
    (s.record e).answers = s.answers := rfl
@[simp] theorem State.record_events (e : Event) :
    (s.record e).events = s.events ++ [e] := rfl
@[simp] theorem State.record_shadow (e : Event) (q : RegId) :
    (s.record e).shadow q = s.shadow q := rfl

/-! `warn w` -/

@[simp] theorem State.warn_sh (w : Warning) :
    (s.warn w).sh = s.sh := rfl
@[simp] theorem State.warn_acState (w : Warning) :
    (s.warn w).acState = s.acState := rfl
@[simp] theorem State.warn_sbState (w : Warning) :
    (s.warn w).sbState = s.sbState := rfl
@[simp] theorem State.warn_hcState (w : Warning) :
    (s.warn w).hcState = s.hcState := rfl
@[simp] theorem State.warn_pollCount (w : Warning) :
    (s.warn w).pollCount = s.pollCount := rfl
@[simp] theorem State.warn_unitIdx (w : Warning) :
    (s.warn w).unitIdx = s.unitIdx := rfl
@[simp] theorem State.warn_pollLimit (w : Warning) :
    (s.warn w).pollLimit = s.pollLimit := rfl
@[simp] theorem State.warn_pretty (w : Warning) :
    (s.warn w).pretty = s.pretty := rfl
@[simp] theorem State.warn_inputs (w : Warning) :
    (s.warn w).inputs = s.inputs := rfl
@[simp] theorem State.warn_wdata (w : Warning) :
    (s.warn w).wdata = s.wdata := rfl
@[simp] theorem State.warn_rdata (w : Warning) :
    (s.warn w).rdata = s.rdata := rfl
@[simp] theorem State.warn_answers (w : Warning) :
    (s.warn w).answers = s.answers := rfl
@[simp] theorem State.warn_events (w : Warning) :
    (s.warn w).events = s.events ++ [.warning w] := rfl
@[simp] theorem State.warn_shadow (w : Warning) (q : RegId) :
    (s.warn w).shadow q = s.shadow q := rfl

/-! `respond r d` -/

@[simp] theorem State.respond_sh (r : Response) (d : List Byte) :
    (s.respond r d).sh = s.sh := rfl
@[simp] theorem State.respond_acState (r : Response) (d : List Byte) :
    (s.respond r d).acState = s.acState := rfl
@[simp] theorem State.respond_sbState (r : Response) (d : List Byte) :
    (s.respond r d).sbState = s.sbState := rfl
@[simp] theorem State.respond_hcState (r : Response) (d : List Byte) :
    (s.respond r d).hcState = s.hcState := rfl
@[simp] theorem State.respond_pollCount (r : Response) (d : List Byte) :
    (s.respond r d).pollCount = s.pollCount := rfl
@[simp] theorem State.respond_unitIdx (r : Response) (d : List Byte) :
    (s.respond r d).unitIdx = s.unitIdx := rfl
@[simp] theorem State.respond_pollLimit (r : Response) (d : List Byte) :
    (s.respond r d).pollLimit = s.pollLimit := rfl
@[simp] theorem State.respond_pretty (r : Response) (d : List Byte) :
    (s.respond r d).pretty = s.pretty := rfl
@[simp] theorem State.respond_inputs (r : Response) (d : List Byte) :
    (s.respond r d).inputs = s.inputs := rfl
@[simp] theorem State.respond_wdata (r : Response) (d : List Byte) :
    (s.respond r d).wdata = s.wdata := rfl
@[simp] theorem State.respond_rdata (r : Response) (d : List Byte) :
    (s.respond r d).rdata = s.rdata := rfl
@[simp] theorem State.respond_answers (r : Response) (d : List Byte) :
    (s.respond r d).answers = s.answers := rfl
@[simp] theorem State.respond_events (r : Response) (d : List Byte) :
    (s.respond r d).events = s.events ++ [.response r d] := rfl
@[simp] theorem State.respond_shadow (r : Response) (d : List Byte) (q : RegId) :
    (s.respond r d).shadow q = s.shadow q := rfl

/-! `respondOk v` -/

@[simp] theorem State.respondOk_sh (v : Word) :
    (s.respondOk v).sh = s.sh := rfl
@[simp] theorem State.respondOk_acState (v : Word) :
    (s.respondOk v).acState = s.acState := rfl
@[simp] theorem State.respondOk_sbState (v : Word) :
    (s.respondOk v).sbState = s.sbState := rfl
@[simp] theorem State.respondOk_hcState (v : Word) :
    (s.respondOk v).hcState = s.hcState := rfl
@[simp] theorem State.respondOk_pollCount (v : Word) :
    (s.respondOk v).pollCount = s.pollCount := rfl
@[simp] theorem State.respondOk_unitIdx (v : Word) :
    (s.respondOk v).unitIdx = s.unitIdx := rfl
@[simp] theorem State.respondOk_pollLimit (v : Word) :
    (s.respondOk v).pollLimit = s.pollLimit := rfl
@[simp] theorem State.respondOk_pretty (v : Word) :
    (s.respondOk v).pretty = s.pretty := rfl
@[simp] theorem State.respondOk_inputs (v : Word) :
    (s.respondOk v).inputs = s.inputs := rfl
@[simp] theorem State.respondOk_wdata (v : Word) :
    (s.respondOk v).wdata = s.wdata := rfl
@[simp] theorem State.respondOk_rdata (v : Word) :
    (s.respondOk v).rdata = s.rdata := rfl
@[simp] theorem State.respondOk_answers (v : Word) :
    (s.respondOk v).answers = s.answers := rfl
@[simp] theorem State.respondOk_events (v : Word) :
    (s.respondOk v).events = s.events ++ [.response (Response.okWith v 0) []] := rfl
@[simp] theorem State.respondOk_shadow (v : Word) (q : RegId) :
    (s.respondOk v).shadow q = s.shadow q := rfl

/-! `refuse` -/

@[simp] theorem State.refuse_sh :
    (s.refuse).sh = s.sh := rfl
@[simp] theorem State.refuse_acState :
    (s.refuse).acState = s.acState := rfl
@[simp] theorem State.refuse_sbState :
    (s.refuse).sbState = s.sbState := rfl
@[simp] theorem State.refuse_hcState :
    (s.refuse).hcState = s.hcState := rfl
@[simp] theorem State.refuse_pollCount :
    (s.refuse).pollCount = s.pollCount := rfl
@[simp] theorem State.refuse_unitIdx :
    (s.refuse).unitIdx = s.unitIdx := rfl
@[simp] theorem State.refuse_pollLimit :
    (s.refuse).pollLimit = s.pollLimit := rfl
@[simp] theorem State.refuse_pretty :
    (s.refuse).pretty = s.pretty := rfl
@[simp] theorem State.refuse_inputs :
    (s.refuse).inputs = s.inputs := rfl
@[simp] theorem State.refuse_wdata :
    (s.refuse).wdata = s.wdata := rfl
@[simp] theorem State.refuse_rdata :
    (s.refuse).rdata = s.rdata := rfl
@[simp] theorem State.refuse_answers :
    (s.refuse).answers = s.answers := rfl
@[simp] theorem State.refuse_events :
    (s.refuse).events = s.events ++ [.response Response.refusal []] := rfl
@[simp] theorem State.refuse_shadow (q : RegId) :
    (s.refuse).shadow q = s.shadow q := rfl

/-! `setEngine .ac st` -/

@[simp] theorem State.setEngine_ac_sh (st : EngineState) :
    (s.setEngine .ac st).sh = s.sh := rfl
@[simp] theorem State.setEngine_ac_acState (st : EngineState) :
    (s.setEngine .ac st).acState = st := rfl
@[simp] theorem State.setEngine_ac_sbState (st : EngineState) :
    (s.setEngine .ac st).sbState = s.sbState := rfl
@[simp] theorem State.setEngine_ac_hcState (st : EngineState) :
    (s.setEngine .ac st).hcState = s.hcState := rfl
@[simp] theorem State.setEngine_ac_pollCount (st : EngineState) :
    (s.setEngine .ac st).pollCount = s.pollCount := rfl
@[simp] theorem State.setEngine_ac_unitIdx (st : EngineState) :
    (s.setEngine .ac st).unitIdx = s.unitIdx := rfl
@[simp] theorem State.setEngine_ac_pollLimit (st : EngineState) :
    (s.setEngine .ac st).pollLimit = s.pollLimit := rfl
@[simp] theorem State.setEngine_ac_pretty (st : EngineState) :
    (s.setEngine .ac st).pretty = s.pretty := rfl
@[simp] theorem State.setEngine_ac_inputs (st : EngineState) :
    (s.setEngine .ac st).inputs = s.inputs := rfl
@[simp] theorem State.setEngine_ac_wdata (st : EngineState) :
    (s.setEngine .ac st).wdata = s.wdata := rfl
@[simp] theorem State.setEngine_ac_rdata (st : EngineState) :
    (s.setEngine .ac st).rdata = s.rdata := rfl
@[simp] theorem State.setEngine_ac_answers (st : EngineState) :
    (s.setEngine .ac st).answers = s.answers := rfl
@[simp] theorem State.setEngine_ac_events (st : EngineState) :
    (s.setEngine .ac st).events = s.events ++ [.engine .ac st] := rfl
@[simp] theorem State.setEngine_ac_shadow (st : EngineState) (q : RegId) :
    (s.setEngine .ac st).shadow q = s.shadow q := rfl

/-! `setEngine .sb st` -/

@[simp] theorem State.setEngine_sb_sh (st : EngineState) :
    (s.setEngine .sb st).sh = s.sh := rfl
@[simp] theorem State.setEngine_sb_acState (st : EngineState) :
    (s.setEngine .sb st).acState = s.acState := rfl
@[simp] theorem State.setEngine_sb_sbState (st : EngineState) :
    (s.setEngine .sb st).sbState = st := rfl
@[simp] theorem State.setEngine_sb_hcState (st : EngineState) :
    (s.setEngine .sb st).hcState = s.hcState := rfl
@[simp] theorem State.setEngine_sb_pollCount (st : EngineState) :
    (s.setEngine .sb st).pollCount = s.pollCount := rfl
@[simp] theorem State.setEngine_sb_unitIdx (st : EngineState) :
    (s.setEngine .sb st).unitIdx = s.unitIdx := rfl
@[simp] theorem State.setEngine_sb_pollLimit (st : EngineState) :
    (s.setEngine .sb st).pollLimit = s.pollLimit := rfl
@[simp] theorem State.setEngine_sb_pretty (st : EngineState) :
    (s.setEngine .sb st).pretty = s.pretty := rfl
@[simp] theorem State.setEngine_sb_inputs (st : EngineState) :
    (s.setEngine .sb st).inputs = s.inputs := rfl
@[simp] theorem State.setEngine_sb_wdata (st : EngineState) :
    (s.setEngine .sb st).wdata = s.wdata := rfl
@[simp] theorem State.setEngine_sb_rdata (st : EngineState) :
    (s.setEngine .sb st).rdata = s.rdata := rfl
@[simp] theorem State.setEngine_sb_answers (st : EngineState) :
    (s.setEngine .sb st).answers = s.answers := rfl
@[simp] theorem State.setEngine_sb_events (st : EngineState) :
    (s.setEngine .sb st).events = s.events ++ [.engine .sb st] := rfl
@[simp] theorem State.setEngine_sb_shadow (st : EngineState) (q : RegId) :
    (s.setEngine .sb st).shadow q = s.shadow q := rfl

/-! `setEngine .hc st` -/

@[simp] theorem State.setEngine_hc_sh (st : EngineState) :
    (s.setEngine .hc st).sh = s.sh := rfl
@[simp] theorem State.setEngine_hc_acState (st : EngineState) :
    (s.setEngine .hc st).acState = s.acState := rfl
@[simp] theorem State.setEngine_hc_sbState (st : EngineState) :
    (s.setEngine .hc st).sbState = s.sbState := rfl
@[simp] theorem State.setEngine_hc_hcState (st : EngineState) :
    (s.setEngine .hc st).hcState = st := rfl
@[simp] theorem State.setEngine_hc_pollCount (st : EngineState) :
    (s.setEngine .hc st).pollCount = s.pollCount := rfl
@[simp] theorem State.setEngine_hc_unitIdx (st : EngineState) :
    (s.setEngine .hc st).unitIdx = s.unitIdx := rfl
@[simp] theorem State.setEngine_hc_pollLimit (st : EngineState) :
    (s.setEngine .hc st).pollLimit = s.pollLimit := rfl
@[simp] theorem State.setEngine_hc_pretty (st : EngineState) :
    (s.setEngine .hc st).pretty = s.pretty := rfl
@[simp] theorem State.setEngine_hc_inputs (st : EngineState) :
    (s.setEngine .hc st).inputs = s.inputs := rfl
@[simp] theorem State.setEngine_hc_wdata (st : EngineState) :
    (s.setEngine .hc st).wdata = s.wdata := rfl
@[simp] theorem State.setEngine_hc_rdata (st : EngineState) :
    (s.setEngine .hc st).rdata = s.rdata := rfl
@[simp] theorem State.setEngine_hc_answers (st : EngineState) :
    (s.setEngine .hc st).answers = s.answers := rfl
@[simp] theorem State.setEngine_hc_events (st : EngineState) :
    (s.setEngine .hc st).events = s.events ++ [.engine .hc st] := rfl
@[simp] theorem State.setEngine_hc_shadow (st : EngineState) (q : RegId) :
    (s.setEngine .hc st).shadow q = s.shadow q := rfl

/-! `setPollCount n` -/

@[simp] theorem State.setPollCount_sh (n : Word) :
    (s.setPollCount n).sh = s.sh := rfl
@[simp] theorem State.setPollCount_acState (n : Word) :
    (s.setPollCount n).acState = s.acState := rfl
@[simp] theorem State.setPollCount_sbState (n : Word) :
    (s.setPollCount n).sbState = s.sbState := rfl
@[simp] theorem State.setPollCount_hcState (n : Word) :
    (s.setPollCount n).hcState = s.hcState := rfl
@[simp] theorem State.setPollCount_pollCount (n : Word) :
    (s.setPollCount n).pollCount = n := rfl
@[simp] theorem State.setPollCount_unitIdx (n : Word) :
    (s.setPollCount n).unitIdx = s.unitIdx := rfl
@[simp] theorem State.setPollCount_pollLimit (n : Word) :
    (s.setPollCount n).pollLimit = s.pollLimit := rfl
@[simp] theorem State.setPollCount_pretty (n : Word) :
    (s.setPollCount n).pretty = s.pretty := rfl
@[simp] theorem State.setPollCount_inputs (n : Word) :
    (s.setPollCount n).inputs = s.inputs := rfl
@[simp] theorem State.setPollCount_wdata (n : Word) :
    (s.setPollCount n).wdata = s.wdata := rfl
@[simp] theorem State.setPollCount_rdata (n : Word) :
    (s.setPollCount n).rdata = s.rdata := rfl
@[simp] theorem State.setPollCount_answers (n : Word) :
    (s.setPollCount n).answers = s.answers := rfl
@[simp] theorem State.setPollCount_events (n : Word) :
    (s.setPollCount n).events = s.events := rfl
@[simp] theorem State.setPollCount_shadow (n : Word) (q : RegId) :
    (s.setPollCount n).shadow q = s.shadow q := rfl

/-! `setUnitIdx n` -/

@[simp] theorem State.setUnitIdx_sh (n : Word) :
    (s.setUnitIdx n).sh = s.sh := rfl
@[simp] theorem State.setUnitIdx_acState (n : Word) :
    (s.setUnitIdx n).acState = s.acState := rfl
@[simp] theorem State.setUnitIdx_sbState (n : Word) :
    (s.setUnitIdx n).sbState = s.sbState := rfl
@[simp] theorem State.setUnitIdx_hcState (n : Word) :
    (s.setUnitIdx n).hcState = s.hcState := rfl
@[simp] theorem State.setUnitIdx_pollCount (n : Word) :
    (s.setUnitIdx n).pollCount = s.pollCount := rfl
@[simp] theorem State.setUnitIdx_unitIdx (n : Word) :
    (s.setUnitIdx n).unitIdx = n := rfl
@[simp] theorem State.setUnitIdx_pollLimit (n : Word) :
    (s.setUnitIdx n).pollLimit = s.pollLimit := rfl
@[simp] theorem State.setUnitIdx_pretty (n : Word) :
    (s.setUnitIdx n).pretty = s.pretty := rfl
@[simp] theorem State.setUnitIdx_inputs (n : Word) :
    (s.setUnitIdx n).inputs = s.inputs := rfl
@[simp] theorem State.setUnitIdx_wdata (n : Word) :
    (s.setUnitIdx n).wdata = s.wdata := rfl
@[simp] theorem State.setUnitIdx_rdata (n : Word) :
    (s.setUnitIdx n).rdata = s.rdata := rfl
@[simp] theorem State.setUnitIdx_answers (n : Word) :
    (s.setUnitIdx n).answers = s.answers := rfl
@[simp] theorem State.setUnitIdx_events (n : Word) :
    (s.setUnitIdx n).events = s.events := rfl
@[simp] theorem State.setUnitIdx_shadow (n : Word) (q : RegId) :
    (s.setUnitIdx n).shadow q = s.shadow q := rfl

/-! `setPollLimit n` -/

@[simp] theorem State.setPollLimit_sh (n : Word) :
    (s.setPollLimit n).sh = s.sh := rfl
@[simp] theorem State.setPollLimit_acState (n : Word) :
    (s.setPollLimit n).acState = s.acState := rfl
@[simp] theorem State.setPollLimit_sbState (n : Word) :
    (s.setPollLimit n).sbState = s.sbState := rfl
@[simp] theorem State.setPollLimit_hcState (n : Word) :
    (s.setPollLimit n).hcState = s.hcState := rfl
@[simp] theorem State.setPollLimit_pollCount (n : Word) :
    (s.setPollLimit n).pollCount = s.pollCount := rfl
@[simp] theorem State.setPollLimit_unitIdx (n : Word) :
    (s.setPollLimit n).unitIdx = s.unitIdx := rfl
@[simp] theorem State.setPollLimit_pollLimit (n : Word) :
    (s.setPollLimit n).pollLimit = n := rfl
@[simp] theorem State.setPollLimit_pretty (n : Word) :
    (s.setPollLimit n).pretty = s.pretty := rfl
@[simp] theorem State.setPollLimit_inputs (n : Word) :
    (s.setPollLimit n).inputs = s.inputs := rfl
@[simp] theorem State.setPollLimit_wdata (n : Word) :
    (s.setPollLimit n).wdata = s.wdata := rfl
@[simp] theorem State.setPollLimit_rdata (n : Word) :
    (s.setPollLimit n).rdata = s.rdata := rfl
@[simp] theorem State.setPollLimit_answers (n : Word) :
    (s.setPollLimit n).answers = s.answers := rfl
@[simp] theorem State.setPollLimit_events (n : Word) :
    (s.setPollLimit n).events = s.events := rfl
@[simp] theorem State.setPollLimit_shadow (n : Word) (q : RegId) :
    (s.setPollLimit n).shadow q = s.shadow q := rfl

/-! `setPretty r b` -/

@[simp] theorem State.setPretty_sh (r : RegId) (b : Bool) :
    (s.setPretty r b).sh = s.sh := rfl
@[simp] theorem State.setPretty_acState (r : RegId) (b : Bool) :
    (s.setPretty r b).acState = s.acState := rfl
@[simp] theorem State.setPretty_sbState (r : RegId) (b : Bool) :
    (s.setPretty r b).sbState = s.sbState := rfl
@[simp] theorem State.setPretty_hcState (r : RegId) (b : Bool) :
    (s.setPretty r b).hcState = s.hcState := rfl
@[simp] theorem State.setPretty_pollCount (r : RegId) (b : Bool) :
    (s.setPretty r b).pollCount = s.pollCount := rfl
@[simp] theorem State.setPretty_unitIdx (r : RegId) (b : Bool) :
    (s.setPretty r b).unitIdx = s.unitIdx := rfl
@[simp] theorem State.setPretty_pollLimit (r : RegId) (b : Bool) :
    (s.setPretty r b).pollLimit = s.pollLimit := rfl
@[simp] theorem State.setPretty_pretty (r : RegId) (b : Bool) :
    (s.setPretty r b).pretty = s.pretty.set r b := rfl
@[simp] theorem State.setPretty_inputs (r : RegId) (b : Bool) :
    (s.setPretty r b).inputs = s.inputs := rfl
@[simp] theorem State.setPretty_wdata (r : RegId) (b : Bool) :
    (s.setPretty r b).wdata = s.wdata := rfl
@[simp] theorem State.setPretty_rdata (r : RegId) (b : Bool) :
    (s.setPretty r b).rdata = s.rdata := rfl
@[simp] theorem State.setPretty_answers (r : RegId) (b : Bool) :
    (s.setPretty r b).answers = s.answers := rfl
@[simp] theorem State.setPretty_events (r : RegId) (b : Bool) :
    (s.setPretty r b).events = s.events := rfl
@[simp] theorem State.setPretty_shadow (r : RegId) (b : Bool) (q : RegId) :
    (s.setPretty r b).shadow q = s.shadow q := rfl

/-! `deliver bs` -/

@[simp] theorem State.deliver_sh (bs : List Byte) :
    (s.deliver bs).sh = s.sh := rfl
@[simp] theorem State.deliver_acState (bs : List Byte) :
    (s.deliver bs).acState = s.acState := rfl
@[simp] theorem State.deliver_sbState (bs : List Byte) :
    (s.deliver bs).sbState = s.sbState := rfl
@[simp] theorem State.deliver_hcState (bs : List Byte) :
    (s.deliver bs).hcState = s.hcState := rfl
@[simp] theorem State.deliver_pollCount (bs : List Byte) :
    (s.deliver bs).pollCount = s.pollCount := rfl
@[simp] theorem State.deliver_unitIdx (bs : List Byte) :
    (s.deliver bs).unitIdx = s.unitIdx := rfl
@[simp] theorem State.deliver_pollLimit (bs : List Byte) :
    (s.deliver bs).pollLimit = s.pollLimit := rfl
@[simp] theorem State.deliver_pretty (bs : List Byte) :
    (s.deliver bs).pretty = s.pretty := rfl
@[simp] theorem State.deliver_inputs (bs : List Byte) :
    (s.deliver bs).inputs = s.inputs := rfl
@[simp] theorem State.deliver_wdata (bs : List Byte) :
    (s.deliver bs).wdata = s.wdata := rfl
@[simp] theorem State.deliver_rdata (bs : List Byte) :
    (s.deliver bs).rdata = s.rdata ++ bs := rfl
@[simp] theorem State.deliver_answers (bs : List Byte) :
    (s.deliver bs).answers = s.answers := rfl
@[simp] theorem State.deliver_events (bs : List Byte) :
    (s.deliver bs).events = s.events := rfl
@[simp] theorem State.deliver_shadow (bs : List Byte) (q : RegId) :
    (s.deliver bs).shadow q = s.shadow q := rfl

/-! `afterCycle a` -/

@[simp] theorem State.afterCycle_sh (a : Access) :
    (s.afterCycle a).sh = s.sh := rfl
@[simp] theorem State.afterCycle_acState (a : Access) :
    (s.afterCycle a).acState = s.acState := rfl
@[simp] theorem State.afterCycle_sbState (a : Access) :
    (s.afterCycle a).sbState = s.sbState := rfl
@[simp] theorem State.afterCycle_hcState (a : Access) :
    (s.afterCycle a).hcState = s.hcState := rfl
@[simp] theorem State.afterCycle_pollCount (a : Access) :
    (s.afterCycle a).pollCount = s.pollCount := rfl
@[simp] theorem State.afterCycle_unitIdx (a : Access) :
    (s.afterCycle a).unitIdx = s.unitIdx := rfl
@[simp] theorem State.afterCycle_pollLimit (a : Access) :
    (s.afterCycle a).pollLimit = s.pollLimit := rfl
@[simp] theorem State.afterCycle_pretty (a : Access) :
    (s.afterCycle a).pretty = s.pretty := rfl
@[simp] theorem State.afterCycle_inputs (a : Access) :
    (s.afterCycle a).inputs = s.inputs := rfl
@[simp] theorem State.afterCycle_wdata (a : Access) :
    (s.afterCycle a).wdata = s.wdata := rfl
@[simp] theorem State.afterCycle_rdata (a : Access) :
    (s.afterCycle a).rdata = s.rdata := rfl
@[simp] theorem State.afterCycle_answers (a : Access) :
    (s.afterCycle a).answers = s.answers.tail := rfl
@[simp] theorem State.afterCycle_events (a : Access) :
    (s.afterCycle a).events = s.events ++ [.cycle a (s.answerTo a)] := rfl
@[simp] theorem State.afterCycle_shadow (a : Access) (q : RegId) :
    (s.afterCycle a).shadow q = s.shadow q := rfl

/-! `accept rest d` -/

@[simp] theorem State.accept_sh (rest : List Input) (d : List Byte) :
    (s.accept rest d).sh = s.sh := rfl
@[simp] theorem State.accept_acState (rest : List Input) (d : List Byte) :
    (s.accept rest d).acState = s.acState := rfl
@[simp] theorem State.accept_sbState (rest : List Input) (d : List Byte) :
    (s.accept rest d).sbState = s.sbState := rfl
@[simp] theorem State.accept_hcState (rest : List Input) (d : List Byte) :
    (s.accept rest d).hcState = s.hcState := rfl
@[simp] theorem State.accept_pollCount (rest : List Input) (d : List Byte) :
    (s.accept rest d).pollCount = s.pollCount := rfl
@[simp] theorem State.accept_unitIdx (rest : List Input) (d : List Byte) :
    (s.accept rest d).unitIdx = s.unitIdx := rfl
@[simp] theorem State.accept_pollLimit (rest : List Input) (d : List Byte) :
    (s.accept rest d).pollLimit = s.pollLimit := rfl
@[simp] theorem State.accept_pretty (rest : List Input) (d : List Byte) :
    (s.accept rest d).pretty = s.pretty := rfl
@[simp] theorem State.accept_inputs (rest : List Input) (d : List Byte) :
    (s.accept rest d).inputs = rest := rfl
@[simp] theorem State.accept_wdata (rest : List Input) (d : List Byte) :
    (s.accept rest d).wdata = d := rfl
@[simp] theorem State.accept_rdata (rest : List Input) (d : List Byte) :
    (s.accept rest d).rdata = s.rdata := rfl
@[simp] theorem State.accept_answers (rest : List Input) (d : List Byte) :
    (s.accept rest d).answers = s.answers := rfl
@[simp] theorem State.accept_events (rest : List Input) (d : List Byte) :
    (s.accept rest d).events = s.events := rfl
@[simp] theorem State.accept_shadow (rest : List Input) (d : List Byte) (q : RegId) :
    (s.accept rest d).shadow q = s.shadow q := rfl

/-! Shadows after a shadow write -/

@[simp] theorem State.shadow_setShadow_same (r : RegId) (v : Word) :
    (s.setShadow r v).shadow r = v := RegFile.get_set_same s.sh r v

theorem State.shadow_setShadow_ne {r q : RegId} (v : Word) (h : q ≠ r) :
    (s.setShadow r v).shadow q = s.shadow q := RegFile.get_set_ne s.sh v h

/-- A field write is a shadow write. -/
theorem State.putField_eq (r : RegId) (f : Field) (v : Word) :
    s.putField r f v = s.setShadow r (f.insert v (s.shadow r)) := rfl

/-- The engine state registers after a write of one of them. -/
@[simp] theorem State.engineState_setEngine (e g : Engine) (st : EngineState) :
    (s.setEngine e st).engineState g = if g = e then st else s.engineState g := by
  cases e <;> cases g <;> rfl

/-- An engine state write in one equation for every field it leaves alone. -/
theorem State.setEngine_events (e : Engine) (st : EngineState) :
    (s.setEngine e st).events = s.events ++ [.engine e st] := by cases e <;> rfl

/-- The shadows do not depend on the engine state registers. -/
@[simp] theorem State.setEngine_shadow (e : Engine) (st : EngineState) (q : RegId) :
    (s.setEngine e st).shadow q = s.shadow q := by cases e <;> rfl

/-! ### After reset (70_reset_and_hazards.md R341) -/

@[simp] theorem State.reset_shadow (r : RegId) : State.reset.shadow r = r.rst := by
  simp [State.reset, State.shadow]

/-- `POLL_LIMIT_RESET` is at least 1 (00_scope.md R8). -/
theorem pollLimitReset_pos : 1 ≤ Config.pollLimitReset.toNat := by
  unfold Config.pollLimitReset
  split
  next => decide
  next h =>
    have : Config.pollLimitResetRaw.toNat ≠ 0 := fun e => h (BitVec.eq_of_toNat_eq (by simpa using e))
    omega

/-- Block reset in one equation per element: registers at their reset values, the environment's side as it
was (R340 to R342). -/
@[simp] theorem State.blockReset_shadow (r : RegId) : s.blockReset.shadow r = r.rst := by
  simp [State.blockReset, State.reset, State.shadow]

@[simp] theorem State.blockReset_events : s.blockReset.events = s.events := rfl
@[simp] theorem State.blockReset_answers : s.blockReset.answers = s.answers := rfl
@[simp] theorem State.blockReset_inputs : s.blockReset.inputs = s.inputs := rfl

/-! `beginTransfer` -/

@[simp] theorem beginTransfer_sh :
    (beginTransfer s).sh = s.sh := rfl
@[simp] theorem beginTransfer_acState :
    (beginTransfer s).acState = s.acState := rfl
@[simp] theorem beginTransfer_sbState :
    (beginTransfer s).sbState = s.sbState := rfl
@[simp] theorem beginTransfer_hcState :
    (beginTransfer s).hcState = s.hcState := rfl
@[simp] theorem beginTransfer_pollCount :
    (beginTransfer s).pollCount = s.pollCount := rfl
@[simp] theorem beginTransfer_pollLimit :
    (beginTransfer s).pollLimit = s.pollLimit := rfl
@[simp] theorem beginTransfer_pretty :
    (beginTransfer s).pretty = s.pretty := rfl
@[simp] theorem beginTransfer_inputs :
    (beginTransfer s).inputs = s.inputs := rfl
@[simp] theorem beginTransfer_wdata :
    (beginTransfer s).wdata = s.wdata := rfl
@[simp] theorem beginTransfer_answers :
    (beginTransfer s).answers = s.answers := rfl
@[simp] theorem beginTransfer_events :
    (beginTransfer s).events = s.events := rfl
@[simp] theorem beginTransfer_unitIdx :
    (beginTransfer s).unitIdx = 0 := rfl
@[simp] theorem beginTransfer_rdata :
    (beginTransfer s).rdata = [] := rfl
@[simp] theorem beginTransfer_shadow (q : RegId) :
    (beginTransfer s).shadow q = s.shadow q := rfl

end Sys2Proof.Machine
end

