-- ==== Sys2Proof/Laws/Cycle.lean ====
section
/-!
SUPPORT. The micro-steps on a script of transport answers, each as one record update: a read, a write, and the
polling loop that is satisfied or that expires (00_scope.md R10, 41_abstract_command.md R201).
-/

namespace Sys2Proof.Machine

variable {s : State} {r : RegId} {rest : List Answer}

theorem State.answerTo_cons {a : Answer} (h : s.answers = a :: rest) (q : Access) : s.answerTo q = a := by
  simp [State.answerTo, h]

/-- A read answered `Ok`, whatever the answer comes from (R160). -/
theorem rd_of_ok {x : Word} (h : s.answerTo (.read r.addr) = .ok x) :
    rd r s = .go () { s with
      sh := s.sh.set r x
      answers := s.answers.tail
      events := s.events ++ [fetched r x] } := by
  simp [rd, h, State.afterCycle, State.setShadow, fetched]

/-- A read answered `Err`: the shadow is unchanged (R160, R301). -/
theorem rd_of_err {e : Nat} (h : s.answerTo (.read r.addr) = .err e) :
    rd r s = .stop (.transportError e) { s with
      answers := s.answers.tail
      events := s.events ++ [.cycle (.read r.addr) (.err e)] } := by
  simp [rd, h, State.afterCycle]

/-- A write answered `Ok`: the shadow takes the acknowledgement (R161). -/
theorem wr_of_ok {k : Word} (h : s.answerTo (.write r.addr (s.sh.get r)) = .ok k) :
    wr r s = .go () { s with
      sh := s.sh.set r k
      answers := s.answers.tail
      events := s.events ++ [wrote r (s.sh.get r) k] } := by
  simp only [wr, State.shadow, h, State.afterCycle, State.setShadow, wrote]

/-- A write answered `Err`: the shadow keeps the word sent (R161, R301). -/
theorem wr_of_err {e : Nat} (h : s.answerTo (.write r.addr (s.sh.get r)) = .err e) :
    wr r s = .stop (.transportError e) { s with
      answers := s.answers.tail
      events := s.events ++ [.cycle (.write r.addr (s.sh.get r)) (.err e)] } := by
  simp only [wr, State.shadow, h, State.afterCycle]

/-- A scripted read. -/
theorem rd_scripted {x : Word} (h : s.answers = .ok x :: rest) :
    rd r s = .go () { s with
      sh := s.sh.set r x
      answers := rest
      events := s.events ++ [fetched r x] } := by
  rw [rd_of_ok (State.answerTo_cons h _), h, List.tail_cons]

/-- A scripted write. -/
theorem wr_scripted {k : Word} (h : s.answers = .ok k :: rest) :
    wr r s = .go () { s with
      sh := s.sh.set r k
      answers := rest
      events := s.events ++ [wrote r (s.sh.get r) k] } := by
  rw [wr_of_ok (State.answerTo_cons h _), h, List.tail_cons]

/-- A scripted write of a new shadow word. -/
theorem wr_setShadow {k v : Word} (h : s.answers = .ok k :: rest) :
    wr r (s.setShadow r v) = .go () { s with
      sh := s.sh.set r k
      answers := rest
      events := s.events ++ [wrote r v k] } := by
  rw [wr_scripted (s := s.setShadow r v) h]
  simp [State.setShadow]

@[simp] theorem okAll_nil : okAll [] = [] := rfl
@[simp] theorem okAll_cons (w : Word) (ws : List Word) : okAll (w :: ws) = .ok w :: okAll ws := rfl
@[simp] theorem okAll_append (ws vs : List Word) : okAll (ws ++ vs) = okAll ws ++ okAll vs := by
  simp [okAll]
@[simp] theorem polled_nil : polled r [] = [] := rfl
@[simp] theorem polled_cons (w : Word) (ws : List Word) : polled r (w :: ws) = fetched r w :: polled r ws :=
  rfl
@[simp] theorem polled_append (ws vs : List Word) : polled r (ws ++ vs) = polled r ws ++ polled r vs := by
  simp [polled]

@[simp] theorem RegFile.setLast_nil (f : RegFile Word) : f.setLast r [] = f := rfl

@[simp] theorem RegFile.setLast_append (f : RegFile Word) (ws : List Word) (w : Word) :
    f.setLast r (ws ++ [w]) = f.set r w := by simp [RegFile.setLast]

theorem RegFile.setLast_set (f : RegFile Word) (v : Word) (ws : List Word) :
    (f.set r v).setLast r ws = f.setLast r (v :: ws) := by
  unfold RegFile.setLast
  cases ws with
  | nil => simp
  | cons w ws =>
    rw [List.getLast?_cons_cons]
    cases h : (w :: ws).getLast? <;> simp at h ⊢

/-- One turn of the loop on a read that does not satisfy the condition. -/
theorem pollLoop_turn {cond : Word → Bool} {n : Nat} {w : Word} (h : s.answers = .ok w :: rest)
    (hw : cond w = false) :
    pollLoop r cond (n + 1) s = pollLoop r cond n { s with
      sh := s.sh.set r w
      answers := rest
      pollCount := s.pollCount + 1
      events := s.events ++ [fetched r w] } := by
  rw [pollLoop, rd_scripted h]
  simp [Res.andThen, State.setPollCount, State.shadow, hw]

/-- The last turn of the loop: the read satisfies the condition. -/
theorem pollLoop_last {cond : Word → Bool} {n : Nat} {w : Word} (h : s.answers = .ok w :: rest)
    (hw : cond w = true) :
    pollLoop r cond (n + 1) s = .go true { s with
      sh := s.sh.set r w
      answers := rest
      pollCount := s.pollCount + 1
      events := s.events ++ [fetched r w] } := by
  rw [pollLoop, rd_scripted h]
  simp [Res.andThen, State.setPollCount, State.shadow, hw]

/-- The loop over reads none of which satisfies the condition. -/
theorem pollLoop_unsatisfied {cond : Word → Bool} (ws : List Word) : ∀ {n : Nat} {s : State},
    s.answers = okAll ws ++ rest → (∀ w ∈ ws, cond w = false) →
    pollLoop r cond (ws.length + n) s = pollLoop r cond n { s with
      sh := s.sh.setLast r ws
      answers := rest
      pollCount := s.pollCount + BitVec.ofNat 32 ws.length
      events := s.events ++ polled r ws } := by
  induction ws with
  | nil => intro n s h _; simp at h; simp [← h]
  | cons w ws ih =>
    intro n s h hw
    have e : (w :: ws).length + n = (ws.length + n) + 1 := by simp; omega
    rw [e, pollLoop_turn h (hw w (by simp)), ih rfl (fun v hv => hw v (by simp [hv]))]
    congr 2
    · exact RegFile.setLast_set _ _ _
    · rw [List.length_cons, Nat.add_comm ws.length 1, BitVec.ofNat_add, BitVec.add_assoc]
      rfl
    · simp

/-- `Ready` (R201): after reads that do not satisfy the condition comes one that does, within the bound. -/
theorem poll_ready {cond : Word → Bool} {ws : List Word} {w : Word}
    (h : s.answers = okAll (ws ++ [w]) ++ rest) (hws : ∀ v ∈ ws, cond v = false) (hw : cond w = true)
    (hl : ws.length + 1 ≤ s.pollLimit.toNat) :
    poll r cond s = .go true { s with
      sh := s.sh.set r w
      answers := rest
      pollCount := BitVec.ofNat 32 (ws.length + 1)
      events := s.events ++ polled r (ws ++ [w]) } := by
  obtain ⟨m, hm⟩ := Nat.exists_eq_add_of_le hl
  rw [poll, hm, Nat.add_assoc, Nat.add_comm 1 m]
  rw [pollLoop_unsatisfied (rest := .ok w :: rest) ws (by simp [State.setPollCount, h]) hws,
    pollLoop_last (rest := rest) rfl hw]
  congr 2
  · simp only [State.setPollCount]
    rw [RegFile.setLast]
    cases ws.getLast? <;> simp
  · simp [State.setPollCount, BitVec.ofNat_add]
  · simp [State.setPollCount]

/-- `Expired` (R201): the bound's number of reads, none of which satisfies the condition. -/
theorem poll_expired {cond : Word → Bool} {ws : List Word}
    (h : s.answers = okAll ws ++ rest) (hws : ∀ v ∈ ws, cond v = false)
    (hl : ws.length = s.pollLimit.toNat) :
    poll r cond s = .go false { s with
      sh := s.sh.setLast r ws
      answers := rest
      pollCount := BitVec.ofNat 32 ws.length
      events := s.events ++ polled r ws } := by
  have e := pollLoop_unsatisfied (n := 0) (s := s.setPollCount 0) (r := r) ws h hws
  rw [Nat.add_zero] at e
  rw [poll, ← hl, e, pollLoop]
  simp [State.setPollCount]

/-- A poll that must be satisfied, and is. -/
theorem pollOrStop_ready {cond : Word → Bool} {ws : List Word} {w : Word}
    (h : s.answers = okAll (ws ++ [w]) ++ rest) (hws : ∀ v ∈ ws, cond v = false) (hw : cond w = true)
    (hl : ws.length + 1 ≤ s.pollLimit.toNat) :
    pollOrStop r cond s = .go () { s with
      sh := s.sh.set r w
      answers := rest
      pollCount := BitVec.ofNat 32 (ws.length + 1)
      events := s.events ++ polled r (ws ++ [w]) } := by
  rw [pollOrStop, poll_ready h hws hw hl]; rfl

/-- A poll that must be satisfied, and expires (R305). -/
theorem pollOrStop_expired {cond : Word → Bool} {ws : List Word}
    (h : s.answers = okAll ws ++ rest) (hws : ∀ v ∈ ws, cond v = false)
    (hl : ws.length = s.pollLimit.toNat) :
    pollOrStop r cond s = .stop .pollTimeout { s with
      sh := s.sh.setLast r ws
      answers := rest
      pollCount := BitVec.ofNat 32 ws.length
      events := s.events ++ polled r ws } := by
  rw [pollOrStop, poll_expired h hws hl]; rfl

end Sys2Proof.Machine
end

