-- ==== Sys2Proof/Laws/Designators.lean ====
section
/-!
SUPPORT. Register and field designators: when a name with an index is an instance, what the operations on one do,
and that every field lies in its word (30_encoding.md R134, 40_register_ops.md R165, 10_state.md R22).
-/

namespace Sys2Proof.Machine

variable {n : RegName} {idx : BitVec 8} {s : State}

/-- A name with an index is an instance exactly when the index is in range (R133). -/
theorem RegName.resolve_isSome (n : RegName) (idx : BitVec 8) :
    (n.resolve idx).isSome = true ↔ idx.toNat < n.size := by
  cases n <;> simp only [RegName.resolve, RegName.size] <;> split <;> simp_all

theorem RegName.resolve_none (h : n.size ≤ idx.toNat) : n.resolve idx = none := by
  rw [← Option.not_isSome_iff_eq_none, RegName.resolve_isSome]; omega

/-- An instance's index is one its name may have (R134 (b)). -/
theorem RegName.indexOk_of_resolve {r : RegId} (h : n.resolve idx = some r) : n.indexOk idx = true := by
  cases n <;> simp [RegName.resolve, RegName.indexOk, RegName.isArray] at h ⊢ <;>
    exact BitVec.eq_of_toNat_eq (by simp; omega)

/-- The instance a name and an index give is one of that name. -/
theorem RegName.name_of_resolve {r : RegId} (h : n.resolve idx = some r) : r.name = n := by
  cases n <;> simp only [RegName.resolve] at h <;> split at h <;> cases h <;> rfl

/-- An operation on an instance. -/
theorem withReg_some {r : RegId} {f : RegId → State} (h : n.resolve idx = some r) :
    withReg n idx s f = f r := by
  simp [withReg, RegName.indexOk_of_resolve h, h]

/-- An operation on an array beyond its end (R165). -/
theorem withReg_out {f : RegId → State} (ha : n.isArray = true) (h : n.size ≤ idx.toNat) :
    withReg n idx s f = (s.warn (.index n.aid idx)).respondOk 0 := by
  simp [withReg, RegName.indexOk, ha, RegName.resolve_none h]

/-- All an operation on a designator can do: refuse, warn of the index, or act on one instance. -/
theorem withReg_cases (n : RegName) (idx : BitVec 8) (s : State) (f : RegId → State) :
    (n.indexOk idx = false ∧ withReg n idx s f = s.refuse) ∨
    (n.indexOk idx = true ∧ n.resolve idx = none ∧
      withReg n idx s f = (s.warn (.index n.aid idx)).respondOk 0) ∨
    (∃ r, n.indexOk idx = true ∧ n.resolve idx = some r ∧ withReg n idx s f = f r) := by
  unfold withReg
  cases hi : n.indexOk idx with
  | false => exact .inl ⟨rfl, rfl⟩
  | true =>
    cases hr : n.resolve idx with
    | none => exact .inr (.inl ⟨rfl, rfl, rfl⟩)
    | some r => exact .inr (.inr ⟨r, rfl, rfl, rfl⟩)

/-- All an operation on a field can do: refuse, warn of the index, or act on one field of one instance. -/
theorem withField_cases (n : RegName) (idx fid : BitVec 8) (usable : Field → Bool) (s : State)
    (f : RegId → Field → State) :
    (n.indexOk idx && (n.field? fid).any usable) = false ∧ withField n idx fid usable s f = s.refuse ∨
    ((n.indexOk idx && (n.field? fid).any usable) = true ∧ n.resolve idx = none ∧
      withField n idx fid usable s f = (s.warn (.index n.aid idx)).respondOk 0) ∨
    (∃ r fd, (n.indexOk idx && (n.field? fid).any usable) = true ∧ n.resolve idx = some r ∧
      n.field? fid = some fd ∧ usable fd = true ∧ withField n idx fid usable s f = f r fd) := by
  unfold withField
  cases hf : n.field? fid with
  | none => exact .inl ⟨by simp, rfl⟩
  | some fd =>
    cases hu : usable fd with
    | false => exact .inl ⟨by simp [hu], by simp [hu]⟩
    | true =>
      simp only [hu, if_true]
      rcases withReg_cases n idx s (fun r => f r fd) with ⟨hi, h⟩ | ⟨hi, hr, h⟩ | ⟨r, hi, hr, h⟩
      · exact .inl ⟨by simp [hi], h⟩
      · exact .inr (.inl ⟨by simp [hi, hu], hr, h⟩)
      · exact .inr (.inr ⟨r, fd, by simp [hi, hu], hr, rfl, hu, h⟩)

/-- Every field of a table lies in its word (11_dmi_registers.md R63 to R84). -/
theorem RegName.field_fits {fid : BitVec 8} {f : Field} (h : n.field? fid = some f) :
    f.off + f.width ≤ 32 := by
  have all : ∀ n : RegName, ∀ f ∈ n.fields, f.off + f.width ≤ 32 := by intro n; cases n <;> decide
  exact all n f (List.mem_of_getElem? h)

end Sys2Proof.Machine
end

