-- ==== Sys2Proof/Laws/Words.lean ====
section
/-!
SUPPORT. The words of the rules, bit by bit: what each field read and field write of the engines is in masks and
bits (10_state.md R22).
-/

namespace Sys2Proof.Machine

/-- The bits of a mask (R22). -/
theorem Field.getLsbD_mask (f : Field) (h : f.off + f.width ≤ 32) (j : Nat) :
    f.mask.getLsbD j = (decide (f.off ≤ j) && decide (j < f.off + f.width)) := by
  unfold Field.mask
  rw [BitVec.getLsbD_shiftLeft, BitVec.getLsbD_ofNat, Nat.testBit_two_pow_sub_one]
  by_cases h1 : f.off ≤ j <;> by_cases h2 : j < f.off + f.width <;> simp [h1, h2] <;> omega

/-- The bits of a field read (R22). -/
theorem Field.getLsbD_extract (f : Field) (h : f.off + f.width ≤ 32) (x : Word) (j : Nat) :
    (f.extract x).getLsbD j = (decide (j < f.width) && x.getLsbD (f.off + j)) := by
  unfold Field.extract
  rw [BitVec.getLsbD_ushiftRight, BitVec.getLsbD_and, Field.getLsbD_mask f h]
  by_cases h2 : j < f.width <;> simp [h2]

/-- The bits after a field write (R22). -/
theorem Field.getLsbD_insert (f : Field) (h : f.off + f.width ≤ 32) (v x : Word) (j : Nat) :
    (f.insert v x).getLsbD j =
      if f.off ≤ j ∧ j < f.off + f.width then v.getLsbD (j - f.off) else x.getLsbD j := by
  unfold Field.insert
  rw [BitVec.getLsbD_or, BitVec.getLsbD_and, BitVec.getLsbD_and, BitVec.getLsbD_not,
    BitVec.getLsbD_shiftLeft, Field.getLsbD_mask f h]
  by_cases h3 : j < 32
  · by_cases h1 : f.off ≤ j <;> by_cases h2 : j < f.off + f.width <;> simp [h1, h2, h3]
  · have e : x.getLsbD j = false := BitVec.getLsbD_of_ge x j (by omega)
    have h2 : ¬ (f.off ≤ j ∧ j < f.off + f.width) := by omega
    rw [if_neg h2]
    simp [h3, e]

/-- Setting the two hart halves is the masked word of R260. -/
theorem withHartsel_eq (h : BitVec 20) (x : Word) : withHartsel h x = selectWord h x := by
  apply BitVec.eq_of_getLsbD_eq
  intro i hi
  unfold withHartsel selectWord encHart hartLo hartHi
  rw [Field.getLsbD_insert _ (by decide), Field.getLsbD_insert _ (by decide)]
  simp only [Field.hartselhi, Field.hartsello]
  interval_cases i <;> simp

/-- The second word of a halt, bit by bit (R261, R268). -/
theorem haltWord_eq (h : BitVec 20) (k : Word) :
    requestWord h .haltreq .resumereq k = secondWord h 0x80000000 k := by
  apply BitVec.eq_of_getLsbD_eq
  intro i hi
  unfold requestWord secondWord
  rw [Field.getLsbD_insert _ (by decide), Field.getLsbD_insert _ (by decide), withHartsel_eq]
  unfold selectWord encHart hartLo hartHi
  simp only [Field.haltreq, Field.resumereq]
  interval_cases i <;> simp

/-- The second word of a resume, bit by bit (R262, R268). -/
theorem resumeWord_eq (h : BitVec 20) (k : Word) :
    requestWord h .resumereq .haltreq k = secondWord h 0x40000000 k := by
  apply BitVec.eq_of_getLsbD_eq
  intro i hi
  unfold requestWord secondWord
  rw [Field.getLsbD_insert _ (by decide), Field.getLsbD_insert _ (by decide), withHartsel_eq]
  unfold selectWord encHart hartLo hartHi
  simp only [Field.haltreq, Field.resumereq]
  interval_cases i <;> simp

/-- A 1-bit field, as the bit. -/
theorem Field.bit_eq_one (f : Field) (hw : f.width = 1) (h : f.off < 32) (x : Word) :
    (f.extract x == 1) = x.getLsbD f.off := by
  have e : f.extract x = (BitVec.ofBool (x.getLsbD f.off)).setWidth 32 := by
    apply BitVec.eq_of_getLsbD_eq
    intro i hi
    rw [Field.getLsbD_extract f (by omega), hw]
    rcases i with _ | i <;> simp
  rw [e]; cases x.getLsbD f.off <;> decide

/-- A 1-bit field is 0 when its bit is. -/
theorem Field.bit_eq_zero (f : Field) (hw : f.width = 1) (h : f.off < 32) (x : Word) :
    (f.extract x == 0) = !x.getLsbD f.off := by
  have e : f.extract x = (BitVec.ofBool (x.getLsbD f.off)).setWidth 32 := by
    apply BitVec.eq_of_getLsbD_eq
    intro i hi
    rw [Field.getLsbD_extract f (by omega), hw]
    rcases i with _ | i <;> simp
  rw [e]; cases x.getLsbD f.off <;> decide

/-- `busy` is bit 12 (R70). -/
theorem isBusy_eq (x : Word) : isBusy x = x.getLsbD 12 := Field.bit_eq_one .busy rfl (by decide) x

/-- `busy` is bit 12 (R70). -/
theorem notBusy_eq (x : Word) : notBusy x = !x.getLsbD 12 := Field.bit_eq_zero .busy rfl (by decide) x

/-- `sbbusy` is bit 21 (R81). -/
theorem isSbBusy_eq (x : Word) : isSbBusy x = x.getLsbD 21 := Field.bit_eq_one .sbbusy rfl (by decide) x

/-- `sbbusy` is bit 21 (R81). -/
theorem notSbBusy_eq (x : Word) : notSbBusy x = !x.getLsbD 21 := Field.bit_eq_zero .sbbusy rfl (by decide) x

/-- A 3-bit field is a slice. -/
theorem Field.extract_setWidth_three (f : Field) (hw : f.width = 3) (h : f.off + 3 ≤ 32) (x : Word) :
    (f.extract x).setWidth 3 = x.extractLsb' f.off 3 := by
  apply BitVec.eq_of_getLsbD_eq
  intro i hi
  rw [BitVec.getLsbD_setWidth, Field.getLsbD_extract f (by omega), BitVec.getLsbD_extractLsb', hw]
  simp [hi]

/-- `cmderr` is bits 10:8 (R70). -/
theorem cmderrCode_eq (x : Word) : cmderrCode x = x.extractLsb' 8 3 :=
  Field.extract_setWidth_three .cmderr rfl (by decide) x

/-- `sberror` is bits 14:12 (R81). -/
theorem sberrorCode_eq (x : Word) : sberrorCode x = x.extractLsb' 12 3 :=
  Field.extract_setWidth_three .sberror rfl (by decide) x

/-- The sticky fields of `sbcs` (R81, R233). -/
theorem sbSticky_eq (x : Word) : sbSticky x = (x.extractLsb' 12 3 != 0 || x.getLsbD 22) := by
  unfold sbSticky
  rw [sberrorCode_eq]
  congr 1
  rw [bne, Field.bit_eq_zero .sbbusyerror rfl (by decide), Bool.not_not]
  rfl

/-- One bit of the masked word is 0 where the mask is 1. -/
theorem getLsbD_of_and_eq_zero {x m : Word} (h : x &&& m = 0) (i : Nat) (hm : m.getLsbD i = true) :
    x.getLsbD i = false := by
  have := congrArg (fun w => BitVec.getLsbD w i) h
  simpa [hm] using this

/-- A 3-bit slice is 0 when its bits are. -/
theorem bits3_eq_zero (x : Word) (o : Nat) : x.extractLsb' o 3 = 0 ↔
    x.getLsbD o = false ∧ x.getLsbD (o + 1) = false ∧ x.getLsbD (o + 2) = false := by
  constructor
  · intro h
    have g : ∀ i, i < 3 → x.getLsbD (o + i) = false := fun i hi => by
      have := congrArg (fun w => BitVec.getLsbD w i) h
      simpa [hi] using this
    exact ⟨g 0 (by omega), g 1 (by omega), g 2 (by omega)⟩
  · rintro ⟨h0, h1, h2⟩
    apply BitVec.eq_of_getLsbD_eq
    intro i hi
    rw [BitVec.getLsbD_extractLsb']
    obtain rfl | rfl | rfl : i = 0 ∨ i = 1 ∨ i = 2 := by omega
    · simp [h0]
    · simp [h1]
    · simp [h2]

/-- A clean `abstractcs` word, field by field (R203, R204). -/
theorem cleanCommand_iff (x : Word) : cleanCommand x = true ↔ x.getLsbD 12 = false ∧ cmderrCode x = 0 := by
  unfold cleanCommand
  rw [beq_iff_eq, cmderrCode_eq, bits3_eq_zero]
  constructor
  · intro h
    exact ⟨getLsbD_of_and_eq_zero h 12 (by decide), getLsbD_of_and_eq_zero h 8 (by decide),
      getLsbD_of_and_eq_zero h 9 (by decide), getLsbD_of_and_eq_zero h 10 (by decide)⟩
  · rintro ⟨h, a, b, c⟩
    apply BitVec.eq_of_getLsbD_eq
    intro i hi
    interval_cases i <;> simp_all

/-- A clean `sbcs` word, field by field (R233). -/
theorem cleanBus_iff (x : Word) : cleanBus x = true ↔ x.getLsbD 21 = false ∧ sbSticky x = false := by
  unfold cleanBus
  rw [beq_iff_eq, sbSticky_eq]
  simp only [Bool.or_eq_false_iff, bne_eq_false_iff_eq]
  rw [bits3_eq_zero]
  constructor
  · intro h
    exact ⟨getLsbD_of_and_eq_zero h 21 (by decide), ⟨getLsbD_of_and_eq_zero h 12 (by decide),
      getLsbD_of_and_eq_zero h 13 (by decide), getLsbD_of_and_eq_zero h 14 (by decide)⟩,
      getLsbD_of_and_eq_zero h 22 (by decide)⟩
  · rintro ⟨h, ⟨a, b, c⟩, d⟩
    apply BitVec.eq_of_getLsbD_eq
    intro i hi
    interval_cases i <;> simp_all

/-- An `sbcs` word that ends a wait well (R236). -/
theorem ready_iff (x : Word) : x &&& 0x00207000 = 0 ↔ x.getLsbD 21 = false ∧ sberrorCode x = 0 := by
  rw [sberrorCode_eq, bits3_eq_zero]
  constructor
  · intro h
    exact ⟨getLsbD_of_and_eq_zero h 21 (by decide), getLsbD_of_and_eq_zero h 12 (by decide),
      getLsbD_of_and_eq_zero h 13 (by decide), getLsbD_of_and_eq_zero h 14 (by decide)⟩
  · rintro ⟨h, a, b, c⟩
    apply BitVec.eq_of_getLsbD_eq
    intro i hi
    interval_cases i <;> simp_all

/-- The halt predicate, bit by bit (R263). -/
theorem isHalted_eq (x : Word) : isHalted x = haltSeen x := by
  unfold isHalted haltSeen haltedBit
  have e : ((x >>> 9) ||| (x >>> 8)) &&& 1 = (BitVec.ofBool (x.getLsbD 9 || x.getLsbD 8)).setWidth 32 := by
    apply BitVec.eq_of_getLsbD_eq
    intro i hi
    rcases i with _ | i <;> simp
  rw [e]; cases (x.getLsbD 9 || x.getLsbD 8) <;> decide

/-- The resume predicate, bit by bit (R263). -/
theorem isResumeack_eq (x : Word) : isResumeack x = resumeSeen x := by
  unfold isResumeack resumeSeen resumeackBit
  have e : ((x >>> 17) ||| (x >>> 16)) &&& 1 = (BitVec.ofBool (x.getLsbD 17 || x.getLsbD 16)).setWidth 32 := by
    apply BitVec.eq_of_getLsbD_eq
    intro i hi
    rcases i with _ | i <;> simp
  rw [e]; cases (x.getLsbD 17 || x.getLsbD 16) <;> decide

/-- The command words of the general registers (R141). -/
theorem gprWord_eq (W : Bool) (reg : BitVec 5) :
    commandWord W (gprRegno reg) = (if W then 0x00231000 else 0x00221000) + reg.setWidth 32 := by
  revert W reg; decide

/-- The command words of the floating-point registers (R141). -/
theorem fprWord_eq (W : Bool) (reg : BitVec 5) :
    commandWord W (fprRegno reg) = (if W then 0x00231020 else 0x00221020) + reg.setWidth 32 := by
  revert W reg; decide

/-- The command words of the CSRs (R141). -/
theorem csrWord_eq (W : Bool) (csr : BitVec 12) :
    commandWord W (csrRegno csr) = (if W then 0x00230000 else 0x00220000) + csr.setWidth 32 := by
  have z : (if W then 0x00230000 else 0x00220000 : Word) &&& csr.setWidth 32 = 0 := by
    apply BitVec.eq_of_getLsbD_eq
    intro i hi
    cases W <;> interval_cases i <;> simp
  rw [BitVec.add_eq_or_of_and_eq_zero _ _ z]
  cases W <;> simp [commandWord, csrRegno]

/-- The word of `cmderrClear` (R170). -/
theorem cmderrClear_word (x : Word) : Field.cmderr.insert 7 x = x ||| 0x700 := by
  apply BitVec.eq_of_getLsbD_eq
  intro i hi
  rw [Field.getLsbD_insert _ (by decide)]
  simp only [Field.cmderr]
  interval_cases i <;> simp

/-- The word of `sberrorClear` (R171). -/
theorem sberrorClear_word (x : Word) : Field.sberror.insert 7 x = x ||| 0x7000 := by
  apply BitVec.eq_of_getLsbD_eq
  intro i hi
  rw [Field.getLsbD_insert _ (by decide)]
  simp only [Field.sberror]
  interval_cases i <;> simp

/-- The word of `sbbusyerrorClear` (R172). -/
theorem sbbusyerrorClear_word (x : Word) : Field.sbbusyerror.insert 1 x = x ||| 0x00400000 := by
  apply BitVec.eq_of_getLsbD_eq
  intro i hi
  rw [Field.getLsbD_insert _ (by decide)]
  simp only [Field.sbbusyerror]
  interval_cases i <;> simp

/-- The word that ends the streaming (R245). -/
theorem endStreaming_word (x : Word) : Field.sbreadondata.insert 0 x = x &&& ~~~0x00008000 := by
  apply BitVec.eq_of_getLsbD_eq
  intro i hi
  rw [Field.getLsbD_insert _ (by decide)]
  simp only [Field.sbreadondata]
  interval_cases i <;> simp

/-- The configuration word of a transfer (R234). -/
theorem configWord_eq (u : Nat) (several isRead : Bool) (x : Word) (hu : u = 1 ∨ u = 2 ∨ u = 4) :
    configWord (unitCode u) several isRead x = transferWord u several isRead x := by
  apply BitVec.eq_of_getLsbD_eq
  intro i hi
  unfold configWord transferWord unitCode
  rw [Field.getLsbD_insert _ (by decide), Field.getLsbD_insert _ (by decide),
    Field.getLsbD_insert _ (by decide), Field.getLsbD_insert _ (by decide)]
  simp only [Field.sbreadondata, Field.sbreadonaddr, Field.sbautoincrement, Field.sbaccess]
  rcases hu with rfl | rfl | rfl <;> cases several <;> cases isRead <;>
    interval_cases i <;> simp

/-- A byte the request carries (R121). -/
theorem State.writeByte_eq {s : State} {i : Nat} (h : i < s.wdata.length) : s.writeByte i = s.wdata.getD i 0 := by
  simp [State.writeByte, List.getD, h]

/-- A unit is packed from its own bytes alone (R232). -/
theorem packUnit_congr {f g : Nat → Byte} {i u : Nat} (h : ∀ j, j < i * u + u → f j = g j) :
    packUnit f i u = packUnit g i u := by
  unfold packUnit
  have step : ∀ (l : List Nat) (x : Word), (∀ j ∈ l, j < u) →
      l.foldl (fun x j => x ||| ((f (i * u + j)).setWidth 32 <<< (8 * j))) x =
        l.foldl (fun x j => x ||| ((g (i * u + j)).setWidth 32 <<< (8 * j))) x := by
    intro l
    induction l with
    | nil => simp
    | cons a l ih =>
      intro x hl
      have ha : a < u := hl a (by simp)
      simp only [List.foldl_cons]
      rw [h (i * u + a) (by omega), ih _ (fun j hj => hl j (by simp [hj]))]
  exact step _ _ (by simp)

/-- A unit has 1, 2 or 4 bytes (R231). -/
theorem unitSize_mem (a len : Word) : unitSize a len = 1 ∨ unitSize a len = 2 ∨ unitSize a len = 4 := by
  unfold unitSize
  split
  · exact .inr (.inr rfl)
  · split
    · exact .inr (.inl rfl)
    · exact .inl rfl

/-- The units are the length, exactly (R231). -/
theorem unitCount_mul (a len : Word) : unitCount a len * unitSize a len = len.toNat := by
  have h : unitSize a len ∣ len.toNat := by
    unfold unitSize
    split
    · omega
    · split <;> omega
  exact Nat.div_mul_cancel h

/-- The number of units fits a word. -/
theorem unitCount_lt (a len : Word) : unitCount a len < 2 ^ 32 := by
  have h1 := unitCount_mul a len
  have h2 : 1 ≤ unitSize a len := by rcases unitSize_mem a len with h | h | h <;> omega
  have h3 : unitCount a len * 1 ≤ unitCount a len * unitSize a len := Nat.mul_le_mul_left _ h2
  have h4 := len.isLt
  omega

end Sys2Proof.Machine
end

