-- ==== Sys2Proof/Laws/Engines.lean ====
section
/-!
SUPPORT. The shared operations of the three engines on a script of transport answers: one lemma per operation and
way it goes, each one record update.
-/

namespace Sys2Proof.Machine

variable {s : State} {rest : List Answer}

/-! ### Hart control (43_hart_control.md) -/

/-- Select and request, up to the poll (R261, R262). -/
theorem requestSteps_scripted (h : BitVec 20) (request clear : Field) (cond : Word → Bool) {k1 k2 : Word}
    (hs : s.answers = .ok k1 :: .ok k2 :: rest) :
    requestSteps h request clear cond s = pollOrStop .dmstatus cond { s with
      sh := s.sh.set .dmcontrol k2
      hcState := .polling
      answers := rest
      events := s.events ++ [wrote .dmcontrol (selectWord h (s.shadow .dmcontrol)) k1,
        wrote .dmcontrol (requestWord h request clear k1) k2, .engine .hc .issued, .engine .hc .polling] } := by
  rw [requestSteps, selectSteps, withHartsel_eq, wr_setShadow hs, Res.andThen, wr_setShadow rfl, Res.andThen]
  congr 1
  simp [State.setEngine, State.shadow]

/-! ### Abstract commands (41_abstract_command.md) -/

/-- Step 1 on a clean shadow does nothing (R203, R204). -/
theorem prepareCommand_clean (h : cleanCommand (s.shadow .abstractcs) = true) :
    prepareCommand s = .go () s := by
  obtain ⟨h1, h2⟩ := (cleanCommand_iff _).mp h
  rw [prepareCommand, isBusy_eq, h1, if_neg (by simp), clearStaleCmderr, if_pos h2]

/-- Step 1 on a stale `cmderr` clears it (R204). -/
theorem prepareCommand_stale {k w : Word} (hb : (s.shadow .abstractcs).getLsbD 12 = false)
    (he : (s.shadow .abstractcs).extractLsb' 8 3 ≠ 0) (hs : s.answers = .ok k :: .ok w :: rest) :
    prepareCommand s = .go () { s with
      sh := s.sh.set .abstractcs w
      answers := rest
      events := s.events ++ [wrote .abstractcs (s.shadow .abstractcs ||| 0x00000700) k,
        fetched .abstractcs w] } := by
  rw [prepareCommand, isBusy_eq, hb, if_neg (by simp), clearStaleCmderr, cmderrCode_eq, if_neg he,
    State.putField, cmderrClear_word, wr_setShadow hs, Res.andThen, rd_scripted rfl]
  simp

/-- Step 1 on a stale `busy` waits it out, then goes on (R203). -/
theorem prepareCommand_busy {ws : List Word} {w : Word} (hB : (s.shadow .abstractcs).getLsbD 12 = true)
    (hb : ∀ b ∈ ws, b.getLsbD 12 = true) (hs : s.answers = okAll (ws ++ [w]) ++ rest)
    (hw : w.getLsbD 12 = false) (hl : ws.length + 1 ≤ s.pollLimit.toNat) :
    prepareCommand s = prepareCommand { s with
      sh := s.sh.set .abstractcs w
      pollCount := BitVec.ofNat 32 (ws.length + 1)
      answers := rest
      events := s.events ++ polled .abstractcs (ws ++ [w]) } := by
  rw [prepareCommand, isBusy_eq, hB, if_pos rfl,
    pollOrStop_ready hs (fun b h => by rw [notBusy_eq, hb b h]; rfl) (by rw [notBusy_eq, hw]; rfl) hl,
    Res.andThen, prepareCommand,
    if_neg (by simp only [State.shadow, RegFile.get_set_same, isBusy_eq, hw]; simp)]

/-- Step 1 on a stale `busy` that never clears (R203, R305). -/
theorem prepareCommand_expired {ws : List Word} (hB : (s.shadow .abstractcs).getLsbD 12 = true)
    (hb : ∀ b ∈ ws, b.getLsbD 12 = true) (hs : s.answers = okAll ws ++ rest)
    (hl : ws.length = s.pollLimit.toNat) :
    prepareCommand s = .stop .pollTimeout { s with
      sh := s.sh.setLast .abstractcs ws
      pollCount := s.pollLimit
      answers := rest
      events := s.events ++ polled .abstractcs ws } := by
  rw [prepareCommand, isBusy_eq, hB, if_pos rfl,
    pollOrStop_expired hs (fun b h => by rw [notBusy_eq, hb b h]; rfl) hl, Res.andThen]
  congr 2
  rw [hl]; simp

/-- Steps 3 to 6 up to the completion wait (R206, R207). -/
theorem issueCommand_wait (W : Bool) (word : Word) {k : Word} (hs : s.answers = .ok k :: rest) :
    issueCommand W word s = (pollOrStop .abstractcs notBusy { s with
      sh := s.sh.set .command k
      acState := .polling
      answers := rest
      events := s.events ++ [wrote .command word k, .engine .ac .issued, .engine .ac .polling] }).andThen
        fun _ t => completeCommand W t := by
  rw [issueCommand, wr_setShadow hs, Res.andThen]
  congr 2
  simp [State.setEngine]

/-- Steps 3 to 6 of a read access that completes (R206 to R209). -/
theorem commandEnd_read (word : Word) {k : Word} {busy : List Word} {c v : Word}
    (hs : s.answers = .ok k :: okAll (busy ++ [c]) ++ .ok v :: rest)
    (hb : ∀ b ∈ busy, b.getLsbD 12 = true) (hc : cleanCommand c = true)
    (hl : busy.length + 1 ≤ s.pollLimit.toNat) :
    commandEnd (issueCommand false word s) = { s with
      sh := ((s.sh.set .command k).set .abstractcs c).set (.data 0) v
      acState := .done
      pollCount := BitVec.ofNat 32 (busy.length + 1)
      answers := rest
      events := s.events ++ commandEvents word k (busy ++ [c]) ++
        [fetched (.data 0) v, .engine .ac .done, answeredOk v] } := by
  obtain ⟨h1, h2⟩ := (cleanCommand_iff _).mp hc
  rw [issueCommand_wait false word hs, pollOrStop_ready (ws := busy) (w := c) (rest := .ok v :: rest) ?_ ?_
    ?_ ?_, Res.andThen, completeCommand]
  rotate_left
  · rfl
  · exact fun b h => by rw [notBusy_eq, hb b h]; rfl
  · rw [notBusy_eq, h1]; rfl
  · exact hl
  simp only [State.shadow, RegFile.get_set_same, h2, if_true, Bool.false_eq_true, if_false]
  rw [rd_scripted rfl]
  simp [Res.andThen, commandEnd, State.setEngine, State.respondOk, State.respond, State.record, answeredOk,
    Response.okWith, commandEvents]

/-- Steps 3 to 6 of a write access that completes (R206 to R209). -/
theorem commandEnd_write (word : Word) {k : Word} {busy : List Word} {c : Word}
    (hs : s.answers = .ok k :: okAll (busy ++ [c]) ++ rest) (hb : ∀ b ∈ busy, b.getLsbD 12 = true)
    (hc : cleanCommand c = true) (hl : busy.length + 1 ≤ s.pollLimit.toNat) :
    commandEnd (issueCommand true word s) = { s with
      sh := (s.sh.set .command k).set .abstractcs c
      acState := .done
      pollCount := BitVec.ofNat 32 (busy.length + 1)
      answers := rest
      events := s.events ++ commandEvents word k (busy ++ [c]) ++ [.engine .ac .done, answeredOk 0] } := by
  obtain ⟨h1, h2⟩ := (cleanCommand_iff _).mp hc
  rw [issueCommand_wait true word hs, pollOrStop_ready (ws := busy) (w := c) (rest := rest) ?_ ?_ ?_ ?_,
    Res.andThen, completeCommand]
  rotate_left
  · rfl
  · exact fun b h => by rw [notBusy_eq, hb b h]; rfl
  · rw [notBusy_eq, h1]; rfl
  · exact hl
  simp only [State.shadow, RegFile.get_set_same, h2, if_true]
  simp [commandEnd, State.setEngine, State.respondOk, State.respond, State.record, answeredOk,
    Response.okWith, commandEvents]

/-- Steps 3 to 6 of a command that fails at its completion wait (R207, R208). -/
theorem commandEnd_fails (W : Bool) (word : Word) {k : Word} {ws : List Word} {x : Stop}
    (hs : s.answers = .ok k :: okAll ws ++ rest) (hf : commandFails s.pollLimit.toNat ws x) :
    commandEnd (issueCommand W word s) = { s with
      sh := (s.sh.set .command k).setLast .abstractcs ws
      acState := .failed
      pollCount := BitVec.ofNat 32 ws.length
      answers := rest
      events := s.events ++ commandEvents word k ws ++
        [.engine .ac .failed, .response (x.response 0) []] } := by
  rw [issueCommand_wait W word hs]
  cases x with
  | transportError e => exact hf.elim
  | busError c => exact hf.elim
  | pollTimeout =>
    obtain ⟨hl, hb⟩ := hf
    rw [pollOrStop_expired (ws := ws) (rest := rest) ?_ ?_ ?_]
    rotate_left
    · rfl
    · exact fun b h => by rw [notBusy_eq, hb b h]; rfl
    · exact hl
    simp [Res.andThen, commandEnd, State.setEngine, State.respond, State.record, commandEvents]
  | cmdError c =>
    obtain ⟨hl, busy, w, rfl, hb, hw, hc, h0⟩ := hf
    rw [pollOrStop_ready (ws := busy) (w := w) (rest := rest) ?_ ?_ ?_ ?_, Res.andThen, completeCommand]
    rotate_left
    · rfl
    · exact fun b h => by rw [notBusy_eq, hb b h]; rfl
    · rw [notBusy_eq, hw]; rfl
    · simpa using hl
    simp only [State.shadow, RegFile.get_set_same, cmderrCode_eq, hc, h0, if_false]
    simp [commandEnd, State.setEngine, State.respond, State.record, commandEvents]

/-- The whole procedure, once step 1 has left the state `t` and nothing is staged (R202). -/
theorem accessReg_unstaged {t : State} (h : prepareCommand s = .go () t) (W : Bool) (regno : BitVec 16) :
    accessReg W regno none s = commandEnd (issueCommand W (commandWord W regno) t) := by
  simp [accessReg, h, Res.andThen, stageValue]

/-- The whole procedure, once step 1 has left the state `t` and a value is staged (R202, R205). -/
theorem accessReg_staged {t : State} (h : prepareCommand s = .go () t) (W : Bool) (regno : BitVec 16) (v : Word)
    {k : Word} (hs : t.answers = .ok k :: rest) :
    accessReg W regno (some v) s =
      commandEnd (issueCommand W (commandWord W regno) (t.afterStaging v k rest)) := by
  simp only [accessReg, h, Res.andThen, stageValue]
  rw [wr_setShadow hs]
  rfl

/-- Every instruction with a command word is the whole procedure with that word and what it stages (R202,
R210 to R215, log 5). -/
theorem exec_of_commandWord {i : Instr} {isRead : Bool} {word : Word}
    (h : commandWord? i = some (isRead, word)) : ∃ regno, word = commandWord (!isRead) regno ∧
      ∀ s, exec i s = .next (accessReg (!isRead) regno (stagedValue? i) s) := by
  cases i <;> simp only [commandWord?, Option.some.injEq, Prod.mk.injEq, reduceCtorEq] at h <;>
    obtain ⟨rfl, rfl⟩ := h
  case readGpr reg => exact ⟨gprRegno reg, (gprWord_eq false reg).symm, fun _ => rfl⟩
  case writeGpr reg v => exact ⟨gprRegno reg, (gprWord_eq true reg).symm, fun _ => rfl⟩
  case readFpr reg => exact ⟨fprRegno reg, (fprWord_eq false reg).symm, fun _ => rfl⟩
  case writeFpr reg v => exact ⟨fprRegno reg, (fprWord_eq true reg).symm, fun _ => rfl⟩
  case readCsr csr => exact ⟨csrRegno csr, (csrWord_eq false csr).symm, fun _ => rfl⟩
  case writeCsr csr v => exact ⟨csrRegno csr, (csrWord_eq true csr).symm, fun _ => rfl⟩
  case cmdReadGpr reg => exact ⟨gprRegno reg, (gprWord_eq false reg).symm, fun _ => rfl⟩
  case cmdWriteGpr reg => exact ⟨gprRegno reg, (gprWord_eq true reg).symm, fun _ => rfl⟩
  case cmdReadFpr reg => exact ⟨fprRegno reg, (fprWord_eq false reg).symm, fun _ => rfl⟩
  case cmdWriteFpr reg => exact ⟨fprRegno reg, (fprWord_eq true reg).symm, fun _ => rfl⟩
  case cmdReadCsr csr => exact ⟨csrRegno csr, (csrWord_eq false csr).symm, fun _ => rfl⟩
  case cmdWriteCsr csr => exact ⟨csrRegno csr, (csrWord_eq true csr).symm, fun _ => rfl⟩

/-- An instruction that comes to steps 3 to 6 at `t` runs them (R206 to R209). -/
theorem commandRunsFrom_of_eq {i : Instr} {isRead : Bool} {word : Word} {t : State}
    (h : exec i s = .next (commandEnd (issueCommand (!isRead) word t))) : CommandRunsFrom i isRead word s t := by
  refine ⟨?_, fun k ws x rest hs hf => h.trans (congrArg _ (commandEnd_fails _ _ hs hf))⟩
  cases isRead with
  | false => exact fun k busy c rest hs hb hc hl => h.trans (congrArg _ (commandEnd_write _ hs hb hc hl))
  | true => exact fun k busy c v rest hs hb hc hl => h.trans (congrArg _ (commandEnd_read _ hs hb hc hl))

/-! ### Memory transfers (42_system_bus.md) -/

/-- The preconditions on a clean shadow do nothing (R233). -/
theorem prepareTransfer_clean (h : cleanBus (s.shadow .sbcs) = true) : prepareTransfer s = .go () s := by
  obtain ⟨h1, h2⟩ := (cleanBus_iff _).mp h
  rw [prepareTransfer, isSbBusy_eq, h1, if_neg (by simp), clearStaleSberror, h2, if_neg (by simp)]

/-- The word that clears both sticky fields (R233). -/
theorem clearSticky_word (x : Word) :
    Field.sbbusyerror.insert 1 (Field.sberror.insert 7 x) = x ||| 0x00407000 := by
  rw [sberrorClear_word, sbbusyerrorClear_word, BitVec.or_assoc]; rfl

/-- The preconditions on a stale `sbbusy` wait it out, then go on (R233, R242). -/
theorem prepareTransfer_busy {ws : List Word} {w : Word} (hB : (s.shadow .sbcs).getLsbD 21 = true)
    (hb : ∀ b ∈ ws, b.getLsbD 21 = true) (hw : w.getLsbD 21 = false)
    (hl : ws.length + 1 ≤ s.pollLimit.toNat) (hs : s.answers = okAll (ws ++ [w]) ++ rest) :
    prepareTransfer s = prepareTransfer { s with
      sh := s.sh.set .sbcs w
      pollCount := BitVec.ofNat 32 (ws.length + 1)
      answers := rest
      events := s.events ++ waitEvents (ws ++ [w]) ++ [.engine .sb s.sbState] } := by
  conv_rhs => rw [prepareTransfer,
    if_neg (by simp only [State.shadow, RegFile.get_set_same, isSbBusy_eq, hw]; simp)]
  rw [prepareTransfer, isSbBusy_eq, hB, if_pos rfl,
    pollOrStop_ready (ws := ws) (w := w) (rest := rest) ?_ ?_ ?_ ?_, Res.andThen]
  rotate_left
  · exact hs
  · exact fun b h => by rw [notSbBusy_eq, hb b h]; rfl
  · rw [notSbBusy_eq, hw]; rfl
  · exact hl
  simp [State.setEngine, waitEvents]

/-- The preconditions on a stale `sbbusy` that never clears (R233, R305). -/
theorem prepareTransfer_expired {ws : List Word} (hB : (s.shadow .sbcs).getLsbD 21 = true)
    (hb : ∀ b ∈ ws, b.getLsbD 21 = true) (hl : ws.length = s.pollLimit.toNat) (hs : s.answers = okAll ws ++ rest) :
    prepareTransfer s = .stop .pollTimeout { s with
      sh := s.sh.setLast .sbcs ws
      sbState := .polling
      pollCount := s.pollLimit
      answers := rest
      events := s.events ++ waitEvents ws } := by
  rw [prepareTransfer, isSbBusy_eq, hB, if_pos rfl, pollOrStop_expired (ws := ws) (rest := rest) ?_ ?_ ?_,
    Res.andThen]
  rotate_left
  · exact hs
  · exact fun b h => by rw [notSbBusy_eq, hb b h]; rfl
  · exact hl
  simp [waitEvents, State.setEngine, hl]

/-- The preconditions on a sticky field clear both (R233). -/
theorem prepareTransfer_stale {k w : Word} (hB : (s.shadow .sbcs).getLsbD 21 = false)
    (hc : cleanBus (s.shadow .sbcs) = false) (hs : s.answers = .ok k :: .ok w :: rest) :
    prepareTransfer s = .go () { s with
      sh := s.sh.set .sbcs w
      answers := rest
      events := s.events ++ [wrote .sbcs (s.shadow .sbcs ||| 0x00407000) k, fetched .sbcs w] } := by
  have hst : sbSticky (s.shadow .sbcs) = true := by
    by_contra h
    rw [Bool.not_eq_true] at h
    rw [(cleanBus_iff _).mpr ⟨hB, h⟩] at hc
    cases hc
  have e : (s.putField .sbcs .sberror 7).putField .sbcs .sbbusyerror 1 =
      s.setShadow .sbcs (s.shadow .sbcs ||| 0x00407000) := by
    rw [← clearSticky_word]
    simp [State.putField, State.setShadow, State.shadow]
  rw [prepareTransfer, isSbBusy_eq, hB, if_neg (by simp), clearStaleSberror, if_pos hst, e, wr_setShadow hs,
    Res.andThen, rd_scripted rfl]
  simp [State.shadow]

/-- Configuration and address (R234, R235). -/
theorem startTransfer_scripted (a : Word) {u : Nat} (hu : u = 1 ∨ u = 2 ∨ u = 4) (several isRead : Bool)
    {k1 k2 : Word} (hs : s.answers = .ok k1 :: .ok k2 :: rest) :
    startTransfer a (unitCode u) several isRead s = .go () { s with
      sh := (s.sh.set .sbcs k1).set (.sbaddress 0) k2
      sbState := .issued
      answers := rest
      events := s.events ++ startEvents (transferWord u several isRead (s.shadow .sbcs)) a k1 k2 } := by
  rw [startTransfer, configWord_eq _ _ _ _ hu, wr_setShadow hs, Res.andThen]
  simp only [State.setEngine]
  rw [wr_setShadow rfl]
  simp [startEvents]

/-- A wait that ends well (R236). -/
theorem waitBus_good {w : Wait} (hw : w.good s.pollLimit.toNat) (hs : s.answers = okAll w.words ++ rest) :
    waitBus s = .go () { s with
      sh := s.sh.set .sbcs w.ready
      sbState := .polling
      pollCount := BitVec.ofNat 32 w.words.length
      answers := rest
      events := s.events ++ waitEvents w.words } := by
  obtain ⟨hb, hr, hl⟩ := hw
  obtain ⟨h1, h2⟩ := (ready_iff _).mp hr
  rw [waitBus, pollOrStop_ready (ws := w.busy) (w := w.ready) (rest := rest) ?_ ?_ ?_ ?_, Res.andThen]
  rotate_left
  · exact hs
  · exact fun b h => by rw [notSbBusy_eq, hb b h]; rfl
  · rw [notSbBusy_eq, h1]; rfl
  · simpa [Wait.words] using hl
  simp only [State.shadow, RegFile.get_set_same, h2, if_true]
  simp [Wait.words, waitEvents, State.setEngine]

/-- A wait that fails the transfer (R236). -/
theorem waitBus_fails {ws : List Word} {x : Stop} (hf : busFails s.pollLimit.toNat ws x)
    (hs : s.answers = okAll ws ++ rest) :
    waitBus s = .stop x { s with
      sh := s.sh.setLast .sbcs ws
      sbState := .polling
      pollCount := BitVec.ofNat 32 ws.length
      answers := rest
      events := s.events ++ waitEvents ws } := by
  cases x with
  | transportError e => exact hf.elim
  | cmdError c => exact hf.elim
  | pollTimeout =>
    obtain ⟨hl, hb⟩ := hf
    rw [waitBus, pollOrStop_expired (ws := ws) (rest := rest) ?_ ?_ ?_, Res.andThen]
    rotate_left
    · exact hs
    · exact fun b h => by rw [notSbBusy_eq, hb b h]; rfl
    · exact hl
    simp [waitEvents, State.setEngine]
  | busError c =>
    obtain ⟨hl, busy, w, rfl, hb, hw, hc, h0⟩ := hf
    rw [waitBus, pollOrStop_ready (ws := busy) (w := w) (rest := rest) ?_ ?_ ?_ ?_, Res.andThen]
    rotate_left
    · exact hs
    · exact fun b h => by rw [notSbBusy_eq, hb b h]; rfl
    · rw [notSbBusy_eq, hw]; rfl
    · simpa using hl
    simp only [State.shadow, RegFile.get_set_same, sberrorCode_eq, hc, h0, if_false]
    simp [waitEvents, State.setEngine]

/-- One unit of a read, not the last of several (R237). -/
theorem readUnit_mid (u : Nat) {n i : Nat} (hi : ¬ (i + 1 = n ∧ 1 < n)) {r : UnitRun}
    (hr : r.wait.good s.pollLimit.toNat) (hs : s.answers = r.readAnswers ++ rest) :
    readUnit u n i s = .go () { s with
      sh := (s.sh.set .sbcs r.wait.ready).set (.sbdata 0) r.word
      sbState := .issued
      pollCount := BitVec.ofNat 32 r.wait.words.length
      unitIdx := BitVec.ofNat 32 i
      rdata := s.rdata ++ unpackUnit r.word u
      answers := rest
      events := s.events ++ r.readEvents } := by
  have h0 : (decide (i + 1 = n) && decide (1 < n)) = false := by simpa using hi
  rw [readUnit, waitBus_good (s := s.setUnitIdx (BitVec.ofNat 32 i)) (rest := .ok r.word :: rest) hr
    (by simp [hs, UnitRun.readAnswers]), Res.andThen, endStreaming, h0, if_neg (by simp), Res.andThen]
  simp only [State.setEngine]
  rw [rd_scripted rfl]
  simp [Res.andThen, State.deliver, State.shadow, State.setUnitIdx, UnitRun.readEvents]

/-- The last unit of a read (R237, R245). -/
theorem readUnit_last (u : Nat) {n i : Nat} (hi : i + 1 = n) {r : UnitRun}
    (hr : r.wait.good s.pollLimit.toNat) {k3 : Word}
    (hs : s.answers = r.lastReadAnswers (decide (1 < n)) k3 ++ rest) :
    readUnit u n i s = .go () { s with
      sh := (s.sh.set .sbcs (if decide (1 < n) = true then k3 else r.wait.ready)).set (.sbdata 0) r.word
      sbState := .issued
      pollCount := BitVec.ofNat 32 r.wait.words.length
      unitIdx := BitVec.ofNat 32 i
      rdata := s.rdata ++ unpackUnit r.word u
      answers := rest
      events := s.events ++ r.lastReadEvents (decide (1 < n)) k3 } := by
  by_cases hn : 1 < n
  · simp only [hn, decide_true, UnitRun.lastReadAnswers, if_true] at hs ⊢
    rw [readUnit, waitBus_good (s := s.setUnitIdx (BitVec.ofNat 32 i)) (rest := .ok k3 :: .ok r.word :: rest)
      hr (by simp [hs]), Res.andThen, endStreaming]
    simp only [hi, hn, decide_true, Bool.and_self, if_true]
    rw [State.putField, endStreaming_word, wr_setShadow rfl, Res.andThen]
    simp only [State.setEngine]
    rw [rd_scripted rfl]
    simp [Res.andThen, State.deliver, State.shadow, State.setUnitIdx, UnitRun.lastReadEvents]
  · rw [readUnit_mid (rest := rest) u (by omega) hr
      (by simpa [hn, UnitRun.lastReadAnswers, UnitRun.readAnswers] using hs)]
    simp [hn, UnitRun.lastReadEvents, UnitRun.readEvents]

/-- The units of a read before the last (R237). -/
theorem readUnits_mid (u n : Nat) (units : List UnitRun) : ∀ (s : State) (k : Nat) (rest : List Answer),
    units.length + k ≤ n → 0 < k → (∀ r ∈ units, r.wait.good s.pollLimit.toNat) →
    s.answers = units.flatMap UnitRun.readAnswers ++ rest →
    ∃ t, readUnits u n (units.length + k) s = readUnits u n k t ∧
      t = { s with
        sh := t.sh
        sbState := t.sbState
        pollCount := t.pollCount
        unitIdx := t.unitIdx
        rdata := s.rdata ++ delivered u (units.map UnitRun.word)
        answers := rest
        events := s.events ++ units.flatMap UnitRun.readEvents } ∧
      ∃ x y, t.sh = (s.sh.set .sbcs x).set (.sbdata 0) y := by
  induction units with
  | nil =>
    intro s k rest _ _ _ hs
    refine ⟨s, by simp, ?_, s.shadow .sbcs, s.shadow (.sbdata 0), ?_⟩
    · simp at hs; simp [delivered, ← hs]
    · simp [State.shadow]
  | cons r units ih =>
    intro s k rest hk hk0 hr hs
    simp only [List.length_cons] at hk
    have e : (r :: units).length + k = (units.length + k) + 1 := by simp; omega
    rw [e, readUnits, readUnit_mid (rest := units.flatMap UnitRun.readAnswers ++ rest) u (by omega)
      (hr r (by simp)) (by simp [hs]), Res.andThen]
    obtain ⟨t, h1, h2, x, y, h4⟩ := ih { s with
      sh := (s.sh.set .sbcs r.wait.ready).set (.sbdata 0) r.word
      sbState := .issued
      pollCount := BitVec.ofNat 32 r.wait.words.length
      unitIdx := BitVec.ofNat 32 (n - (units.length + k + 1))
      rdata := s.rdata ++ unpackUnit r.word u
      answers := units.flatMap UnitRun.readAnswers ++ rest
      events := s.events ++ r.readEvents } k rest (by omega) hk0 (fun q hq => hr q (by simp [hq])) rfl
    refine ⟨t, h1, ?_, x, y, ?_⟩
    · rw [h2]; simp [delivered]
    · rw [h4]
      simp only
      rw [RegFile.set_comm (r := .sbdata 0) (q := .sbcs) _ _ _ (by decide), RegFile.set_set, RegFile.set_set]

/-- A unit of a write, up to its wait (R238). -/
theorem writeUnit_start (u i : Nat) (hd : i * u + u ≤ s.wdata.length) {k : Word}
    (hs : s.answers = .ok k :: rest) :
    writeUnit u i s = waitBus { s with
      sh := s.sh.set (.sbdata 0) k
      sbState := .issued
      unitIdx := BitVec.ofNat 32 i
      answers := rest
      events := s.events ++ [wrote (.sbdata 0) (packUnit (fun j => s.wdata.getD j 0) i u) k,
        .engine .sb .issued] } := by
  rw [writeUnit, packUnit_congr (f := s.writeByte) (g := fun j => s.wdata.getD j 0)
    (fun j hj => State.writeByte_eq (by omega)), wr_setShadow (s := s.setUnitIdx (BitVec.ofNat 32 i)) hs,
    Res.andThen]
  simp [State.setEngine, State.setUnitIdx]

/-- A unit of a write whose wait ends well (R238). -/
theorem writeUnit_good (u i : Nat) (hd : i * u + u ≤ s.wdata.length) {r : UnitRun}
    (hr : r.wait.good s.pollLimit.toNat) (hs : s.answers = r.writeAnswers ++ rest) :
    writeUnit u i s = .go () { s with
      sh := (s.sh.set (.sbdata 0) r.word).set .sbcs r.wait.ready
      sbState := .polling
      pollCount := BitVec.ofNat 32 r.wait.words.length
      unitIdx := BitVec.ofNat 32 i
      answers := rest
      events := s.events ++ writeEvents s.wdata u i [r] } := by
  rw [writeUnit_start (k := r.word) (rest := okAll r.wait.words ++ rest) u i hd
    (by simp [hs, UnitRun.writeAnswers]), waitBus_good (w := r.wait) (rest := rest) ?_ ?_]
  rotate_left
  · exact hr
  · rfl
  simp [writeEvents, waitEvents]

theorem writeEvents_append (d : List Byte) (u : Nat) (xs ys : List UnitRun) : ∀ i,
    writeEvents d u i (xs ++ ys) = writeEvents d u i xs ++ writeEvents d u (i + xs.length) ys := by
  induction xs with
  | nil => simp [writeEvents]
  | cons x xs ih => intro i; simp [writeEvents, ih, Nat.add_assoc, Nat.add_comm 1]

/-- The units of a write before the last (R238). -/
theorem writeUnits_mid (u n : Nat) (units : List UnitRun) :
    ∀ (s : State) (k i : Nat) (rest : List Answer),
    i + (units.length + k) = n → (∀ r ∈ units, r.wait.good s.pollLimit.toNat) → n * u ≤ s.wdata.length →
    s.answers = units.flatMap UnitRun.writeAnswers ++ rest →
    ∃ t, writeUnits u n (units.length + k) s = writeUnits u n k t ∧
      t = { s with
        sh := t.sh
        sbState := t.sbState
        pollCount := t.pollCount
        unitIdx := t.unitIdx
        answers := rest
        events := s.events ++ writeEvents s.wdata u i units } ∧
      ∃ x y, t.sh = (s.sh.set (.sbdata 0) x).set .sbcs y := by
  induction units with
  | nil =>
    intro s k i rest _ _ _ hs
    refine ⟨s, by simp, ?_, s.shadow (.sbdata 0), s.shadow .sbcs, ?_⟩
    · simp at hs; simp [writeEvents, ← hs]
    · simp [State.shadow]
  | cons r units ih =>
    intro s k i rest hk hr hw hs
    simp only [List.length_cons] at hk
    have e : (r :: units).length + k = (units.length + k) + 1 := by simp; omega
    have ei : n - (units.length + k + 1) = i := by omega
    have hm : (i + 1) * u ≤ n * u := Nat.mul_le_mul_right u (by omega)
    rw [Nat.add_mul, Nat.one_mul] at hm
    rw [e, writeUnits, ei, writeUnit_good (rest := units.flatMap UnitRun.writeAnswers ++ rest) u i (by omega)
      (hr r (by simp)) (by simp [hs]), Res.andThen]
    obtain ⟨t, h1, h2, x, y, h4⟩ := ih { s with
      sh := (s.sh.set (.sbdata 0) r.word).set .sbcs r.wait.ready
      sbState := .polling
      pollCount := BitVec.ofNat 32 r.wait.words.length
      unitIdx := BitVec.ofNat 32 i
      answers := units.flatMap UnitRun.writeAnswers ++ rest
      events := s.events ++ writeEvents s.wdata u i [r] } k (i + 1) rest (by omega)
        (fun q hq => hr q (by simp [hq])) hw rfl
    refine ⟨t, h1, ?_, x, y, ?_⟩
    · rw [h2]; simp [writeEvents]
    · rw [h4]
      simp only
      rw [RegFile.set_comm (r := .sbcs) (q := .sbdata 0) _ _ _ (by decide), RegFile.set_set, RegFile.set_set]

end Sys2Proof.Machine
end

