-- ==== Sys2Proof/Laws/Record.lean ====
section
/-!
SUPPORT. Reading the record: what each reader of Safety.lean finds in the empty record, in one event more, and in
two records in a row; and the laws of the engine states as responses and engine writes leave them.
-/

namespace Sys2Proof.Machine

variable (e : Event) (es fs : List Event) (r : RegId) (en : Engine)

@[simp] theorem accessesOf_nil : accessesOf [] = [] := rfl
@[simp] theorem warningsOf_nil : warningsOf [] = [] := rfl
@[simp] theorem responsesOf_nil : responsesOf [] = [] := rfl
@[simp] theorem engineTrace_nil : engineTrace en [] = [] := rfl
@[simp] theorem wordsRead_nil : wordsRead r [] = [] := rfl
@[simp] theorem wordsSent_nil : wordsSent r [] = [] := rfl

@[simp] theorem accessesOf_append : accessesOf (es ++ fs) = accessesOf es ++ accessesOf fs := by
  simp [accessesOf]
@[simp] theorem warningsOf_append : warningsOf (es ++ fs) = warningsOf es ++ warningsOf fs := by
  simp [warningsOf]
@[simp] theorem responsesOf_append : responsesOf (es ++ fs) = responsesOf es ++ responsesOf fs := by
  simp [responsesOf]
@[simp] theorem engineTrace_append : engineTrace en (es ++ fs) = engineTrace en es ++ engineTrace en fs := by
  simp [engineTrace]
@[simp] theorem wordsRead_append : wordsRead r (es ++ fs) = wordsRead r es ++ wordsRead r fs := by
  simp [wordsRead]
@[simp] theorem wordsSent_append : wordsSent r (es ++ fs) = wordsSent r es ++ wordsSent r fs := by
  simp [wordsSent]

@[simp] theorem accessesOf_cons : accessesOf (e :: es) = e.access?.toList ++ accessesOf es := by
  cases h : e.access? <;> simp [accessesOf, h]
@[simp] theorem warningsOf_cons : warningsOf (e :: es) = e.warning?.toList ++ warningsOf es := by
  cases h : e.warning? <;> simp [warningsOf, h]
@[simp] theorem responsesOf_cons : responsesOf (e :: es) = e.response?.toList ++ responsesOf es := by
  cases h : e.response? <;> simp [responsesOf, h]

@[simp] theorem engineTrace_engine (st : EngineState) :
    engineTrace en (.engine en st :: es) = st :: engineTrace en es := by simp [engineTrace]
theorem engineTrace_other {g : Engine} (st : EngineState) (h : g ≠ en) :
    engineTrace en (.engine g st :: es) = engineTrace en es := by simp [engineTrace, h]
@[simp] theorem engineTrace_cycle (a : Access) (x : Answer) :
    engineTrace en (.cycle a x :: es) = engineTrace en es := rfl
@[simp] theorem engineTrace_transportReset :
    engineTrace en (.transportReset :: es) = engineTrace en es := rfl
@[simp] theorem engineTrace_warning (w : Warning) :
    engineTrace en (.warning w :: es) = engineTrace en es := rfl
@[simp] theorem engineTrace_response (x : Response) (d : List Byte) :
    engineTrace en (.response x d :: es) = engineTrace en es := rfl

@[simp] theorem wordsRead_fetched (x : Word) : wordsRead r [fetched r x] = [x] := by
  simp [wordsRead, fetched]
@[simp] theorem wordsSent_wrote (v k : Word) : wordsSent r [wrote r v k] = [v] := by
  simp [wordsSent, wrote]

/-- Responses, warnings and transport resets are no engine's. -/
@[simp] theorem State.record_engineState (s : State) (e : Event) (en : Engine) :
    (s.record e).engineState en = s.engineState en := by cases en <;> rfl
@[simp] theorem State.respond_engineState (s : State) (x : Response) (d : List Byte) (en : Engine) :
    (s.respond x d).engineState en = s.engineState en := by cases en <;> rfl
@[simp] theorem State.warn_engineState (s : State) (w : Warning) (en : Engine) :
    (s.warn w).engineState en = s.engineState en := by cases en <;> rfl
@[simp] theorem State.respondOk_engineState (s : State) (v : Word) (en : Engine) :
    (s.respondOk v).engineState en = s.engineState en := by cases en <;> rfl
@[simp] theorem State.refuse_engineState (s : State) (en : Engine) :
    s.refuse.engineState en = s.engineState en := by cases en <;> rfl
@[simp] theorem State.setShadow_engineState (s : State) (r : RegId) (v : Word) (en : Engine) :
    (s.setShadow r v).engineState en = s.engineState en := by cases en <;> rfl
@[simp] theorem State.setPollLimit_engineState (s : State) (v : Word) (en : Engine) :
    (s.setPollLimit v).engineState en = s.engineState en := by cases en <;> rfl
@[simp] theorem State.setPretty_engineState (s : State) (r : RegId) (b : Bool) (en : Engine) :
    (s.setPretty r b).engineState en = s.engineState en := by cases en <;> rfl

end Sys2Proof.Machine
end

