-- ==== Sys2Proof/Laws/Frame.lean ====
section
/-!
SUPPORT. What a part of an operation leaves alone: one relation between the state before and after, the events in
between, and one lemma per shared operation that says it holds. A claim about every instruction cites these and
unfolds no micro-step. The registers a part touches and what else it may write are parameters, so that a lemma says
as little as its user needs.
-/

namespace Sys2Proof.Machine

/-- Is the event one that a part of an operation on registers `p` with the engine `en` may record? -/
def Event.within (p : RegId → Bool) (en : Option Engine) : Event → Bool
  | .cycle a _ => a.drives p
  | .engine e _ => decide (en = some e)
  | .transportReset | .warning _ | .response _ _ => false

/-- From `s` the block went to `t` and recorded `es`: only shadows of `p`, the engine `en`, the counter of an
engine's polls and, if `mv`, the units and bytes of a memory transfer may differ, and every answer used is one
access of `es`. -/
structure Ran (p : RegId → Bool) (en : Option Engine) (mv : Bool) (s t : State) (es : List Event) :
    Prop where
  events : t.events = s.events ++ es
  answers : t.answers = s.answers.drop (accessesOf es).length
  shadow : ∀ r, p r = false → t.sh.get r = s.sh.get r
  engine : ∀ e, en ≠ some e → t.engineState e = s.engineState e
  pollCount : en = none → t.pollCount = s.pollCount
  unitIdx : mv = false → t.unitIdx = s.unitIdx
  rdata : mv = false → t.rdata = s.rdata
  pollLimit : t.pollLimit = s.pollLimit
  pretty : t.pretty = s.pretty
  inputs : t.inputs = s.inputs
  wdata : t.wdata = s.wdata
  log : ∀ e ∈ es, e.within p en = true

/-- No cycle of these events was answered `Err`. -/
def noErr (es : List Event) : Prop := ∀ a e, Event.cycle a (.err e) ∉ es

/-- The events end as the stop says: with the failed cycle for a transport error, else without one. -/
def Stop.ends : Stop → List Event → Prop
  | .transportError e, es => ∃ pre a, es = pre ++ [.cycle a (.err e)] ∧ noErr pre
  | .pollTimeout, es | .cmdError _, es | .busError _, es => noErr es

/-- Which engine a stop can come from (60_exceptions.md R301 to R305); the code of a class error is not 0. -/
def Stop.raisedBy (en : Option Engine) : Stop → Prop
  | .transportError _ => True
  | .pollTimeout => en ≠ none
  | .cmdError c => en = some .ac ∧ c ≠ 0
  | .busError c => en = some .sb ∧ c ≠ 0

/-- A part of an operation ran in this way, whichever way it ended. -/
def Res.Runs {α : Type} (p : RegId → Bool) (en : Option Engine) (mv : Bool) (s : State) : Res α → Prop
  | .go _ t => ∃ es, Ran p en mv s t es ∧ noErr es
  | .stop x t => ∃ es, Ran p en mv s t es ∧ x.ends es ∧ x.raisedBy en

theorem noErr_nil : noErr [] := fun _ _ h => by simp at h

theorem noErr_append {es fs : List Event} (h : noErr es) (g : noErr fs) : noErr (es ++ fs) :=
  fun a e m => (List.mem_append.mp m).elim (h a e) (g a e)

theorem noErr_single {e : Event} (h : ∀ a n, e ≠ .cycle a (.err n)) : noErr [e] :=
  fun a n m => h a n (List.mem_singleton.mp m).symm

theorem Stop.ends_append {x : Stop} {es fs : List Event} (h : noErr es) (g : x.ends fs) :
    x.ends (es ++ fs) := by
  cases x with
  | transportError e =>
    obtain ⟨pre, a, rfl, hp⟩ := g
    exact ⟨es ++ pre, a, by simp, noErr_append h hp⟩
  | pollTimeout => exact noErr_append h g
  | cmdError c => exact noErr_append h g
  | busError c => exact noErr_append h g

variable {p : RegId → Bool} {en : Option Engine} {mv : Bool} {s t u : State} {es fs : List Event}

theorem Ran.refl (p : RegId → Bool) (en : Option Engine) (mv : Bool) (s : State) : Ran p en mv s s [] := by
  constructor <;> simp [accessesOf]

/-- Two runs in a row. -/
theorem Ran.trans (h : Ran p en mv s t es) (g : Ran p en mv t u fs) : Ran p en mv s u (es ++ fs) where
  events := by rw [g.events, h.events, List.append_assoc]
  answers := by rw [g.answers, h.answers, List.drop_drop, accessesOf_append, List.length_append]
  shadow r hr := (g.shadow r hr).trans (h.shadow r hr)
  engine e he := (g.engine e he).trans (h.engine e he)
  pollCount he := (g.pollCount he).trans (h.pollCount he)
  unitIdx he := (g.unitIdx he).trans (h.unitIdx he)
  rdata he := (g.rdata he).trans (h.rdata he)
  pollLimit := g.pollLimit.trans h.pollLimit
  pretty := g.pretty.trans h.pretty
  inputs := g.inputs.trans h.inputs
  wdata := g.wdata.trans h.wdata
  log e he := (List.mem_append.mp he).elim (h.log e) (g.log e)

/-- A write of a shadow of `p` records nothing. -/
theorem Ran.setShadow {r : RegId} (hr : p r = true) (v : Word) : Ran p en mv s (s.setShadow r v) [] where
  events := by simp
  answers := by simp [accessesOf]
  shadow q hq := by
    rw [State.setShadow_sh, RegFile.get_set_ne _ _ (fun e => by rw [e, hr] at hq; cases hq)]
  engine e _ := by cases e <;> rfl
  pollCount _ := rfl
  unitIdx _ := rfl
  rdata _ := rfl
  pollLimit := rfl
  pretty := rfl
  inputs := rfl
  wdata := rfl
  log := by simp

/-- A write of the engine's state register records itself. -/
theorem Ran.setEngine (g : Engine) (st : EngineState) :
    Ran p (some g) mv s (s.setEngine g st) [.engine g st] where
  events := s.setEngine_events g st
  answers := by cases g <;> rfl
  shadow r _ := by cases g <;> rfl
  engine e he := by
    rw [State.engineState_setEngine, if_neg (fun h => he (by rw [h]))]
  pollCount h := by cases h
  unitIdx _ := by cases g <;> rfl
  rdata _ := by cases g <;> rfl
  pollLimit := by cases g <;> rfl
  pretty := by cases g <;> rfl
  inputs := by cases g <;> rfl
  wdata := by cases g <;> rfl
  log := by simp [Event.within]

/-- The counter of a polling loop belongs to the engine that polls. -/
theorem Ran.setPollCount (g : Engine) (n : Word) : Ran p (some g) mv s (s.setPollCount n) [] where
  events := by simp
  answers := by simp [accessesOf]
  shadow _ _ := rfl
  engine e _ := by cases e <;> rfl
  pollCount h := by cases h
  unitIdx _ := rfl
  rdata _ := rfl
  pollLimit := rfl
  pretty := rfl
  inputs := rfl
  wdata := rfl
  log := by simp

/-- The unit index belongs to the system bus engine. -/
theorem Ran.setUnitIdx (n : Word) : Ran p (some .sb) true s (s.setUnitIdx n) [] where
  events := by simp
  answers := by simp [accessesOf]
  shadow _ _ := rfl
  engine e _ := by cases e <;> rfl
  pollCount h := by cases h
  unitIdx h := by cases h
  rdata _ := rfl
  pollLimit := rfl
  pretty := rfl
  inputs := rfl
  wdata := rfl
  log := by simp

/-- Delivered bytes belong to the system bus engine. -/
theorem Ran.deliver (bs : List Byte) : Ran p (some .sb) true s (s.deliver bs) [] where
  events := by simp
  answers := by simp [accessesOf]
  shadow _ _ := rfl
  engine e _ := by cases e <;> rfl
  pollCount h := by cases h
  unitIdx _ := rfl
  rdata h := by cases h
  pollLimit := rfl
  pretty := rfl
  inputs := rfl
  wdata := rfl
  log := by simp

/-- A transfer begins with nothing counted and nothing delivered. -/
theorem Ran.beginTransfer : Ran p (some .sb) true s (beginTransfer s) [] where
  events := by simp
  answers := by simp
  shadow _ _ := rfl
  engine e _ := by cases e <;> rfl
  pollCount h := by cases h
  unitIdx h := by cases h
  rdata h := by cases h
  pollLimit := rfl
  pretty := rfl
  inputs := rfl
  wdata := rfl
  log := by simp

/-- The address of a register of `p` is one that accesses on `p` drive. -/
theorem Access.drives_of {r : RegId} {a : Access} (hr : p r = true) (ha : a.addr = r.addr) :
    a.drives p = true := by
  simp only [Access.drives, List.any_eq_true, Bool.and_eq_true, beq_iff_eq]
  exact ⟨r, r.mem_all, hr, ha⟩

/-- One answered cycle on a register of `p`. -/
theorem Ran.afterCycle {r : RegId} {a : Access} (hr : p r = true) (ha : a.addr = r.addr) :
    Ran p en mv s (s.afterCycle a) [.cycle a (s.answerTo a)] where
  events := rfl
  answers := by simp [accessesOf, Event.access?, State.afterCycle]
  shadow _ _ := rfl
  engine e _ := by cases e <;> rfl
  pollCount _ := rfl
  unitIdx _ := rfl
  rdata _ := rfl
  pollLimit := rfl
  pretty := rfl
  inputs := rfl
  wdata := rfl
  log := by simp [Event.within, Access.drives_of hr ha]

theorem Ran.eq_events (h : Ran p en mv s t es) (e : es = fs) : Ran p en mv s t fs := e ▸ h

/-- A part that runs after another. -/
theorem Res.Runs.andThen {α β : Type} {x : Res α} {f : α → State → Res β} (h : x.Runs p en mv s)
    (g : ∀ a t, (f a t).Runs p en mv t) : (x.andThen f).Runs p en mv s := by
  cases x with
  | stop y t => exact h
  | go a t =>
    obtain ⟨es, he, hn⟩ := h
    have := g a t
    simp only [Res.andThen]
    cases hf : f a t with
    | go b u =>
      rw [hf] at this
      obtain ⟨fs, hf, hm⟩ := this
      exact ⟨es ++ fs, he.trans hf, noErr_append hn hm⟩
    | stop y u =>
      rw [hf] at this
      obtain ⟨fs, hf, hm, hx⟩ := this
      exact ⟨es ++ fs, he.trans hf, Stop.ends_append hn hm, hx⟩

/-- A part that runs after a local update. -/
theorem Res.Runs.after {α : Type} {x : Res α} (h : Ran p en mv s t es) (hn : noErr es) (g : x.Runs p en mv t) :
    x.Runs p en mv s := by
  cases x with
  | go a u =>
    obtain ⟨fs, hf, hm⟩ := g
    exact ⟨es ++ fs, h.trans hf, noErr_append hn hm⟩
  | stop y u =>
    obtain ⟨fs, hf, hm, hx⟩ := g
    exact ⟨es ++ fs, h.trans hf, Stop.ends_append hn hm, hx⟩

theorem Res.Runs.go {α : Type} (a : α) : (Res.go a s).Runs p en mv s := ⟨[], Ran.refl p en mv s, noErr_nil⟩

theorem Res.Runs.stop {α : Type} {x : Stop} (h : x.ends []) (hx : x.raisedBy en) :
    (Res.stop x s : Res α).Runs p en mv s :=
  ⟨[], Ran.refl p en mv s, h, hx⟩

/-- `rd R` touches `R` alone (R160). -/
theorem rd_runs {r : RegId} (hr : p r = true) : (rd r s).Runs p en mv s := by
  have hc : Ran p en mv s (s.afterCycle (.read r.addr)) _ := Ran.afterCycle hr rfl
  unfold rd
  cases h : s.answerTo (.read r.addr) with
  | ok x =>
    refine ⟨[.cycle (.read r.addr) (.ok x)], ?_, noErr_single (by simp)⟩
    rw [h] at hc
    exact hc.trans (Ran.setShadow hr x)
  | err e =>
    rw [h] at hc
    exact ⟨_, hc, ⟨[], .read r.addr, rfl, noErr_nil⟩, trivial⟩

/-- `wr R` touches `R` alone (R161). -/
theorem wr_runs {r : RegId} (hr : p r = true) : (wr r s).Runs p en mv s := by
  have hc : Ran p en mv s (s.afterCycle (.write r.addr (s.shadow r))) _ := Ran.afterCycle hr rfl
  unfold wr
  cases h : s.answerTo (.write r.addr (s.shadow r)) with
  | ok k =>
    refine ⟨[.cycle (.write r.addr (s.shadow r)) (.ok k)], ?_, noErr_single (by simp)⟩
    rw [h] at hc
    exact hc.trans (Ran.setShadow hr k)
  | err e =>
    rw [h] at hc
    exact ⟨_, hc, ⟨[], .write r.addr (s.shadow r), rfl, noErr_nil⟩, trivial⟩

/-- A write of a new word touches that register alone. -/
theorem wr_setShadow_runs {r : RegId} (hr : p r = true) (v : Word) : (wr r (s.setShadow r v)).Runs p en mv s :=
  .after (Ran.setShadow hr v) noErr_nil (wr_runs hr)

/-- The polling loop touches the polled register and the counter (R201). -/
theorem pollLoop_runs {r : RegId} {g : Engine} (hr : p r = true) (cond : Word → Bool) (n : Nat) :
    ∀ s : State, (pollLoop r cond n s).Runs p (some g) mv s := by
  induction n with
  | zero => exact fun s => Res.Runs.go false
  | succ n ih =>
    intro s
    rw [pollLoop]
    refine (rd_runs hr).andThen fun _ t => ?_
    refine .after (Ran.setPollCount g (t.pollCount + 1)) noErr_nil ?_
    dsimp only
    split
    · exact Res.Runs.go true
    · exact ih _

theorem poll_runs {r : RegId} {g : Engine} (hr : p r = true) (cond : Word → Bool) (s : State) :
    (poll r cond s).Runs p (some g) mv s :=
  .after (Ran.setPollCount g 0) noErr_nil (pollLoop_runs hr cond _ _)

theorem pollOrStop_runs {r : RegId} {g : Engine} (hr : p r = true) (cond : Word → Bool) (s : State) :
    (pollOrStop r cond s).Runs p (some g) mv s := by
  refine (poll_runs hr cond s).andThen fun ready t => ?_
  split
  · exact Res.Runs.go ()
  · exact Res.Runs.stop noErr_nil (by simp [Stop.raisedBy])

/-- An engine state write, then the rest. -/
theorem Res.Runs.afterEngine {α : Type} {x : Res α} {g : Engine} {st : EngineState}
    (h : x.Runs p (some g) mv (s.setEngine g st)) : x.Runs p (some g) mv s :=
  .after (Ran.setEngine g st) (noErr_single (by simp)) h

/-! ### The engines -/

/-- The registers of hart control (43_hart_control.md R267). -/
def hartRegs (r : RegId) : Bool := decide (r ∈ [RegId.dmcontrol, .dmstatus])

/-- The registers of the abstract command engine (41_abstract_command.md R217). -/
def commandRegs (r : RegId) : Bool := decide (r ∈ [RegId.abstractcs, .command, .data 0])

/-- The registers of the system bus engine (42_system_bus.md R244). -/
def busRegs (r : RegId) : Bool := decide (r ∈ [RegId.sbcs, .sbaddress 0, .sbdata 0])

/-- `selectHart` touches `dmcontrol` alone and no engine (R260). -/
theorem selectSteps_runs (h : BitVec 20) (hp : p .dmcontrol = true) : (selectSteps h s).Runs p en mv s :=
  wr_setShadow_runs hp _

/-- Halt and resume touch `dmcontrol` and `dmstatus` (R261, R262, R267). -/
theorem requestSteps_runs (h : BitVec 20) (request clear : Field) (cond : Word → Bool) :
    (requestSteps h request clear cond s).Runs hartRegs (some .hc) mv s := by
  refine (selectSteps_runs h rfl).andThen fun _ t => ?_
  refine (wr_setShadow_runs rfl _).andThen fun _ u => ?_
  exact .afterEngine (.afterEngine (pollOrStop_runs rfl cond _))

theorem clearStaleCmderr_runs (hp : p .abstractcs = true) : (clearStaleCmderr s).Runs p (some .ac) mv s := by
  unfold clearStaleCmderr
  split
  · exact Res.Runs.go ()
  · exact (wr_setShadow_runs hp _).andThen fun _ t => rd_runs hp

/-- Step 1 touches `abstractcs` alone (R203, R204). -/
theorem prepareCommand_runs (hp : p .abstractcs = true) : (prepareCommand s).Runs p (some .ac) mv s := by
  unfold prepareCommand
  split
  · exact (pollOrStop_runs hp _ _).andThen fun _ t => clearStaleCmderr_runs hp
  · exact clearStaleCmderr_runs hp

/-- Step 2 touches `data0` alone (R205). -/
theorem stageValue_runs (hp : p (.data 0) = true) (staged : Option Word) :
    (stageValue staged s).Runs p (some .ac) mv s := by
  unfold stageValue
  split
  · exact wr_setShadow_runs hp _
  · exact Res.Runs.go ()

/-- Steps 5 and 6 touch `data0` alone (R208, R209). -/
theorem completeCommand_runs (hp : p (.data 0) = true) (write : Bool) :
    (completeCommand write s).Runs p (some .ac) mv s := by
  unfold completeCommand
  split
  · split
    · exact Res.Runs.go 0
    · exact (rd_runs hp).andThen fun _ t => Res.Runs.go _
  next h => exact Res.Runs.stop noErr_nil ⟨rfl, h⟩

/-- Steps 3 to 6 of an abstract command touch its three registers (R206 to R209, R217). -/
theorem issueCommand_runs (write : Bool) (word : Word) :
    (issueCommand write word s).Runs commandRegs (some .ac) mv s := by
  refine (wr_setShadow_runs (by decide) _).andThen fun _ t => ?_
  refine Res.Runs.andThen ?_ fun _ u => completeCommand_runs (by decide) write
  exact .afterEngine (.afterEngine (pollOrStop_runs (by decide) _ _))

/-- The whole of an abstract command touches its three registers (R202, R217). -/
theorem accessReg_runs (write : Bool) (regno : BitVec 16) (staged : Option Word) :
    ((prepareCommand s).andThen fun _ s1 => (stageValue staged s1).andThen fun _ s2 =>
      issueCommand write (commandWord write regno) s2).Runs commandRegs (some .ac) mv s :=
  (prepareCommand_runs (by decide)).andThen fun _ _ => (stageValue_runs (by decide) staged).andThen fun _ _ =>
    issueCommand_runs write _

theorem clearStaleSberror_runs (hp : p .sbcs = true) : (clearStaleSberror s).Runs p (some .sb) mv s := by
  unfold clearStaleSberror
  split
  · refine Res.Runs.andThen ?_ fun _ t => rd_runs hp
    exact .after (Ran.setShadow hp _) noErr_nil (wr_setShadow_runs hp _)
  · exact Res.Runs.go ()

/-- The preconditions of a transfer touch `sbcs` alone (R233). -/
theorem prepareTransfer_runs (hp : p .sbcs = true) : (prepareTransfer s).Runs p (some .sb) mv s := by
  unfold prepareTransfer
  split
  · refine Res.Runs.andThen (.afterEngine (pollOrStop_runs hp _ _)) fun _ t => ?_
    exact .afterEngine (clearStaleSberror_runs hp)
  · exact clearStaleSberror_runs hp

/-- The start of a transfer touches `sbcs` and `sbaddress[0]` (R234, R235). -/
theorem startTransfer_runs (hp : p .sbcs = true) (hq : p (.sbaddress 0) = true) (a code : Word)
    (several isRead : Bool) : (startTransfer a code several isRead s).Runs p (some .sb) mv s :=
  (wr_setShadow_runs hp _).andThen fun _ _ => .afterEngine (wr_setShadow_runs hq _)

/-- A wait touches `sbcs` alone (R236). -/
theorem waitBus_runs (hp : p .sbcs = true) : (waitBus s).Runs p (some .sb) mv s := by
  refine Res.Runs.andThen (.afterEngine (pollOrStop_runs hp _ _)) fun _ t => ?_
  split
  · exact Res.Runs.go ()
  next h => exact Res.Runs.stop noErr_nil ⟨rfl, h⟩

/-- The end of the streaming touches `sbcs` alone (R245). -/
theorem endStreaming_runs (hp : p .sbcs = true) (last : Bool) :
    (endStreaming last s).Runs p (some .sb) mv s := by
  unfold endStreaming
  split
  · exact wr_setShadow_runs hp _
  · exact Res.Runs.go ()

theorem readUnit_runs (u n i : Nat) : (readUnit u n i s).Runs busRegs (some .sb) true s := by
  refine Res.Runs.andThen (.after (Ran.setUnitIdx _) noErr_nil (waitBus_runs (by decide))) fun _ t => ?_
  refine (endStreaming_runs (by decide) _).andThen fun _ t => ?_
  refine Res.Runs.andThen (.afterEngine (rd_runs (by decide))) fun _ t => ?_
  exact ⟨[], Ran.deliver _, noErr_nil⟩

theorem readUnits_runs (u n k : Nat) : ∀ s : State, (readUnits u n k s).Runs busRegs (some .sb) true s := by
  induction k with
  | zero => exact fun s => Res.Runs.go ()
  | succ k ih => exact fun s => (readUnit_runs u n _).andThen fun _ t => ih t

theorem writeUnit_runs (u i : Nat) : (writeUnit u i s).Runs busRegs (some .sb) true s := by
  refine Res.Runs.andThen (.after (Ran.setUnitIdx _) noErr_nil (wr_setShadow_runs (by decide) _)) fun _ t => ?_
  exact .afterEngine (waitBus_runs (by decide))

theorem writeUnits_runs (u n k : Nat) : ∀ s : State, (writeUnits u n k s).Runs busRegs (some .sb) true s := by
  induction k with
  | zero => exact fun s => Res.Runs.go ()
  | succ k ih => exact fun s => (writeUnit_runs u _).andThen fun _ t => ih t

theorem setUnitIdx_runs (n : Word) : (Res.go () (s.setUnitIdx n)).Runs busRegs (some .sb) true s :=
  ⟨[], Ran.setUnitIdx n, noErr_nil⟩

/-- A read transfer touches `sbcs`, `sbaddress[0]` and `sbdata[0]` (R237, R244). -/
theorem readSteps_runs (a : Word) (u n : Nat) : (readSteps a u n s).Runs busRegs (some .sb) true s :=
  (prepareTransfer_runs (by decide)).andThen fun _ _ =>
    (startTransfer_runs (by decide) (by decide) a _ _ _).andThen fun _ _ =>
    (readUnits_runs u n n _).andThen fun _ _ => setUnitIdx_runs _

/-- A write transfer touches `sbcs`, `sbaddress[0]` and `sbdata[0]` (R238, R244). -/
theorem writeSteps_runs (a : Word) (u n : Nat) : (writeSteps a u n s).Runs busRegs (some .sb) true s :=
  (prepareTransfer_runs (by decide)).andThen fun _ _ =>
    (startTransfer_runs (by decide) (by decide) a _ _ _).andThen fun _ _ =>
    (waitBus_runs (by decide)).andThen fun _ _ => (writeUnits_runs u n n _).andThen fun _ _ => setUnitIdx_runs _

/-! ### Parts that write no engine state register -/

/-- The part, whichever way it ends, records no write of an engine state register. -/
def Res.Silent {α : Type} (s : State) : Res α → Prop
  | .go _ t | .stop _ t => ∃ es, t.events = s.events ++ es ∧ ∀ e st, Event.engine e st ∉ es

theorem Res.Silent.go {α : Type} (a : α) : (Res.go a s).Silent s := ⟨[], by simp, by simp⟩

theorem Res.Silent.andThen {α β : Type} {x : Res α} {f : α → State → Res β} (h : x.Silent s)
    (g : ∀ a t, (f a t).Silent t) : (x.andThen f).Silent s := by
  cases x with
  | stop y t => exact h
  | go a t =>
    obtain ⟨es, he, hn⟩ := h
    have := g a t
    simp only [Res.andThen]
    cases hf : f a t <;> rw [hf] at this <;> obtain ⟨fs, hg, hm⟩ := this <;>
      exact ⟨es ++ fs, by rw [hg, he, List.append_assoc], fun e st m =>
        (List.mem_append.mp m).elim (hn e st) (hm e st)⟩

theorem rd_silent (r : RegId) (s : State) : (rd r s).Silent s := by
  unfold rd
  split <;> exact ⟨[.cycle _ _], rfl, by simp⟩

theorem wr_silent (r : RegId) (s : State) : (wr r s).Silent s := by
  unfold wr
  split <;> exact ⟨[.cycle _ _], rfl, by simp⟩

theorem wr_setShadow_silent (r : RegId) (v : Word) (s : State) : (wr r (s.setShadow r v)).Silent s :=
  wr_silent r (s.setShadow r v)

theorem pollLoop_silent (r : RegId) (cond : Word → Bool) (n : Nat) :
    ∀ s : State, (pollLoop r cond n s).Silent s := by
  induction n with
  | zero => exact fun s => Res.Silent.go false
  | succ n ih =>
    intro s
    rw [pollLoop]
    refine (rd_silent r s).andThen fun _ t => ?_
    dsimp only
    split
    · exact ⟨[], by simp, by simp⟩
    · exact ih (t.setPollCount (t.pollCount + 1))

theorem pollOrStop_silent (r : RegId) (cond : Word → Bool) (s : State) : (pollOrStop r cond s).Silent s := by
  refine Res.Silent.andThen (pollLoop_silent r cond _ (s.setPollCount 0)) fun ready t => ?_
  split <;> exact ⟨[], by simp, by simp⟩

theorem selectSteps_silent (h : BitVec 20) (s : State) : (selectSteps h s).Silent s :=
  wr_setShadow_silent _ _ s

theorem clearStaleCmderr_silent (s : State) : (clearStaleCmderr s).Silent s := by
  unfold clearStaleCmderr
  split
  · exact Res.Silent.go ()
  · exact (wr_setShadow_silent _ _ s).andThen fun _ t => rd_silent _ t

theorem prepareCommand_silent (s : State) : (prepareCommand s).Silent s := by
  unfold prepareCommand
  split
  · exact (pollOrStop_silent _ _ s).andThen fun _ t => clearStaleCmderr_silent t
  · exact clearStaleCmderr_silent s

theorem stageValue_silent (staged : Option Word) (s : State) : (stageValue staged s).Silent s := by
  unfold stageValue
  split
  · exact wr_setShadow_silent _ _ s
  · exact Res.Silent.go ()

theorem completeCommand_silent (write : Bool) (s : State) : (completeCommand write s).Silent s := by
  unfold completeCommand
  split
  · split
    · exact Res.Silent.go 0
    · exact (rd_silent _ s).andThen fun _ t => Res.Silent.go _
  · exact ⟨[], by simp, by simp⟩

end Sys2Proof.Machine
end

