-- ==== Sys2Proof/Laws/PerInstr.lean ====
section
/-!
SUPPORT. The encoder against the opcode table (30_encoding.md R132, R141), instruction by instruction.
-/

namespace Sys2Proof.Laws.EncodeMatchesRow

/-- The encoding of the instruction has the width of the row of its mnemonic and carries its fixed bits. -/
def Statement (i : Instr) : Prop :=
  ∃ row ∈ opcodeTable, row.mnemonic = i.mnemonic ∧ row.width = (encode i).tableWord.1 ∧
    row.matchesWord (encode i).tableWord.2 = true

/-- A selector request is its four parts in a row (R131). -/
theorem ofSel_toWord (op : BitVec 8) (sel : BitVec 24) (a v : Word) :
    (Request.ofSel op sel a v).toWord = op ++ sel ++ a ++ v := by
  apply BitVec.eq_of_getLsbD_eq
  intro i hi
  simp only [Request.ofSel, Request.toWord, BitVec.getLsbD_extractLsb', BitVec.getLsbD_append]
  repeat' split
  all_goals first | rfl | (exfalso; omega) | skip
  all_goals
    rw [decide_eq_true (by omega), Bool.true_and]
    congr 1; omega

/-- Fixed bits, part by part, for a request with a selector. -/
theorem sel_matches {op : BitVec 8} {sel selMask : BitVec 24} {a aMask v vMask : Word} {row : OpRow}
    (hm : row.mask = (0xFF#8 ++ selMask ++ aMask ++ vMask).toNat)
    (hp : row.pattern = (op ++ 0#24 ++ 0#32 ++ 0#32).toNat)
    (hs : sel &&& selMask = 0#24) (ha : a &&& aMask = 0#32) (hv : v &&& vMask = 0#32) :
    row.matchesWord (Request.ofSel op sel a v).toWord.toNat = true := by
  have e : ∀ x : BitVec 8, x &&& 0xFF#8 = x := by decide
  rw [OpRow.matchesWord, beq_iff_eq, hm, hp, ofSel_toWord, ← BitVec.toNat_and, BitVec.and_append,
    BitVec.and_append, BitVec.and_append, e, hs, ha, hv]

/-- Fixed bits, part by part, for a request with a register designator. -/
theorem reg_matches {op idx aid fid fidMask : BitVec 8} {v vMask : Word} {row : OpRow}
    (hm : row.mask = (0xFF#8 ++ fidMask ++ 0#8 ++ 0#8 ++ 0xFFFFFFFF#32 ++ vMask).toNat)
    (hp : row.pattern = (op ++ 0#8 ++ 0#8 ++ 0#8 ++ 0#32 ++ 0#32).toNat)
    (hf : fid &&& fidMask = 0#8) (hv : v &&& vMask = 0#32) :
    row.matchesWord (Request.toWord ⟨op, fid, idx, aid, 0, v⟩).toNat = true := by
  have e : ∀ x : BitVec 8, x &&& 0xFF#8 = x := by decide
  have z : ∀ x : BitVec 8, x &&& 0#8 = 0#8 := by decide
  have za : (0 : Word) &&& 0xFFFFFFFF#32 = 0#32 := by decide
  rw [OpRow.matchesWord, beq_iff_eq, hm, hp, Request.toWord, ← BitVec.toNat_and, BitVec.and_append,
    BitVec.and_append, BitVec.and_append, BitVec.and_append, BitVec.and_append, e, hf, z, z, za, hv]

/-- A field of `n` bits leaves the selector bits above it 0. -/
theorem sel_high {n : Nat} (x : BitVec n) (mask : BitVec 24) (h : ∀ i < n, mask.getLsbD i = false) :
    x.setWidth 24 &&& mask = 0#24 := by
  apply BitVec.eq_of_getLsbD_eq
  intro i hi
  rw [BitVec.getLsbD_and, BitVec.getLsbD_setWidth]
  by_cases hn : i < n
  · simp [h i hn]
  · simp [BitVec.getLsbD_of_ge x i (by omega)]

/-- The fixed bits of a command word. -/
theorem cmd_matches {n : Nat} (x : BitVec n) (base : Word) (mask : BitVec 32) {row : OpRow}
    (hm : row.mask = mask.toNat) (hp : row.pattern = base.toNat)
    (hl : ∀ i < n, mask.getLsbD i = false ∧ base.getLsbD i = false) (hb : base &&& mask = base) :
    row.matchesWord (base + x.setWidth 32).toNat = true := by
  have z : base &&& x.setWidth 32 = 0#32 := by
    apply BitVec.eq_of_getLsbD_eq
    intro i hi
    rw [BitVec.getLsbD_and, BitVec.getLsbD_setWidth]
    by_cases h : i < n
    · simp [(hl i h).2]
    · simp [BitVec.getLsbD_of_ge x i (by omega)]
  rw [OpRow.matchesWord, beq_iff_eq, hm, hp, BitVec.add_eq_or_of_and_eq_zero _ _ z, ← BitVec.toNat_and]
  congr 1
  apply BitVec.eq_of_getLsbD_eq
  intro i hi
  have b := congrArg (fun w => BitVec.getLsbD w i) hb
  simp only [BitVec.getLsbD_and] at b
  rw [BitVec.getLsbD_and, BitVec.getLsbD_or, BitVec.getLsbD_setWidth]
  by_cases h : i < n
  · simp [(hl i h).1, (hl i h).2]
  · simp [BitVec.getLsbD_of_ge x i (by omega), b]

theorem read (n : RegName) (idx : BitVec 8) : Statement (.read n idx) :=
  ⟨opcodeTable[0], by decide, rfl, rfl,
    reg_matches (fidMask := 0xFF#8) (vMask := 0xFFFFFFFF#32) rfl rfl (by decide) (by decide)⟩

theorem write (n : RegName) (idx : BitVec 8) : Statement (.write n idx) :=
  ⟨opcodeTable[1], by decide, rfl, rfl,
    reg_matches (fidMask := 0xFF#8) (vMask := 0xFFFFFFFF#32) rfl rfl (by decide) (by decide)⟩

theorem reset (n : RegName) (idx : BitVec 8) : Statement (.reset n idx) :=
  ⟨opcodeTable[2], by decide, rfl, rfl,
    reg_matches (fidMask := 0xFF#8) (vMask := 0xFFFFFFFF#32) rfl rfl (by decide) (by decide)⟩

theorem get (n : RegName) (idx fid : BitVec 8) : Statement (.get n idx fid) :=
  ⟨opcodeTable[3], by decide, rfl, rfl,
    reg_matches (fidMask := 0#8) (vMask := 0xFFFFFFFF#32) rfl rfl (by simp) (by decide)⟩

theorem set (n : RegName) (idx fid : BitVec 8) (v : Word) : Statement (.set n idx fid v) :=
  ⟨opcodeTable[4], by decide, rfl, rfl,
    reg_matches (fidMask := 0#8) (vMask := 0#32) rfl rfl (by simp) (by simp)⟩

theorem getHartsel : Statement .getHartsel :=
  ⟨opcodeTable[5], by decide, rfl, rfl,
    sel_matches (selMask := 0xFFFFFF#24) (aMask := 0xFFFFFFFF#32) (vMask := 0xFFFFFFFF#32)
      rfl rfl (by decide) (by decide) (by decide)⟩

theorem setHartsel (v : Word) : Statement (.setHartsel v) :=
  ⟨opcodeTable[6], by decide, rfl, rfl,
    sel_matches (selMask := 0xFFFFFF#24) (aMask := 0xFFFFFFFF#32) (vMask := 0#32)
      rfl rfl (by decide) (by decide) (by simp)⟩

theorem hartselMax : Statement .hartselMax :=
  ⟨opcodeTable[7], by decide, rfl, rfl,
    sel_matches (selMask := 0xFFFFFF#24) (aMask := 0xFFFFFFFF#32) (vMask := 0xFFFFFFFF#32)
      rfl rfl (by decide) (by decide) (by decide)⟩

theorem cmderrClear : Statement .cmderrClear :=
  ⟨opcodeTable[8], by decide, rfl, rfl,
    sel_matches (selMask := 0xFFFFFF#24) (aMask := 0xFFFFFFFF#32) (vMask := 0xFFFFFFFF#32)
      rfl rfl (by decide) (by decide) (by decide)⟩

theorem sberrorClear : Statement .sberrorClear :=
  ⟨opcodeTable[9], by decide, rfl, rfl,
    sel_matches (selMask := 0xFFFFFF#24) (aMask := 0xFFFFFFFF#32) (vMask := 0xFFFFFFFF#32)
      rfl rfl (by decide) (by decide) (by decide)⟩

theorem sbbusyerrorClear : Statement .sbbusyerrorClear :=
  ⟨opcodeTable[10], by decide, rfl, rfl,
    sel_matches (selMask := 0xFFFFFF#24) (aMask := 0xFFFFFFFF#32) (vMask := 0xFFFFFFFF#32)
      rfl rfl (by decide) (by decide) (by decide)⟩

theorem dtmReset : Statement .dtmReset :=
  ⟨opcodeTable[11], by decide, rfl, rfl,
    sel_matches (selMask := 0xFFFFFF#24) (aMask := 0xFFFFFFFF#32) (vMask := 0xFFFFFFFF#32)
      rfl rfl (by decide) (by decide) (by decide)⟩

theorem setPollLimit (v : Word) : Statement (.setPollLimit v) :=
  ⟨opcodeTable[12], by decide, rfl, rfl,
    sel_matches (selMask := 0xFFFFFF#24) (aMask := 0xFFFFFFFF#32) (vMask := 0#32)
      rfl rfl (by decide) (by decide) (by simp)⟩

theorem getPollLimit : Statement .getPollLimit :=
  ⟨opcodeTable[13], by decide, rfl, rfl,
    sel_matches (selMask := 0xFFFFFF#24) (aMask := 0xFFFFFFFF#32) (vMask := 0xFFFFFFFF#32)
      rfl rfl (by decide) (by decide) (by decide)⟩

theorem setPretty (n : RegName) (idx : BitVec 8) (b : Bool) : Statement (.setPretty n idx b) :=
  ⟨opcodeTable[14], by decide, rfl, rfl,
    reg_matches (fidMask := 0xFF#8) (vMask := 0xFFFFFFFE#32) rfl rfl (by decide) (by cases b <;> decide)⟩

theorem selectHart (h : BitVec 20) : Statement (.selectHart h) :=
  ⟨opcodeTable[15], by decide, rfl, rfl,
    sel_matches (selMask := 0xF00000#24) (aMask := 0xFFFFFFFF#32) (vMask := 0xFFFFFFFF#32)
      rfl rfl (sel_high h _ (by decide)) (by decide) (by decide)⟩

theorem haltHart (h : BitVec 20) : Statement (.haltHart h) :=
  ⟨opcodeTable[16], by decide, rfl, rfl,
    sel_matches (selMask := 0xF00000#24) (aMask := 0xFFFFFFFF#32) (vMask := 0xFFFFFFFF#32)
      rfl rfl (sel_high h _ (by decide)) (by decide) (by decide)⟩

theorem resumeHart (h : BitVec 20) : Statement (.resumeHart h) :=
  ⟨opcodeTable[17], by decide, rfl, rfl,
    sel_matches (selMask := 0xF00000#24) (aMask := 0xFFFFFFFF#32) (vMask := 0xFFFFFFFF#32)
      rfl rfl (sel_high h _ (by decide)) (by decide) (by decide)⟩

theorem readGpr (reg : BitVec 5) : Statement (.readGpr reg) :=
  ⟨opcodeTable[18], by decide, rfl, rfl,
    sel_matches (selMask := 0xFFFFE0#24) (aMask := 0xFFFFFFFF#32) (vMask := 0xFFFFFFFF#32)
      rfl rfl (sel_high reg _ (by decide)) (by decide) (by decide)⟩

theorem writeGpr (reg : BitVec 5) (v : Word) : Statement (.writeGpr reg v) :=
  ⟨opcodeTable[19], by decide, rfl, rfl,
    sel_matches (selMask := 0xFFFFE0#24) (aMask := 0xFFFFFFFF#32) (vMask := 0#32)
      rfl rfl (sel_high reg _ (by decide)) (by decide) (by simp)⟩

theorem readFpr (reg : BitVec 5) : Statement (.readFpr reg) :=
  ⟨opcodeTable[20], by decide, rfl, rfl,
    sel_matches (selMask := 0xFFFFE0#24) (aMask := 0xFFFFFFFF#32) (vMask := 0xFFFFFFFF#32)
      rfl rfl (sel_high reg _ (by decide)) (by decide) (by decide)⟩

theorem writeFpr (reg : BitVec 5) (v : Word) : Statement (.writeFpr reg v) :=
  ⟨opcodeTable[21], by decide, rfl, rfl,
    sel_matches (selMask := 0xFFFFE0#24) (aMask := 0xFFFFFFFF#32) (vMask := 0#32)
      rfl rfl (sel_high reg _ (by decide)) (by decide) (by simp)⟩

theorem readCsr (csr : BitVec 12) : Statement (.readCsr csr) :=
  ⟨opcodeTable[22], by decide, rfl, rfl,
    sel_matches (selMask := 0xFFF000#24) (aMask := 0xFFFFFFFF#32) (vMask := 0xFFFFFFFF#32)
      rfl rfl (sel_high csr _ (by decide)) (by decide) (by decide)⟩

theorem writeCsr (csr : BitVec 12) (v : Word) : Statement (.writeCsr csr v) :=
  ⟨opcodeTable[23], by decide, rfl, rfl,
    sel_matches (selMask := 0xFFF000#24) (aMask := 0xFFFFFFFF#32) (vMask := 0#32)
      rfl rfl (sel_high csr _ (by decide)) (by decide) (by simp)⟩

theorem readMem (a len : Word) : Statement (.readMem a len) :=
  ⟨opcodeTable[24], by decide, rfl, rfl,
    sel_matches (selMask := 0xFFFFFF#24) (aMask := 0#32) (vMask := 0#32)
      rfl rfl (by decide) (by simp) (by simp)⟩

theorem writeMem (a len : Word) : Statement (.writeMem a len) :=
  ⟨opcodeTable[25], by decide, rfl, rfl,
    sel_matches (selMask := 0xFFFFFF#24) (aMask := 0#32) (vMask := 0#32)
      rfl rfl (by decide) (by simp) (by simp)⟩

theorem cmdReadGpr (reg : BitVec 5) : Statement (.cmdReadGpr reg) :=
  ⟨opcodeTable[26], by decide, rfl, rfl, cmd_matches reg _ 0xFFFFFFE0#32 rfl rfl (by decide) (by decide)⟩

theorem cmdWriteGpr (reg : BitVec 5) : Statement (.cmdWriteGpr reg) :=
  ⟨opcodeTable[27], by decide, rfl, rfl, cmd_matches reg _ 0xFFFFFFE0#32 rfl rfl (by decide) (by decide)⟩

theorem cmdReadFpr (reg : BitVec 5) : Statement (.cmdReadFpr reg) :=
  ⟨opcodeTable[28], by decide, rfl, rfl, cmd_matches reg _ 0xFFFFFFE0#32 rfl rfl (by decide) (by decide)⟩

theorem cmdWriteFpr (reg : BitVec 5) : Statement (.cmdWriteFpr reg) :=
  ⟨opcodeTable[29], by decide, rfl, rfl, cmd_matches reg _ 0xFFFFFFE0#32 rfl rfl (by decide) (by decide)⟩

theorem cmdReadCsr (csr : BitVec 12) : Statement (.cmdReadCsr csr) :=
  ⟨opcodeTable[30], by decide, rfl, rfl, cmd_matches csr _ 0xFFFFF000#32 rfl rfl (by decide) (by decide)⟩

theorem cmdWriteCsr (csr : BitVec 12) : Statement (.cmdWriteCsr csr) :=
  ⟨opcodeTable[31], by decide, rfl, rfl, cmd_matches csr _ 0xFFFFF000#32 rfl rfl (by decide) (by decide)⟩

end Sys2Proof.Laws.EncodeMatchesRow
end

