-- ==== Sys2Proof/Laws/Transfers.lean ====
section
/-!
SUPPORT. What a memory transfer has done when it ends, whatever the answers: how many units, which words crossed,
which bytes are delivered (42_system_bus.md R237, R238, R240).
-/

namespace Sys2Proof.Machine

variable {s t : State}

/-- A part that touches only registers other than `q` moves no word of `q` (R112). -/
theorem words_of_log {p : RegId → Bool} {en : Option Engine} {q : RegId} (hq : p q = false) {es : List Event}
    (h : ∀ e ∈ es, e.within p en = true) : wordsRead q es = [] ∧ wordsSent q es = [] := by
  have off : ∀ a : Access, a.drives p = true → a.addr ≠ q.addr := by
    intro a ha hc
    simp only [Access.drives, List.any_eq_true, Bool.and_eq_true, beq_iff_eq] at ha
    obtain ⟨r, _, hr, hra⟩ := ha
    rw [hc, RegId.addr_inj] at hra
    rw [← hra, hq] at hr
    cases hr
  constructor <;>
  · first | unfold wordsRead | unfold wordsSent
    rw [List.filterMap_eq_nil_iff]
    intro e he
    have w := h e he
    cases e with
    | cycle a x =>
      have := off a w
      cases a <;> cases x <;> simp_all [Access.addr]
    | _ => rfl

/-- While no unit is on its way, entries that send none leave the count of units finished (R240). -/
theorem seeUnit_idle {es : List Event} (h : wordsSent (.sbdata 0) es = []) (c : Nat) :
    es.foldl seeUnit (false, c) = (false, c) := by
  induction es with
  | nil => rfl
  | cons e es ih =>
    have hc : wordsSent (.sbdata 0) [e] = [] ∧ wordsSent (.sbdata 0) es = [] := by
      rw [← List.append_eq_nil_iff, ← wordsSent_append]; exact h
    have he : seeUnit (false, c) e = (false, c) := by
      unfold seeUnit
      split
      next a v k =>
        rw [if_neg]
        intro ha
        simp [wordsSent, ha] at hc
      · simp
      · rfl
    rw [List.foldl_cons, he, ih hc.2]

/-- The registers of a transfer but `sbdata[0]`. -/
def controlRegs (r : RegId) : Bool := decide (r ∈ [RegId.sbcs, .sbaddress 0])

/-- A part of an operation that goes on ends with `P`, one that stops ends with `Q`. -/
def Res.Ends {α : Type} (P Q : State → Prop) : Res α → Prop
  | .go _ t => P t
  | .stop _ t => Q t

/-- A part of a transfer that touches only the control registers: nothing crosses, nothing is counted. -/
def Res.Control {α : Type} (s : State) : Res α → Prop
  | .go _ t | .stop _ t => ∃ es, t.events = s.events ++ es ∧ wordsRead (.sbdata 0) es = [] ∧
      wordsSent (.sbdata 0) es = [] ∧ t.unitIdx = s.unitIdx ∧ t.rdata = s.rdata ∧ t.wdata = s.wdata

theorem Res.Runs.control {α : Type} {x : Res α} (h : x.Runs controlRegs (some .sb) false s) : x.Control s := by
  cases x with
  | go a t =>
    obtain ⟨es, hr, _⟩ := h
    obtain ⟨h1, h2⟩ := words_of_log (q := .sbdata 0) (by decide) hr.log
    exact ⟨es, hr.events, h1, h2, hr.unitIdx rfl, hr.rdata rfl, hr.wdata⟩
  | stop x t =>
    obtain ⟨es, hr, _, _⟩ := h
    obtain ⟨h1, h2⟩ := words_of_log (q := .sbdata 0) (by decide) hr.log
    exact ⟨es, hr.events, h1, h2, hr.unitIdx rfl, hr.rdata rfl, hr.wdata⟩

theorem prepareTransfer_control (s : State) : (prepareTransfer s).Control s :=
  (prepareTransfer_runs (by decide)).control

theorem startTransfer_control (a code : Word) (several isRead : Bool) (s : State) :
    (startTransfer a code several isRead s).Control s :=
  (startTransfer_runs (by decide) (by decide) a code several isRead).control

theorem waitBus_control (s : State) : (waitBus s).Control s := (waitBus_runs (by decide)).control

theorem endStreaming_control (last : Bool) (s : State) : (endStreaming last s).Control s :=
  (endStreaming_runs (by decide) last).control

/-- A part of a read after which `j` units of size `u` are counted from `s`: the words fetched are delivered. -/
def FetchedWords (u : Nat) (s t : State) (words : List Word) : Prop :=
  ∃ es, t.events = s.events ++ es ∧ wordsRead (.sbdata 0) es = words ∧ t.rdata = s.rdata ++ delivered u words

/-- One unit of a read, however it ends (R237). -/
theorem readUnit_fetched (u n i : Nat) (s : State) :
    (readUnit u n i s).Ends (fun t => ∃ w, FetchedWords u s t [w])
      (fun t => t.unitIdx = BitVec.ofNat 32 i ∧ FetchedWords u s t []) := by
  have none : ∀ {t : State} {es : List Event}, t.events = s.events ++ es → wordsRead (.sbdata 0) es = [] →
      t.rdata = s.rdata → FetchedWords u s t [] := fun h w d => ⟨_, h, w, by simp [d, delivered]⟩
  have h1 := waitBus_control (s.setUnitIdx (BitVec.ofNat 32 i))
  rw [readUnit]
  cases e1 : waitBus (s.setUnitIdx (BitVec.ofNat 32 i)) with
  | stop x t1 =>
    rw [e1] at h1
    obtain ⟨es, he, hw, _, hu, hr, _⟩ := h1
    exact ⟨hu, none he hw hr⟩
  | go a1 t1 =>
    rw [e1] at h1
    obtain ⟨es1, k1, r1, _, u1, d1, _⟩ := h1
    have h2 := endStreaming_control (decide (i + 1 = n) && decide (1 < n)) t1
    simp only [Res.andThen]
    cases e2 : endStreaming (decide (i + 1 = n) && decide (1 < n)) t1 with
    | stop x t2 =>
      rw [e2] at h2
      obtain ⟨es, he, hw, _, hu, hr, _⟩ := h2
      exact ⟨hu.trans u1, none (es := es1 ++ es) (by rw [he, k1]; simp) (by rw [wordsRead_append, r1, hw]; rfl)
        (hr.trans d1)⟩
    | go a2 t2 =>
      rw [e2] at h2
      obtain ⟨es2, k2, r2, _, u2, d2, _⟩ := h2
      have ev : (t2.setEngine .sb .issued).events = s.events ++ (es1 ++ es2 ++ [.engine .sb .issued]) := by
        rw [State.setEngine_events, k2, k1]; simp
      have d : (t2.setEngine .sb .issued).rdata = s.rdata := d2.trans d1
      have v : (t2.setEngine .sb .issued).unitIdx = BitVec.ofNat 32 i := u2.trans u1
      simp only [rd]
      generalize t2.setEngine .sb .issued = t3 at ev d v ⊢
      cases ha : t3.answerTo (.read (RegId.sbdata 0).addr) with
      | err e =>
        refine ⟨v, none (es := es1 ++ es2 ++ [.engine .sb .issued] ++
          [.cycle (.read (RegId.sbdata 0).addr) (.err e)]) ?_ ?_ d⟩
        · rw [← List.append_assoc, ← ev, ← ha]; rfl
        · rw [wordsRead_append, wordsRead_append, wordsRead_append, r1, r2]; rfl
      | ok w =>
        refine ⟨w, es1 ++ es2 ++ [.engine .sb .issued, fetched (.sbdata 0) w], ?_, ?_, ?_⟩
        · simp [State.deliver, State.afterCycle, ha, ev, fetched]
        · rw [wordsRead_append, wordsRead_append, r1, r2]; simp [wordsRead, fetched]
        · simp [State.deliver, State.afterCycle, delivered, State.shadow, d]

/-- The units of a read from the one with `k` left on, however they end (R237, R240). -/
theorem readUnits_fetched (u n k : Nat) : ∀ s : State, k ≤ n →
    (readUnits u n k s).Ends (fun t => ∃ words, words.length = k ∧ FetchedWords u s t words)
      (fun t => ∃ words : List Word, words.length < k ∧
        t.unitIdx = BitVec.ofNat 32 (n - k + words.length) ∧ FetchedWords u s t words) := by
  induction k with
  | zero => intro s _; exact ⟨[], rfl, [], by simp, rfl, by simp [delivered]⟩
  | succ k ih =>
    intro s hk
    have h1 := readUnit_fetched u n (n - (k + 1)) s
    rw [readUnits]
    cases e1 : readUnit u n (n - (k + 1)) s with
    | stop x t1 =>
      rw [e1] at h1
      exact ⟨[], by simp, by simpa using h1.1, h1.2⟩
    | go a t1 =>
      rw [e1] at h1
      obtain ⟨w, es1, k1, r1, d1⟩ := h1
      have h2 := ih t1 (by omega)
      simp only [Res.andThen]
      cases e2 : readUnits u n k t1 with
      | stop x t2 =>
        rw [e2] at h2
        obtain ⟨words, hl, hu, es2, k2, r2, d2⟩ := h2
        refine ⟨w :: words, by simp [hl], ?_, es1 ++ es2, ?_, ?_, ?_⟩
        · rw [hu]; congr 1; simp; omega
        · rw [k2, k1, List.append_assoc]
        · rw [wordsRead_append, r1, r2]; rfl
        · rw [d2, d1]; simp [delivered]
      | go b t2 =>
        rw [e2] at h2
        obtain ⟨words, hl, es2, k2, r2, d2⟩ := h2
        refine ⟨w :: words, by simp [hl], es1 ++ es2, ?_, ?_, ?_⟩
        · rw [k2, k1, List.append_assoc]
        · rw [wordsRead_append, r1, r2]; rfl
        · rw [d2, d1]; simp [delivered]

/-- The polls of a wait leave the count of units finished until the read that ends them (R236). -/
theorem pollLoop_seen (n c : Nat) : ∀ s : State,
    match pollLoop .sbcs notSbBusy n s with
    | .go ready t => ∃ es, t.events = s.events ++ es ∧ es.foldl seeUnit (true, c) =
        if ready = true ∧ sberrorCode (t.shadow .sbcs) = 0 then (false, c + 1) else (true, c)
    | .stop _ t => ∃ es, t.events = s.events ++ es ∧ es.foldl seeUnit (true, c) = (true, c) := by
  induction n with
  | zero => intro s; exact ⟨[], by simp, by simp⟩
  | succ n ih =>
    intro s
    rw [pollLoop]
    cases ha : s.answerTo (.read RegId.sbcs.addr) with
    | err e => rw [rd_of_err ha]; exact ⟨[.cycle _ (.err e)], rfl, rfl⟩
    | ok x =>
      have hx : seeUnit (true, c) (fetched .sbcs x) =
          if notSbBusy x = true ∧ sberrorCode x = 0 then (false, c + 1) else (true, c) := by
        simp only [seeUnit, fetched, ready_iff, true_and, notSbBusy_eq, Bool.not_eq_true']
      simp only [rd, ha, Res.andThen]
      generalize ht : State.setPollCount _ _ = s1
      have hsh : s1.shadow .sbcs = x := by rw [← ht]; simp [State.shadow, State.setShadow]
      have hev : s1.events = s.events ++ [fetched .sbcs x] := by
        rw [← ht]; simp [State.afterCycle, fetched, ha]
      rw [hsh]
      cases hb : notSbBusy x with
      | true => exact ⟨[fetched .sbcs x], hev, by rw [hsh, List.foldl_cons, hx, hb]; rfl⟩
      | false =>
        have hx' : seeUnit (true, c) (fetched .sbcs x) = (true, c) := by rw [hx, hb]; simp
        have h := ih s1
        simp only [Bool.false_eq_true, if_false]
        split at h
        · obtain ⟨es, k, f⟩ := h
          exact ⟨fetched .sbcs x :: es, by simp [k, hev], by rw [List.foldl_cons, hx', f]⟩
        · obtain ⟨es, k, f⟩ := h
          exact ⟨fetched .sbcs x :: es, by simp [k, hev], by rw [List.foldl_cons, hx', f]⟩

/-- The wait after a unit was sent sees it finished exactly if it ends well (R236, R240). -/
theorem waitBus_seen (c : Nat) (s : State) :
    (waitBus s).Ends (fun t => ∃ es, t.events = s.events ++ es ∧ es.foldl seeUnit (true, c) = (false, c + 1))
      (fun t => ∃ es, t.events = s.events ++ es ∧ es.foldl seeUnit (true, c) = (true, c)) := by
  have h := pollLoop_seen s.pollLimit.toNat c ((s.setEngine .sb .polling).setPollCount 0)
  have ev : ((s.setEngine .sb .polling).setPollCount 0).events = s.events ++ [.engine .sb .polling] := rfl
  have more : ∀ {t : State} {es : List Event} {r : Bool × Nat},
      t.events = ((s.setEngine .sb .polling).setPollCount 0).events ++ es → es.foldl seeUnit (true, c) = r →
      ∃ es, t.events = s.events ++ es ∧ es.foldl seeUnit (true, c) = r := fun {_ es _} h f =>
    ⟨.engine .sb .polling :: es, by rw [h, ev]; simp, f⟩
  rw [waitBus, pollOrStop, poll]
  have hl : (s.setEngine .sb .polling).pollLimit = s.pollLimit := rfl
  rw [hl]
  cases e : pollLoop .sbcs notSbBusy s.pollLimit.toNat ((s.setEngine .sb .polling).setPollCount 0) with
  | stop x t => rw [e] at h; obtain ⟨es, k, f⟩ := h; exact more k f
  | go ready t =>
    rw [e] at h
    obtain ⟨es, k, f⟩ := h
    simp only [Res.andThen]
    cases ready with
    | false => exact more k (by simpa using f)
    | true =>
      simp only [if_true]
      by_cases hz : sberrorCode (t.shadow .sbcs) = 0
      · rw [if_pos hz]; exact more k (by rw [f, if_pos ⟨rfl, hz⟩])
      · rw [if_neg hz]; exact more k (by rw [f, if_neg fun h => hz h.2])

/-- One unit of a write, however it ends (R238, R240): it is counted exactly if it was seen finished. -/
theorem writeUnit_sent (u i c : Nat) (s : State) :
    (writeUnit u i s).Ends
      (fun t => (∃ es, t.events = s.events ++ es ∧ wordsSent (.sbdata 0) es = [packUnit s.writeByte i u] ∧
        es.foldl seeUnit (false, c) = (false, c + 1)) ∧ t.rdata = s.rdata ∧ t.wdata = s.wdata)
      (fun t => (∃ es, t.events = s.events ++ es ∧ (es.foldl seeUnit (false, c)).2 = c) ∧
        t.unitIdx = BitVec.ofNat 32 i ∧ t.rdata = s.rdata) := by
  rw [writeUnit, wr]
  cases ha : ((s.setUnitIdx (BitVec.ofNat 32 i)).setShadow (.sbdata 0)
      (packUnit s.writeByte i u)).answerTo (.write (RegId.sbdata 0).addr
        (((s.setUnitIdx (BitVec.ofNat 32 i)).setShadow (.sbdata 0) (packUnit s.writeByte i u)).shadow
          (.sbdata 0))) with
  | err e =>
    refine ⟨?_, rfl, rfl⟩
    have h := (State.setShadow_events (s.setUnitIdx (BitVec.ofNat 32 i)) (.sbdata 0) (packUnit s.writeByte i u))
    generalize (s.setUnitIdx (BitVec.ofNat 32 i)).setShadow (.sbdata 0) (packUnit s.writeByte i u) = s1 at ha h
    exact ⟨[.cycle (.write (RegId.sbdata 0).addr (s1.shadow (.sbdata 0))) (.err e)],
      by simp only [State.afterCycle, ha, h, State.setUnitIdx_events], rfl⟩
  | ok k =>
    simp only [Res.andThen]
    generalize hs1 : State.setEngine _ .sb .issued = s1
    have h := waitBus_control s1
    have g := waitBus_seen c s1
    have hu : s1.unitIdx = BitVec.ofNat 32 i := by rw [← hs1]; rfl
    have hr : s1.rdata = s.rdata := by rw [← hs1]; rfl
    have hw : s1.wdata = s.wdata := by rw [← hs1]; rfl
    have he : s1.events = s.events ++ [wrote (.sbdata 0) (packUnit s.writeByte i u) k,
        .engine .sb .issued] := by
      rw [← hs1, State.setEngine_events, State.setShadow_events, State.afterCycle, ha]
      simp [wrote, State.shadow]
    have hf : [wrote (.sbdata 0) (packUnit s.writeByte i u) k, .engine .sb .issued].foldl seeUnit (false, c) =
        (true, c) := by simp [seeUnit, wrote]
    cases e1 : waitBus s1 with
    | stop x t =>
      rw [e1] at h g
      obtain ⟨_, _, _, _, hu', hr', _⟩ := h
      obtain ⟨es, k1, f⟩ := g
      exact ⟨⟨_, by rw [k1, he, List.append_assoc], by rw [List.foldl_append, hf, f]⟩, hu'.trans hu,
        hr'.trans hr⟩
    | go a t =>
      rw [e1] at h g
      obtain ⟨es, k1, _, w1, _, hr', hw'⟩ := h
      obtain ⟨es', k1', f⟩ := g
      obtain rfl : es = es' := List.append_cancel_left (k1.symm.trans k1')
      refine ⟨⟨_, by rw [k1, he, List.append_assoc], ?_, by rw [List.foldl_append, hf, f]⟩, hr'.trans hr,
        hw'.trans hw⟩
      rw [wordsSent_append, w1]
      simp [wordsSent, wrote]

/-- The units of a write from the one with `k` left on, however they end (R238, R240): each word sent is the
unit packed from the write data, where the request carries them all, and as many are counted as were seen
finished. -/
theorem writeUnits_sent (u n k c : Nat) : ∀ s : State, k ≤ n →
    (writeUnits u n k s).Ends
      (fun t => (∃ es, t.events = s.events ++ es ∧ (n * u ≤ s.wdata.length → wordsSent (.sbdata 0) es =
        (List.range' (n - k) k).map fun i => packUnit (fun j => s.wdata.getD j 0) i u) ∧
        es.foldl seeUnit (false, c) = (false, c + k)) ∧ t.rdata = s.rdata)
      (fun t => (∃ j es, j < k ∧ t.unitIdx = BitVec.ofNat 32 (n - k + j) ∧ t.events = s.events ++ es ∧
        (es.foldl seeUnit (false, c)).2 = c + j) ∧ t.rdata = s.rdata) := by
  induction k generalizing c with
  | zero => intro s _; exact ⟨⟨[], by simp, fun _ => rfl, rfl⟩, rfl⟩
  | succ k ih =>
    intro s hk
    have hpack : n * u ≤ s.wdata.length → packUnit s.writeByte (n - (k + 1)) u =
        packUnit (fun j => s.wdata.getD j 0) (n - (k + 1)) u := fun hd => by
      have hm : (n - (k + 1) + 1) * u ≤ n * u := Nat.mul_le_mul_right u (by omega)
      rw [Nat.add_mul, Nat.one_mul] at hm
      exact packUnit_congr fun j hj => State.writeByte_eq (by omega)
    have h1 := writeUnit_sent u (n - (k + 1)) c s
    rw [writeUnits]
    cases e1 : writeUnit u (n - (k + 1)) s with
    | stop x t1 =>
      rw [e1] at h1
      obtain ⟨⟨es, k1, f1⟩, u1, r1⟩ := h1
      exact ⟨⟨0, es, by omega, u1, k1, f1⟩, r1⟩
    | go a t1 =>
      rw [e1] at h1
      obtain ⟨⟨es1, k1, w1, f1⟩, r1, d1⟩ := h1
      have h2 := ih (c + 1) t1 (by omega)
      simp only [Res.andThen]
      cases e2 : writeUnits u n k t1 with
      | stop x t2 =>
        rw [e2] at h2
        obtain ⟨⟨j, es2, hj, hu, k2, f2⟩, hr⟩ := h2
        refine ⟨⟨j + 1, es1 ++ es2, by omega, by rw [hu]; congr 1; omega, by rw [k2, k1, List.append_assoc], ?_⟩,
          hr.trans r1⟩
        rw [List.foldl_append, f1, f2]; omega
      | go b t2 =>
        rw [e2] at h2
        obtain ⟨⟨es2, k2, w2, f2⟩, hr⟩ := h2
        refine ⟨⟨es1 ++ es2, by rw [k2, k1, List.append_assoc], fun hd => ?_, ?_⟩, hr.trans r1⟩
        · rw [d1] at w2
          rw [wordsSent_append, w1, w2 hd, hpack hd, List.range'_succ, show n - (k + 1) + 1 = n - k by omega]
          rfl
        · rw [List.foldl_append, f1, f2]; congr 1; omega

/-- The bytes of so many units (R232). -/
theorem delivered_length (u : Nat) (words : List Word) : (delivered u words).length = words.length * u := by
  induction words with
  | nil => simp [delivered]
  | cons w words ih =>
    have e : delivered u (w :: words) = unpackUnit w u ++ delivered u words := rfl
    rw [e, List.length_append, ih, List.length_cons, Nat.add_mul, Nat.one_mul, Nat.add_comm]
    simp [unpackUnit]

/-- Unpacking ignores the bits above the unit (R108, R232). -/
theorem unpackUnit_congr {x y : Word} {u : Nat}
    (h : x.setWidth (8 * u) = y.setWidth (8 * u)) : unpackUnit x u = unpackUnit y u := by
  refine List.map_congr_left fun j hj => BitVec.eq_of_getLsbD_eq fun i hi => ?_
  rw [List.mem_range] at hj
  have := congrArg (fun w => w.getLsbD (8 * j + i)) h
  simpa [hi, show 8 * j + i < 8 * u by omega] using this

/-- Words with the same units deliver the same bytes (R108, R232). -/
theorem delivered_congr {u : Nat} : ∀ {xs ys : List Word},
    xs.map (BitVec.setWidth (8 * u)) = ys.map (BitVec.setWidth (8 * u)) → delivered u xs = delivered u ys
  | [], [], _ => rfl
  | [], _ :: _, h => by cases h
  | _ :: _, [], h => by cases h
  | x :: xs, y :: ys, h => by
    rw [List.map_cons, List.map_cons, List.cons.injEq] at h
    simp only [delivered, List.flatMap_cons] at *
    rw [unpackUnit_congr h.1, ← delivered, ← delivered, delivered_congr h.2]

/-- A read transfer of some unit, however it ends (R237, R240). -/
theorem readSteps_fetched (a : Word) (u : Nat) {n : Nat} (hn : 0 < n) (s : State) :
    (readSteps a u n (beginTransfer s)).Ends
      (fun t => t.unitIdx = BitVec.ofNat 32 n ∧ ∃ words es, words.length = n ∧ t.rdata = delivered u words ∧
        t.events = s.events ++ es ∧ wordsRead (.sbdata 0) es = words)
      (fun t => ∃ words es, words.length < n ∧ t.unitIdx = BitVec.ofNat 32 words.length ∧
        t.rdata = delivered u words ∧ t.events = s.events ++ es ∧ wordsRead (.sbdata 0) es = words) := by
  rw [readSteps]
  have h1 := prepareTransfer_control (beginTransfer s)
  cases e1 : prepareTransfer (beginTransfer s) with
  | stop x t =>
    rw [e1] at h1
    obtain ⟨es, he, hw, _, hu, hr, _⟩ := h1
    exact ⟨[], es, hn, hu, hr, he, hw⟩
  | go b t1 =>
    rw [e1] at h1
    obtain ⟨es1, k1, w1, _, u1, r1, _⟩ := h1
    simp only [Res.andThen]
    have h2 := startTransfer_control a (unitCode u) (decide (1 < n)) true t1
    cases e2 : startTransfer a (unitCode u) (decide (1 < n)) true t1 with
    | stop x t =>
      rw [e2] at h2
      obtain ⟨es, he, hw, _, hu, hr, _⟩ := h2
      refine ⟨[], es1 ++ es, hn, hu.trans u1, hr.trans r1, ?_, by rw [wordsRead_append, w1, hw]; rfl⟩
      rw [he, k1]; simp [beginTransfer]
    | go b t2 =>
      rw [e2] at h2
      obtain ⟨es2, k2, w2, _, u2, r2, _⟩ := h2
      have h3 := readUnits_fetched u n n t2 (Nat.le_refl n)
      dsimp only
      cases e3 : readUnits u n n t2 with
      | stop x t =>
        rw [e3] at h3
        obtain ⟨words, hl, hu, es3, k3, w3, hr⟩ := h3
        refine ⟨words, es1 ++ es2 ++ es3, hl, ?_, ?_, ?_, ?_⟩
        · rw [hu]; congr 1; omega
        · rw [hr, r2, r1]; rfl
        · rw [k3, k2, k1]; simp [beginTransfer]
        · rw [wordsRead_append, wordsRead_append, w1, w2, w3]; rfl
      | go b t3 =>
        rw [e3] at h3
        obtain ⟨words, hl, es3, k3, w3, hr⟩ := h3
        refine ⟨rfl, words, es1 ++ es2 ++ es3, hl, ?_, ?_, ?_⟩
        · rw [State.setUnitIdx_rdata, hr, r2, r1]; rfl
        · rw [State.setUnitIdx_events, k3, k2, k1]; simp [beginTransfer]
        · rw [wordsRead_append, wordsRead_append, w1, w2, w3]; rfl

/-- A write transfer of some unit, however it ends (R238, R240): when it completes, every unit has been sent as
packed; and as many units are counted as were seen finished. -/
theorem writeSteps_sent (a : Word) (u : Nat) {n : Nat} (hn : 0 < n) (s : State) :
    (writeSteps a u n (beginTransfer s)).Ends
      (fun t => t.unitIdx = BitVec.ofNat 32 n ∧ t.rdata = [] ∧ ∃ es, t.events = s.events ++ es ∧
        (n * u ≤ s.wdata.length → wordsSent (.sbdata 0) es =
          (List.range' 0 n).map fun i => packUnit (fun j => s.wdata.getD j 0) i u) ∧ unitsFinished es = n)
      (fun t => (∃ j es, j < n ∧ t.unitIdx = BitVec.ofNat 32 j ∧ t.events = s.events ++ es ∧
        unitsFinished es = j) ∧ t.rdata = []) := by
  have none : ∀ {t : State} {es : List Event}, t.events = s.events ++ es → wordsSent (.sbdata 0) es = [] →
      t.unitIdx = 0 → ∃ j es, j < n ∧ t.unitIdx = BitVec.ofNat 32 j ∧ t.events = s.events ++ es ∧
        unitsFinished es = j := fun h w u => ⟨0, _, hn, u, h, by rw [unitsFinished, seeUnit_idle w]⟩
  rw [writeSteps]
  have h1 := prepareTransfer_control (beginTransfer s)
  cases e1 : prepareTransfer (beginTransfer s) with
  | stop x t =>
    rw [e1] at h1
    obtain ⟨es, k1, _, w1, hu, hr, _⟩ := h1
    exact ⟨none k1 w1 hu, hr⟩
  | go b t1 =>
    rw [e1] at h1
    obtain ⟨es1, k1, _, w1, u1, r1, d1⟩ := h1
    have k1' : t1.events = s.events ++ es1 := k1
    simp only [Res.andThen]
    have h2 := startTransfer_control a (unitCode u) (decide (1 < n)) false t1
    cases e2 : startTransfer a (unitCode u) (decide (1 < n)) false t1 with
    | stop x t =>
      rw [e2] at h2
      obtain ⟨es, k2, _, w2, hu, hr, _⟩ := h2
      exact ⟨none (by rw [k2, k1', List.append_assoc]) (by rw [wordsSent_append, w1, w2]; rfl) (hu.trans u1),
        hr.trans r1⟩
    | go b t2 =>
      rw [e2] at h2
      obtain ⟨es2, k2, _, w2, u2, r2, d2⟩ := h2
      have h3 := waitBus_control t2
      dsimp only
      cases e3 : waitBus t2 with
      | stop x t =>
        rw [e3] at h3
        obtain ⟨es, k3, _, w3, hu, hr, _⟩ := h3
        exact ⟨none (by rw [k3, k2, k1', List.append_assoc, List.append_assoc])
          (by rw [wordsSent_append, wordsSent_append, w1, w2, w3]; rfl) (hu.trans (u2.trans u1)),
          hr.trans (r2.trans r1)⟩
      | go b t3 =>
        rw [e3] at h3
        obtain ⟨es3, k3, _, w3, u3, r3, d3⟩ := h3
        have k : t3.events = s.events ++ (es1 ++ es2 ++ es3) := by rw [k3, k2, k1']; simp
        have w : wordsSent (.sbdata 0) (es1 ++ es2 ++ es3) = [] := by simp [w1, w2, w3]
        have d : t3.wdata = s.wdata := d3.trans (d2.trans d1)
        have h4 := writeUnits_sent u n n 0 t3 (Nat.le_refl n)
        dsimp only
        cases e4 : writeUnits u n n t3 with
        | stop x t =>
          rw [e4] at h4
          obtain ⟨⟨j, es4, hj, hu, k4, f4⟩, hr⟩ := h4
          refine ⟨⟨j, es1 ++ es2 ++ es3 ++ es4, hj, by rw [hu]; congr 1; omega,
            by rw [k4, k, List.append_assoc], ?_⟩, hr.trans (r3.trans (r2.trans r1))⟩
          rw [unitsFinished, List.foldl_append, seeUnit_idle w, f4, Nat.zero_add]
        | go b t4 =>
          rw [e4] at h4
          obtain ⟨⟨es4, k4, w4, f4⟩, hr⟩ := h4
          refine ⟨rfl, hr.trans (r3.trans (r2.trans r1)), es1 ++ es2 ++ es3 ++ es4, ?_, ?_, ?_⟩
          · rw [State.setUnitIdx_events, k4, k, List.append_assoc]
          · intro hd
            rw [d] at w4
            rw [wordsSent_append, w, w4 hd, List.nil_append, Nat.sub_self]
          · rw [unitsFinished, List.foldl_append, seeUnit_idle w, f4, Nat.zero_add]

end Sys2Proof.Machine
end

