-- ==== Sys2Proof/Tests/Slice0.lean ====
section
/-!
SUPPORT. Tests: the checks of WellFormed and of the decoder,
    at most two steps per instruction with the results the
spec prints (95_test_vectors.md; the number of the vector stands in each docstring), and one witness per statement
with hypotheses. "V<n>", "T<n>", "F<n>", "H<n>", "Y<n>", "X<n>" are rows of that file.
-/

namespace Sys2Proof.Tests

open Machine

/-! ### Helpers -/

/-- Reset, with a bound on polls and a script of answers: the start of most vectors. -/
def started (limit : Word) (answers : List Answer) : State :=
  { State.reset with
    pollLimit := limit
    answers := answers }

/-- The state an outcome goes on in. -/
def after : Host.Outcome State Fault Refusal → State
  | .next t => t
  | .fault _ | .refused _ => State.reset

/-- The state after one request. -/
def served (s : State) (word : BitVec 96) (data : List Byte) : State :=
  after (step { s with inputs := [.request word data] })

/-- The state after one command word. -/
def issued (s : State) (word : Word) : State := after (step { s with inputs := [.command word] })

/-- The transport cycles on record. -/
def traffic (t : State) : List (Access × Answer) :=
  t.events.filterMap fun e => match e with
    | .cycle a r => some (a, r)
    | .transportReset | .warning _ | .engine _ _ | .response _ _ => none

/-- The responses on record, as their 72-bit words, with the read data. -/
def responses (t : State) : List (BitVec 72 × List Byte) :=
  (responsesOf t.events).map fun p => (p.1.toWord, p.2)

/-- The state a part of an operation leaves. -/
def leaves {α : Type} : Res α → State
  | .go _ t | .stop _ t => t

/-! ### Well-formed instructions (30_encoding.md R134) -/

/-- R134 (b): a scalar register with an index is refused; an array's index is not looked at. -/
theorem test_wf_scalar_index : (Instr.read .dmcontrol 1).wf = false ∧ (Instr.write .sbcs 255).wf = false ∧
    (Instr.reset .command 1).wf = false ∧ (Instr.setPretty .nextdm 1 true).wf = false ∧
    (Instr.read .data 255).wf = true := by decide

/-- R134 (d): a field the register has not is refused. -/
theorem test_wf_missing_field : (Instr.get .dmcontrol 0 11).wf = false ∧ (Instr.get .data 12 1).wf = false ∧
    (Instr.get .dmcontrol 0 10).wf = true := by decide

/-- R134 (e): a setter is refused where the field has none; an unimplemented one counts as a setter. -/
theorem test_wf_missing_setter : (Instr.set .abstractcs 0 2 7).wf = false ∧
    (Instr.set .dmstatus 0 18 1).wf = false ∧ (Instr.set .haltsum 0 0 1).wf = false ∧
    (Instr.set .dmcontrol 0 2 1).wf = true := by decide

/-! ### Decoding, every row of the table (R131, R132, R141) -/

theorem test_decode_registers :
    decodeRequest 0x010003000000000000000000 = .ok (.read .data 3) ∧
    decodeRequest 0x020000010000000000000000 = .ok (.write .dmcontrol 0) ∧
    decodeRequest 0x03000F0C0000000000000000 = .ok (.reset .progbuf 15) ∧
    decodeRequest 0x041200020000000000000000 = .ok (.get .dmstatus 0 18) ∧
    decodeRequest 0x0504000F0000000000000008 = .ok (.set .sbcs 0 4 8) ∧
    decodeRequest 0x0F0003000000000000000001 = .ok (.setPretty .data 3 true) := by decide

theorem test_decode_helpers :
    decodeRequest 0x060000000000000000000000 = .ok .getHartsel ∧
    decodeRequest 0x070000000000000000012345 = .ok (.setHartsel 0x12345) ∧
    decodeRequest 0x080000000000000000000000 = .ok .hartselMax ∧
    decodeRequest 0x090000000000000000000000 = .ok .cmderrClear ∧
    decodeRequest 0x0A0000000000000000000000 = .ok .sberrorClear ∧
    decodeRequest 0x0B0000000000000000000000 = .ok .sbbusyerrorClear := by decide

theorem test_decode_system :
    decodeRequest 0x0C0000000000000000000000 = .ok .dtmReset ∧
    decodeRequest 0x0D00000000000000FFFFFFFF = .ok (.setPollLimit 0xFFFFFFFF) ∧
    decodeRequest 0x0E0000000000000000000000 = .ok .getPollLimit := by decide

theorem test_decode_harts :
    decodeRequest 0x200FFFFF0000000000000000 = .ok (.selectHart 0xFFFFF) ∧
    decodeRequest 0x210123450000000000000000 = .ok (.haltHart 0x12345) ∧
    decodeRequest 0x220000010000000000000000 = .ok (.resumeHart 1) := by decide

theorem test_decode_target_registers :
    decodeRequest 0x3000001F0000000000000000 = .ok (.readGpr 31) ∧
    decodeRequest 0x3100000A00000000CAFEF00D = .ok (.writeGpr 10 0xCAFEF00D) ∧
    decodeRequest 0x320000020000000000000000 = .ok (.readFpr 2) ∧
    decodeRequest 0x3300000300000000A5A5A5A5 = .ok (.writeFpr 3 0xA5A5A5A5) ∧
    decodeRequest 0x34000FFF0000000000000000 = .ok (.readCsr 0xFFF) ∧
    decodeRequest 0x350007B10000000080000100 = .ok (.writeCsr 0x7B1 0x80000100) := by decide

theorem test_decode_memory :
    decodeRequest 0x400000000000100000000010 = .ok (.readMem 0x1000 16) ∧
    decodeRequest 0x41000000FFFFFFFC00000008 = .ok (.writeMem 0xFFFFFFFC 8) := by decide

theorem test_decode_command_words :
    decodeCommand 0x0022101F = .ok (.cmdReadGpr 31) ∧ decodeCommand 0x0023100A = .ok (.cmdWriteGpr 10) ∧
    decodeCommand 0x0022103F = .ok (.cmdReadFpr 31) ∧ decodeCommand 0x00231023 = .ok (.cmdWriteFpr 3) ∧
    decodeCommand 0x002207B1 = .ok (.cmdReadCsr 0x7B1) ∧ decodeCommand 0x00230FFF = .ok (.cmdWriteCsr 0xFFF) ∧
    decodeCommand 0x00221040 = .error .notCommandWord ∧ decodeCommand 0x00321005 = .error .notCommandWord ∧
    decodeCommand 0x00222005 = .error .notCommandWord := by decide

/-- Table words of both widths, and of none. -/
theorem test_decode_table_word :
    decodeTableWord 96 0x060000000000000000000000 = some .getHartsel ∧
    decodeTableWord 32 0x00221000 = some (.cmdReadGpr 0) ∧ decodeTableWord 64 0 = none := by decide

/-- The examples of R144. -/
theorem test_text :
    (Instr.read .data 3).text = "read data[3]" ∧ (Instr.get .abstractcs 0 2).text = "get abstractcs.cmderr" ∧
    (Instr.set .data 0 0 0x1234).text = "set data[0].data, 0x1234" ∧ Instr.cmderrClear.text = "cmderrClear" ∧
    (Instr.setPretty .sbcs 0 true).text = "setPretty sbcs, 1" ∧
    (Instr.writeGpr 10 0xCAFEF00D).text = "writeGpr 10, 0xCAFEF00D" ∧
    (Instr.readMem 0x1000 16).text = "readMem 0x1000, 16" := by decide

/-- The refused words of 95_test_vectors.md 2.8, each with the check that names it. -/
theorem test_refused_words :
    [0x000000000000000000000000, 0x100000000000000000000000, 0x230000000000000000000000,
     0x360000000000000000000000, 0x420000000000000000000000, 0xFFFFFFFFFFFFFFFFFFFFFFFF].all
      (fun w => decodeRequest w == .error .unassignedOp) = true ∧
    [0x010100010000000000000000, 0x010000010000000000000001, 0x020000010000000400000000,
     0x040000070000000000000001, 0x050A00010000000100000001, 0x060000010000000000000000,
     0x070000000000000100000005, 0x090000070000000000000000, 0x0C0000000000000000000001,
     0x0F00000F0000000000000002, 0x201000000000000000000000, 0x210000000000000000000001,
     0x220000000000000100000000, 0x300000200000000000000000, 0x300000010000000000000001,
     0x330001000000000000000000, 0x340010000000000000000000, 0x350003000000000100000000,
     0x400000010000100000000004, 0x410100000000100000000004].all
      (fun w => decodeRequest w == .error .unusedField) = true ∧
    decodeRequest 0x010000110000000000000000 = .error .unknownAid ∧
    decodeRequest 0x010001010000000000000000 = .error .scalarIndex ∧
    decodeRequest 0x040B00010000000000000000 = .error .noSuchField ∧
    decodeRequest 0x04010C000000000000000000 = .error .noSuchField ∧
    [0x050200070000000000000000, 0x050100070000000000000000, 0x051200020000000000000001,
     0x051100020000000000000002, 0x050000040000000000000001].all
      (fun w => decodeRequest w == .error .noSetter) = true := by decide

/-! ### One step per vector -/

/-- T1. -/
theorem test_read :
    let t := served (started 8 [.ok 0x08001002]) 0x010000070000000000000000 []
    traffic t =
      [(.read 0x16, .ok 0x08001002)] ∧
    responses t = [(0, [])] ∧
    t.shadow .abstractcs = 0x08001002 := by decide

/-- T6: the shadow is unchanged. -/
theorem test_read_error :
    let t := served ((started 8 [.err 0x7]).setShadow .abstractcs 0x08000002) 0x010000070000000000000000 []
    traffic t =
      [(.read 0x16, .err 0x7)] ∧
    responses t = [(0x400000000700000000, [])] ∧
    t.shadow .abstractcs = 0x08000002 := by decide

/-- T2: the shadow takes the acknowledgement. -/
theorem test_write :
    let t := served ((started 8 [.ok 0x00000001]).setShadow .dmcontrol 0x80000001) 0x020000010000000000000000 []
    traffic t =
      [(.write 0x10 0x80000001, .ok 0x00000001)] ∧
    responses t = [(0, [])] ∧
    t.shadow .dmcontrol = 1 := by decide

/-- T7. -/
theorem test_write_error :
    let t := served ((started 8 [.err 0xDEAD]).setShadow .dmcontrol 1) 0x020000010000000000000000 []
    traffic t =
      [(.write 0x10 0x00000001, .err 0xDEAD)] ∧
    responses t = [(0x400000DEAD00000000, [])] ∧
    t.shadow .dmcontrol = 1 := by decide

/-- T4: the reset constant of `sbcs` is not 0. -/
theorem test_reset :
    let t := served ((started 8 []).setShadow .sbcs 0x20157407) 0x0300000F0000000000000000 []
    traffic t =
      [] ∧
    responses t = [(0, [])] ∧
    t.shadow .sbcs = 0x20040000 := by decide

/-- T11. -/
theorem test_reset_out_of_range :
    let t := served (started 8 []) 0x030004040000000000000000 []
    traffic t =
      [] ∧
    responses t = [(0, [])] ∧
    warningsOf t.events = [.index 4 4] := by decide

/-- F6: a derived getter is 1 when any of its bits is. -/
theorem test_get :
    let t := served ((started 8 []).setShadow .dmstatus 0x182) 0x041200020000000000000000 []
    traffic t =
      [] ∧
    responses t = [(0x000000000100000000, [])] := by decide

/-- F45. -/
theorem test_get_unimplemented :
    let t := served ((started 8 []).setShadow .authdata 0x12345678) 0x0400000D0000000000000000 []
    traffic t =
      [] ∧
    responses t = [(0, [])] ∧
    warningsOf t.events = [.unimpl 13 0] := by decide

/-- F36: a value too wide is cut and warned of. -/
theorem test_set_truncates :
    let t := served ((started 8 []).setShadow .command 0x00221005) 0x050000080000000000000102 []
    traffic t =
      [] ∧
    responses t = [(0, [])] ∧
    t.shadow .command = 0x02221005 ∧
    warningsOf t.events = [.trunc 8 0 0 0x102] := by decide

/-- F48: no state changes. -/
theorem test_set_out_of_range :
    let t := served (started 8 []) 0x050004100000000000000001 []
    traffic t =
      [] ∧
    responses t = [(0, [])] ∧
    warningsOf t.events = [.index 16 4] ∧
    t.sh = State.reset.sh := by decide

/-- H2. -/
theorem test_getHartsel :
    let t := served ((started 8 []).setShadow .dmcontrol 0x03451201) 0x060000000000000000000000 []
    traffic t =
      [] ∧
    responses t = [(0x000001234500000000, [])] := by decide

/-- H1. -/
theorem test_setHartsel :
    let t := served ((started 8 []).setShadow .dmcontrol 1) 0x070000000000000000012345 []
    traffic t =
      [] ∧
    responses t = [(0, [])] ∧
    t.shadow .dmcontrol = 0x03451201 ∧
    warningsOf t.events = [] := by decide

/-- H3: 2^20 is 0, with one warning. -/
theorem test_setHartsel_truncates :
    let t := served ((started 8 []).setShadow .dmcontrol 0x80000001) 0x070000000000000000100000 []
    traffic t =
      [] ∧
    responses t = [(0, [])] ∧
    t.shadow .dmcontrol = 0x80000001 ∧
    warningsOf t.events = [.trunc 1 0 5 0x100000] := by decide

/-- H6. -/
theorem test_hartselMax :
    let t := served ((started 8 []).setShadow .dmcontrol 1) 0x080000000000000000000000 []
    traffic t =
      [] ∧
    responses t = [(0, [])] ∧
    t.shadow .dmcontrol = 0x03FFFFC1 := by decide

/-- H8: all-ones even when the field was 0. -/
theorem test_cmderrClear :
    let t := served ((started 8 []).setShadow .abstractcs 0x08000002) 0x090000000000000000000000 []
    traffic t =
      [] ∧
    responses t = [(0, [])] ∧
    t.shadow .abstractcs = 0x08000702 := by decide

/-- H9. -/
theorem test_sberrorClear :
    let t := served ((started 8 []).setShadow .sbcs 0x20052407) 0x0A0000000000000000000000 []
    traffic t =
      [] ∧
    responses t = [(0, [])] ∧
    t.shadow .sbcs = 0x20057407 := by decide

/-- H10. -/
theorem test_sbbusyerrorClear :
    let t := served (started 8 []) 0x0B0000000000000000000000 []
    traffic t =
      [] ∧
    responses t = [(0, [])] ∧
    t.shadow .sbcs = 0x20440000 := by decide

/-- Y1. -/
theorem test_dtmReset :
    let t := served (started 8 []) 0x0C0000000000000000000000 []
    traffic t =
      [] ∧
    responses t = [(0, [])] ∧
    t.events = [.transportReset, .response ⟨.ok, 0, 0, 0⟩ []] := by decide

/-- Y4. -/
theorem test_setPollLimit :
    let t := served (started 3 []) 0x0D0000000000000000000000 []
    traffic t =
      [] ∧
    responses t = [(0, [])] ∧
    t.pollLimit = 0 := by decide

/-- Y3. -/
theorem test_getPollLimit :
    let t := served (started 3 []) 0x0E0000000000000000000000 []
    traffic t =
      [] ∧
    responses t = [(0x000000000300000000, [])] := by decide

/-- Y7. -/
theorem test_setPretty :
    let t := served (started 8 []) 0x0F00000F0000000000000001 []
    traffic t =
      [] ∧
    responses t = [(0, [])] ∧
    t.pretty.get .sbcs = true ∧
    t.pretty.get (.sbdata 0) = false := by decide

/-- Y9. -/
theorem test_setPretty_out_of_range :
    let t := served (started 8 []) 0x0F000C000000000000000001 []
    traffic t =
      [] ∧
    responses t = [(0, [])] ∧
    warningsOf t.events = [.index 0 12] ∧
    t.pretty = State.reset.pretty := by decide

/-- V31: the acknowledgement is stored, whatever it is. -/
theorem test_selectHart :
    let t := served ((started 8 [.ok 0x00000001]).setShadow .dmcontrol 1) 0x200123450000000000000000 []
    traffic t =
      [(.write 0x10 0x03451201, .ok 0x00000001)] ∧
    responses t = [(0, [])] ∧
    t.shadow .dmcontrol = 1 ∧
    t.hcState = .idle := by decide

/-- V32: the hart is selected again in the second word. -/
theorem test_haltHart :
    let t := served ((started 8 [.ok 0x00000001, .ok 0x00010001, .ok 0x00000C82,
        .ok 0x00000382]).setShadow .dmcontrol 1) 0x210000010000000000000000 []
    traffic t =
      [(.write 0x10 0x00010001, .ok 0x00000001), (.write 0x10 0x80010001, .ok 0x00010001), (.read 0x11,
          .ok 0x00000C82),
       (.read 0x11, .ok 0x00000382)] ∧
    responses t = [(0, [])] ∧
    t.hcState = .done ∧
    t.pollCount = 2 := by decide

/-- V36: a bound of 0 makes no read. -/
theorem test_haltHart_timeout :
    let t := served ((started 0 [.ok 0x00000001,
        .ok 0x80000001]).setShadow .dmcontrol 1) 0x210000000000000000000000 []
    traffic t =
      [(.write 0x10 0x00000001, .ok 0x00000001), (.write 0x10 0x80000001, .ok 0x80000001)] ∧
    responses t = [(0x300000000000000000, [])] ∧
    t.hcState = .failed := by decide

/-- V34. -/
theorem test_resumeHart :
    let t := served ((started 8 [.ok 0x00000001, .ok 0x40000001, .ok 0x00000382, .ok 0x00000382,
        .ok 0x00030C82]).setShadow .dmcontrol 1) 0x220000000000000000000000 []
    traffic t =
      [(.write 0x10 0x00000001, .ok 0x00000001), (.write 0x10 0x40000001, .ok 0x40000001), (.read 0x11,
          .ok 0x00000382),
       (.read 0x11, .ok 0x00000382), (.read 0x11, .ok 0x00030C82)] ∧
    responses t = [(0, [])] ∧
    t.hcState = .done ∧
    t.pollCount = 3 := by decide

/-- V14: stale `busy`, then stale `cmderr`, then the command. -/
theorem test_readGpr_stale :
    let t := served ((started 4 [.ok 0x08001302, .ok 0x08000302, .ok 0x08000702, .ok 0x08000002,
        .ok 0x00221001, .ok 0x08000002,
        .ok 0x00000077]).setShadow .abstractcs 0x08001302) 0x300000010000000000000000 []
    traffic t =
      [(.read 0x16, .ok 0x08001302), (.read 0x16, .ok 0x08000302), (.write 0x16 0x08000702, .ok 0x08000702),
       (.read 0x16, .ok 0x08000002), (.write 0x17 0x00221001, .ok 0x00221001), (.read 0x16, .ok 0x08000002),
       (.read 0x04, .ok 0x00000077)] ∧
    responses t = [(0x000000007700000000, [])] ∧
    t.acState = .done ∧
    t.pollCount = 1 := by decide

/-- V19: a transport error at the fetch. -/
theorem test_readGpr_error :
    let t := served (started 4 [.ok 0x00221003, .ok 0x08000002, .err 0xE3]) 0x300000030000000000000000 []
    traffic t =
      [(.write 0x17 0x00221003, .ok 0x00221003), (.read 0x16, .ok 0x08000002), (.read 0x04, .err 0xE3)] ∧
    responses t = [(0x40000000E300000000, [])] ∧
    t.acState = .failed ∧
    t.shadow .command = 0x00221003 := by decide

/-- V7. -/
theorem test_writeGpr :
    let t := served (started 4 [.ok 0xCAFEF00D, .ok 0x0023100A, .ok 0x08000002]) 0x3100000A00000000CAFEF00D []
    traffic t =
      [(.write 0x04 0xCAFEF00D, .ok 0xCAFEF00D), (.write 0x17 0x0023100A, .ok 0x0023100A), (.read 0x16,
          .ok 0x08000002)] ∧
    responses t = [(0, [])] ∧
    t.acState = .done := by decide

/-- Program 7, request 5. -/
theorem test_readFpr :
    let t := served (started 8 [.ok 0x00221022, .ok 0x08000002, .ok 0x3F800000]) 0x320000020000000000000000 []
    traffic t =
      [(.write 0x17 0x00221022, .ok 0x00221022), (.read 0x16, .ok 0x08000002), (.read 0x04, .ok 0x3F800000)] ∧
    responses t = [(0x003F80000000000000, [])] := by decide

/-- The command word of 2.4. -/
theorem test_writeFpr :
    let t := served (started 4 [.ok 0xA5A5A5A5, .ok 0x00231023, .ok 0x08000002]) 0x3300000300000000A5A5A5A5 []
    traffic t =
      [(.write 0x04 0xA5A5A5A5, .ok 0xA5A5A5A5), (.write 0x17 0x00231023, .ok 0x00231023), (.read 0x16,
          .ok 0x08000002)] ∧
    responses t = [(0, [])] := by decide

/-- V8: no fetch after a command error. -/
theorem test_readCsr_error :
    let t := served (started 4 [.ok 0x002207C0, .ok 0x08000202]) 0x340007C00000000000000000 []
    traffic t =
      [(.write 0x17 0x002207C0, .ok 0x002207C0), (.read 0x16, .ok 0x08000202)] ∧
    responses t = [(0x120000000000000000, [])] ∧
    t.acState = .failed ∧
    t.shadow .abstractcs = 0x08000202 := by decide

/-- V11. -/
theorem test_writeCsr_timeout :
    let t := served (started 3 [.ok 0x00000008, .ok 0x00230300, .ok 0x08001002, .ok 0x08001002,
        .ok 0x08001002]) 0x350003000000000000000008 []
    traffic t =
      [(.write 0x04 0x00000008, .ok 0x00000008), (.write 0x17 0x00230300, .ok 0x00230300), (.read 0x16,
          .ok 0x08001002),
       (.read 0x16, .ok 0x08001002), (.read 0x16, .ok 0x08001002)] ∧
    responses t = [(0x300000000000000000, [])] ∧
    t.acState = .failed := by decide

/-- V21: byte units, the streaming ended before the last fetch. -/
theorem test_readMem :
    let t := served (started 8 [.ok 0x20118000, .ok 0x00002001, .ok 0x20318407, .ok 0x20318407, .ok 0x20118407,
        .ok 0x000000A0, .ok 0x20318407, .ok 0x20318407, .ok 0x20118407, .ok 0x000000A1, .ok 0x20318407,
        .ok 0x20318407, .ok 0x20118407, .ok 0x20110407, .ok 0x000000A2]) 0x400000000000200100000003 []
    traffic t =
      [(.write 0x38 0x20118000, .ok 0x20118000), (.write 0x39 0x00002001, .ok 0x00002001), (.read 0x38,
          .ok 0x20318407),
       (.read 0x38, .ok 0x20318407), (.read 0x38, .ok 0x20118407), (.read 0x3C, .ok 0x000000A0),
       (.read 0x38, .ok 0x20318407), (.read 0x38, .ok 0x20318407), (.read 0x38, .ok 0x20118407),
       (.read 0x3C, .ok 0x000000A1), (.read 0x38, .ok 0x20318407), (.read 0x38, .ok 0x20318407),
       (.read 0x38, .ok 0x20118407), (.write 0x38 0x20110407, .ok 0x20110407), (.read 0x3C, .ok 0x000000A2)] ∧
    responses t = [(3, [0xA0, 0xA1, 0xA2])] ∧
    t.sbState = .done ∧
    t.unitIdx = 3 := by decide

/-- V24: the units before the failure are delivered. -/
theorem test_readMem_bus_error :
    let t := served (started 8 [.ok 0x20158000, .ok 0x00004000, .ok 0x20158407, .ok 0x13121110, .ok 0x20158407,
        .ok 0x17161514, .ok 0x2015A407]) 0x400000000000400000000010 []
    traffic t =
      [(.write 0x38 0x20158000, .ok 0x20158000), (.write 0x39 0x00004000, .ok 0x00004000), (.read 0x38,
          .ok 0x20158407),
       (.read 0x3C, .ok 0x13121110), (.read 0x38, .ok 0x20158407), (.read 0x3C, .ok 0x17161514),
       (.read 0x38, .ok 0x2015A407)] ∧
    responses t = [(0x220000000000000002, [0x10, 0x11, 0x12, 0x13, 0x14, 0x15, 0x16, 0x17])] ∧
    t.sbState = .failed ∧
    t.unitIdx = 2 := by decide

/-- V25: a sticky `sberror` in the shadow is cleared first. -/
theorem test_writeMem :
    let t := served ((started 8 [.ok 0x2055F407, .ok 0x20158407, .ok 0x20040407, .ok 0x00004000,
        .ok 0x20040407, .ok 0x04030201,
        .ok 0x20040407]).setShadow .sbcs 0x2015A407) 0x410000000000400000000004 [1, 2, 3, 4]
    traffic t =
      [(.write 0x38 0x2055F407, .ok 0x2055F407), (.read 0x38, .ok 0x20158407), (.write 0x38 0x20040407,
          .ok 0x20040407),
       (.write 0x39 0x00004000, .ok 0x00004000), (.read 0x38, .ok 0x20040407), (.write 0x3C 0x04030201,
           .ok 0x04030201),
       (.read 0x38, .ok 0x20040407)] ∧
    responses t = [(1, [])] ∧
    t.sbState = .done := by decide

/-- V26. -/
theorem test_writeMem_bus_error :
    let t := served (started 8 [.ok 0x20050000, .ok 0x00006000, .ok 0x20050407, .ok 0x04030201, .ok 0x20050407,
        .ok 0x08070605, .ok 0x20052407]) 0x410000000000600000000008 [1, 2, 3, 4, 5, 6, 7, 8]
    traffic t =
      [(.write 0x38 0x20050000, .ok 0x20050000), (.write 0x39 0x00006000, .ok 0x00006000), (.read 0x38,
          .ok 0x20050407),
       (.write 0x3C 0x04030201, .ok 0x04030201), (.read 0x38, .ok 0x20050407), (.write 0x3C 0x08070605,
           .ok 0x08070605),
       (.read 0x38, .ok 0x20052407)] ∧
    responses t = [(0x220000000000000001, [])] ∧
    t.sbState = .failed ∧
    t.unitIdx = 1 := by decide

/-- V1 after its preconditions, with N = 1. -/
theorem test_cmdReadGpr :
    let t := issued (started 2 [.ok 0x00221001, .ok 0x08001002, .ok 0x08000002, .ok 0x00001234]) 0x00221001
    traffic t =
      [(.write 0x17 0x00221001, .ok 0x00221001), (.read 0x16, .ok 0x08001002), (.read 0x16, .ok 0x08000002),
       (.read 0x04, .ok 0x00001234)] ∧
    responses t = [(0x000000123400000000, [])] := by decide

/-- R218, R203: with `busy` in the shadow the word waits; no second command is issued, and the wait expires. -/
theorem test_cmdReadGpr_busy :
    let t := issued ((started 2 [.ok 0x08001002, .ok 0x08001002, .ok 7]).setShadow .abstractcs 0x08001002) 0x00221001
    traffic t = [(.read 0x16, .ok 0x08001002), (.read 0x16, .ok 0x08001002)] ∧
    responses t = [(0x300000000000000000, [])] ∧
    t.acState = .failed ∧ t.answers = [.ok 7] := by decide

/-- V7 after its preconditions. -/
theorem test_cmdWriteGpr :
    let t := issued (started 2 [.ok 0x0023100A, .ok 0x08000002]) 0x0023100A
    traffic t =
      [(.write 0x17 0x0023100A, .ok 0x0023100A), (.read 0x16, .ok 0x08000002)] ∧
    responses t = [(0, [])] := by decide

/-- Program 7, request 5, after its preconditions. -/
theorem test_cmdReadFpr :
    let t := issued (started 2 [.ok 0x00221022, .ok 0x08000002, .ok 0x3F800000]) 0x00221022
    traffic t =
      [(.write 0x17 0x00221022, .ok 0x00221022), (.read 0x16, .ok 0x08000002), (.read 0x04, .ok 0x3F800000)] ∧
    responses t = [(0x003F80000000000000, [])] := by decide

/-- A transport error at the command write, as V17. -/
theorem test_cmdWriteFpr :
    let t := issued (started 2 [.err 0xE1]) 0x00231023
    traffic t =
      [(.write 0x17 0x00231023, .err 0xE1)] ∧
    responses t = [(0x40000000E100000000, [])] := by decide

/-- V8 after its preconditions. -/
theorem test_cmdReadCsr :
    let t := issued (started 2 [.ok 0x002207C0, .ok 0x08000202]) 0x002207C0
    traffic t =
      [(.write 0x17 0x002207C0, .ok 0x002207C0), (.read 0x16, .ok 0x08000202)] ∧
    responses t = [(0x120000000000000000, [])] := by decide

/-- V11 after its preconditions, with a bound of 2. -/
theorem test_cmdWriteCsr :
    let t := issued (started 2 [.ok 0x00230300, .ok 0x08001002, .ok 0x08001002]) 0x00230300
    traffic t =
      [(.write 0x17 0x00230300, .ok 0x00230300), (.read 0x16, .ok 0x08001002), (.read 0x16, .ok 0x08001002)] ∧
    responses t = [(0x300000000000000000, [])] := by decide

/-- X1: a refused word changes nothing and answers `REFUSED`. -/
theorem test_refused :
    let t := served (started 8 []) 0 []
    t.events = [.response ⟨.refused, 0, 0, 0⟩ []] ∧ responses t = [(0x500000000000000000, [])] ∧
    t.sh = State.reset.sh := by decide

/-- A word in the issue slot that the engine never writes ends the run by name. -/
theorem test_not_command_word : step { started 8 [] with inputs := [.command 0x00321005] } =
    .refused (.notCommandWord 0x00321005) := rfl

/-- A request abandoned after its first access: no response, the registers reset, the access on record. -/
theorem test_abandoned :
    let t := after (step { started 0 [.ok 1, .ok 2] with
      inputs := [.abandoned 0x210000010000000000000000 [] 1] })
    t.events = [wrote .dmcontrol 0x00010000 1] ∧ t.answers = [.ok 2] ∧ t.sh = State.reset.sh := by decide

/-! ### Witnesses: concrete states and operands that meet the hypotheses of each statement

One per statement with hypotheses; where a statement has clauses, one for each, at the ends of its ranges. -/

theorem witness_StepRunsTheDecodedRequest :
    ({ State.reset with inputs := [.request 0x060000000000000000000000 []] } : State).inputs =
      .request 0x060000000000000000000000 [] :: [] ∧
    decodeRequest 0x060000000000000000000000 = .ok .getHartsel := ⟨rfl, by decide⟩

theorem witness_StepRunsTheDecodedCommandWord :
    ({ State.reset with inputs := [.command 0x0022101F] } : State).inputs = .command 0x0022101F :: [] ∧
    decodeCommand 0x0022101F = .ok (.cmdReadGpr 31) := ⟨rfl, by decide⟩

theorem witness_StepWaitsWithNothingPresented : State.reset.inputs = [] := rfl

theorem witness_StepRefusesInvalidRequests :
    ({ State.reset with inputs := [.request 0 []] } : State).inputs = .request 0 [] :: [] ∧
    validRequest 0 = false ∧ validRequest 0x010000110000000000000000 = false ∧
    validRequest 0x051200020000000000000001 = false := ⟨rfl, by decide⟩

/-- Both sides of the equivalence: the last array index byte, and the first `aid` that names no register. -/
theorem witness_DecoderAcceptsTheValidRequests :
    validRequest 0x01FF00000000000000000000 = false ∧ validRequest 0x0100FF100000000000000000 = true ∧
    decodeRequest 0x0100FF100000000000000000 = .ok (.read .sbdata 255) := by decide

theorem witness_BlockResetRestoresEveryElement :
    ({ State.reset with inputs := [.reset] } : State).inputs = .reset :: [] := rfl

theorem witness_AbandonedRequestIsNeverAnswered :
    ({ State.reset with inputs := [.abandoned 0x0C0000000000000000000000 [] 1] } : State).inputs =
      .abandoned 0x0C0000000000000000000000 [] 1 :: [] := rfl

theorem witness_DecodeOfEncode : (Instr.set .haltsum 0 0 1).wf = false ∧ (Instr.set .progbuf 255 0 1).wf = true ∧
    (Instr.writeMem 0xFFFFFFFF 0xFFFFFFFF).wf = true := by decide

theorem witness_EncodeOfDecode : decode (.request 0x060000000000000000000000) = .ok .getHartsel ∧
    decode (.command 0x00230FFF) = .ok (.cmdWriteCsr 0xFFF) := by decide

theorem witness_OpcodeRowsAreDisjoint :
    (opcodeTable.filter fun row => row.width == 96).length = 26 ∧
    (opcodeTable.filter fun row => row.width == 32).length = 6 := by decide

theorem witness_DecodedWordsCarryTheirRow :
    decodeTableWord 96 0x220000010000000000000000 = some (.resumeHart 1) ∧
    decodeTableWord 32 0x0022103F = some (.cmdReadFpr 31) := by decide

/-- The first index out of range and the last in range; both answers of the transport. -/
theorem witness_ReadOperation :
    (RegName.data.isArray = true ∧ RegName.data.size ≤ (12 : BitVec 8).toNat) ∧
    (RegName.data.resolve 11 = some (.data 11) ∧
      (started 8 [.ok 5]).answerTo (.read (RegId.data 11).addr) = .ok 5) ∧
    (started 8 [.err 7]).answerTo (.read (RegId.data 11).addr) = .err 7 := by decide

theorem witness_WriteOperation :
    (RegName.haltsum.isArray = true ∧ RegName.haltsum.size ≤ (4 : BitVec 8).toNat) ∧
    (RegName.haltsum.resolve 3 = some (.haltsum 3) ∧
      (started 8 [.ok 5]).answerTo
        (.write (RegId.haltsum 3).addr ((started 8 [.ok 5]).shadow (.haltsum 3))) = .ok 5) ∧
    (started 8 [.err 7]).answerTo
        (.write (RegId.haltsum 3).addr ((started 8 [.err 7]).shadow (.haltsum 3))) = .err 7 := by decide

theorem witness_ResetRegisterOperation :
    (RegName.progbuf.isArray = true ∧ RegName.progbuf.size ≤ (16 : BitVec 8).toNat) ∧
    RegName.progbuf.resolve 15 = some (.progbuf 15) ∧ RegName.sbcs.resolve 0 = some .sbcs := by decide

theorem witness_OutOfRangeIndex :
    RegName.sbdata.isArray = true ∧ RegName.sbdata.size ≤ (4 : BitVec 8).toNat ∧
    [Instr.read .sbdata 4, .write .sbdata 4, .reset .sbdata 4, .get .sbdata 4 0, .set .sbdata 4 0 1,
      .setPretty .sbdata 4 true].all Instr.wf = true := by decide

theorem witness_GetOperation :
    ((RegName.dmcontrol.field? 10).map Field.acc = some .getSet ∧ RegName.dmcontrol.resolve 0 = some .dmcontrol) ∧
    (RegName.dmstatus.field? 17).map Field.acc = some .getter ∧
    (RegName.sbcs.field? 7).map Field.acc = some .getClear := by decide

/-- A field of the whole register, one of a single bit, and the one that takes bit 23 of `command` (log 18). -/
theorem witness_SetOperation :
    ((RegName.data.field? 0).map (fun f => (f.acc, f.width)) = some (.getSet, 32) ∧
      RegName.data.resolve 11 = some (.data 11)) ∧
    (RegName.dmcontrol.field? 10).map (fun f => (f.acc, f.width)) = some (.getSet, 1) ∧
    (RegName.command.field? 1).map (fun f => (f.acc, f.width)) = some (.getSet, 24) ∧
    RegName.command.resolve 0 = some .command := by decide

theorem witness_UnimplementedAccessors :
    (RegName.authdata, (0 : BitVec 8)) ∈
      [(RegName.dmcontrol, (2 : BitVec 8)), (.dmcontrol, 4), (.dmcontrol, 7), (.dmcontrol, 8), (.authdata,
          0)] := by
  decide

/-- A setter of `command` that is not the exception, and a helper. -/
theorem witness_AccessorsKeepReservedBits :
    (exec (.setHartsel 0xFFFFFFFF) State.reset = .next (after (exec (.setHartsel 0xFFFFFFFF) State.reset)) ∧
      ∀ idx v, Instr.setHartsel 0xFFFFFFFF ≠ .set .command idx 1 v) ∧
    (exec (.set .command 0 0 0x102) State.reset = .next (after (exec (.set .command 0 0 0x102) State.reset)) ∧
      ∀ idx v, Instr.set .command 0 0 0x102 ≠ .set .command idx 1 v) :=
  ⟨⟨rfl, fun _ _ h => by cases h⟩, ⟨rfl, fun _ _ h => by cases h⟩⟩

theorem witness_SetPrettyOperation :
    (RegName.sbaddress.isArray = true ∧ RegName.sbaddress.size ≤ (3 : BitVec 8).toNat) ∧
    RegName.sbaddress.resolve 2 = some (.sbaddress 2) := by decide

theorem witness_PrettyInfluencesNothing :
    exec (.read .dmstatus 0) (started 8 [.ok 0x382]) =
        .next (after (exec (.read .dmstatus 0) (started 8 [.ok 0x382]))) ∧
    (∀ n idx b, Instr.read .dmstatus 0 ≠ .setPretty n idx b) := ⟨rfl, by intro _ _ _; exact Instr.noConfusion⟩

theorem witness_SelectHartOperation :
    (started 8 [.ok 1]).answerTo (.write 0x10 0x03FFFFC0) = .ok 1 ∧
    (started 8 [.err 2]).answerTo (.write 0x10 0x03FFFFC0) = .err 2 := by decide

/-- One read that does not show the flag, then one that does, with exactly as many reads as the bound allows: for
the halt and for the resume. -/
theorem witness_HaltAndResumeComplete :
    ((started 2 [.ok 1, .ok 1, .ok 0xC82, .ok 0x382]).answers =
        .ok 1 :: .ok 1 :: okAll ([0xC82] ++ [0x382]) ++ [] ∧
      ([0xC82] : List Word).length + 1 ≤ (started 2 []).pollLimit.toNat ∧
      (∀ x ∈ [0xC82], haltSeen x = false) ∧ haltSeen 0x382 = true) ∧
    ((started 2 [.ok 1, .ok 1, .ok 0x382, .ok 0x30C82]).answers =
        .ok 1 :: .ok 1 :: okAll ([0x382] ++ [0x30C82]) ++ [] ∧
      ([0x382] : List Word).length + 1 ≤ (started 2 []).pollLimit.toNat ∧
      (∀ x ∈ [0x382], resumeSeen x = false) ∧ resumeSeen 0x30C82 = true) :=
  ⟨⟨rfl, by decide, List.forall_mem_singleton.mpr (by decide), by decide⟩,
    ⟨rfl, by decide, List.forall_mem_singleton.mpr (by decide), by decide⟩⟩

theorem witness_HaltAndResumeTimeOut :
    (started 1 [.ok 1, .ok 1, .ok 0xC82]).answers = .ok 1 :: .ok 1 :: okAll [0xC82] ++ [] ∧
    [0xC82].length = (started 1 []).pollLimit.toNat ∧ ([] : List Word).length = (started 0 []).pollLimit.toNat ∧
    (∀ x ∈ [0xC82], haltSeen x = false) ∧ (∀ x ∈ [0xC82], resumeSeen x = false) :=
  ⟨rfl, by decide, by decide, List.forall_mem_singleton.mpr (by decide),
      List.forall_mem_singleton.mpr (by decide)⟩

/-- The hypotheses of `ReadAccessCompletes`, at the bound. -/
theorem witness_RegisterReadsComplete :
    cleanCommand ((started 2 []).shadow .abstractcs) = true ∧
    (started 2 [.ok 7, .ok 0x08001002, .ok 0x08000002, .ok 9]).answers =
      .ok 7 :: okAll ([0x08001002] ++ [0x08000002]) ++ .ok 9 :: [] ∧
    (∀ b ∈ ([0x08001002] : List Word), b.getLsbD 12 = true) ∧ cleanCommand 0x08000002 = true ∧
    ([0x08001002] : List Word).length + 1 ≤ (started 2 []).pollLimit.toNat :=
  ⟨by decide, rfl, List.forall_mem_singleton.mpr (by decide), by decide, by decide⟩

/-- The hypotheses of `StagedAccessCompletes`, at the bound. -/
theorem witness_RegisterWritesComplete :
    cleanCommand ((started 1 []).shadow .abstractcs) = true ∧
    (started 1 [.ok 5, .ok 7, .ok 0x08000002]).answers = .ok 5 :: .ok 7 :: okAll ([] ++ [0x08000002]) ++ [] ∧
    (∀ b ∈ ([] : List Word), b.getLsbD 12 = true) ∧ cleanCommand 0x08000002 = true ∧
    ([] : List Word).length + 1 ≤ (started 1 []).pollLimit.toNat :=
  ⟨by decide, rfl, List.forall_mem_nil _, by decide, by decide⟩

/-- The hypotheses of `WriteCompletesFrom`; those of `ReadCompletesFrom` are met above. -/
theorem witness_CommandWordsComplete :
    cleanCommand ((started 2 []).shadow .abstractcs) = true ∧
    (started 2 [.ok 7, .ok 0x08001002, .ok 0x08000002]).answers =
      .ok 7 :: okAll ([0x08001002] ++ [0x08000002]) ++ [] ∧
    (∀ b ∈ ([0x08001002] : List Word), b.getLsbD 12 = true) ∧ cleanCommand 0x08000002 = true ∧
    ([0x08001002] : List Word).length + 1 ≤ (started 2 []).pollLimit.toNat :=
  ⟨by decide, rfl, List.forall_mem_singleton.mpr (by decide), by decide, by decide⟩

theorem witness_CleanOperationIsItsCommand :
    cleanCommand ((started 1 [.ok 5]).shadow .abstractcs) = true ∧
    commandForm? (.readCsr 0x7B1) = some (.cmdReadCsr 0x7B1, none) ∧
    commandForm? (.writeFpr 3 6) = some (.cmdWriteFpr 3, some 6) ∧
    (started 1 [.ok 5]).answers = .ok 5 :: [] := by decide

/-- Expiry at a bound of 1, and at 0; and a command error; of a row, of a read, and of a write with its staging. -/
theorem witness_CommandsFail :
    (commandWord? (.cmdReadGpr 0) = some (true, 0x00221000) ∧ stagedValue? (.cmdReadGpr 0) = none) ∧
    (commandWord? (.readCsr 5) = some (true, 0x00220005) ∧ stagedValue? (.readCsr 5) = none) ∧
    (commandWord? (.writeGpr 1 3) = some (false, 0x00231001) ∧ stagedValue? (.writeGpr 1 3) = some 3) ∧
    cleanCommand ((started 1 []).shadow .abstractcs) = true ∧
    (started 1 [.ok 7, .ok 0x08001002]).answers = .ok 7 :: okAll [0x08001002] ++ [] ∧
    ((started 1 [.ok 9, .ok 7, .ok 0x08001002]).afterStaging 3 9 [.ok 7, .ok 0x08001002]).answers =
      .ok 7 :: okAll [0x08001002] ++ [] ∧
    commandFails 1 [0x08001002] .pollTimeout ∧ commandFails 0 [] .pollTimeout ∧
    commandFails 1 [0x08000202] (.cmdError 2) :=
  ⟨⟨rfl, rfl⟩, ⟨rfl, rfl⟩, ⟨rfl, rfl⟩, by decide, rfl, rfl, ⟨rfl, List.forall_mem_singleton.mpr (by decide)⟩,
    ⟨rfl, List.forall_mem_nil _⟩,
    ⟨by decide, [], 0x08000202, rfl, List.forall_mem_nil _, by decide, by decide, by decide⟩⟩

theorem witness_StaleBusyIsWaitedOut :
    commandWord? (.readGpr 1) = some (true, 0x00221001) ∧
    (((started 2 [.ok 0x1000, .ok 2]).setShadow .abstractcs 0x1000).shadow .abstractcs).getLsbD 12 = true ∧
    (∀ b ∈ ([0x1000] : List Word), b.getLsbD 12 = true) ∧
    ((started 2 [.ok 0x1000, .ok 2]).setShadow .abstractcs 0x1000).answers = okAll ([0x1000] ++ [2]) ++ [] ∧
    (2 : Word).getLsbD 12 = false ∧ ([0x1000] : List Word).length + 1 ≤ (2 : Word).toNat ∧
    ((started 1 [.ok 0x1000]).setShadow .abstractcs 0x1000).answers = okAll [0x1000] ++ [] ∧
    ([0x1000] : List Word).length = (1 : Word).toNat :=
  ⟨rfl, by decide, List.forall_mem_singleton.mpr (by decide), rfl, by decide, by decide, rfl, rfl⟩

/-- A read-back that is clean, and one that still shows `cmderr`; without and with a staged value. -/
theorem witness_StaleCmderrIsCleared :
    let s := (started 1 [.ok 4, .ok 0x102, .ok 6, .ok 7, .ok 2]).setShadow .abstractcs 0x100
    (s.shadow .abstractcs).getLsbD 12 = false ∧ (s.shadow .abstractcs).extractLsb' 8 3 ≠ 0 ∧
    s.answers = .ok 4 :: .ok 0x102 :: [.ok 6, .ok 7, .ok 2] ∧
    cleanCommand 0x102 = false ∧
    (commandWord? (.cmdWriteGpr 1) = some (false, 0x00231001) ∧ stagedValue? (.cmdWriteGpr 1) = none) ∧
    (commandWord? (.writeGpr 1 3) = some (false, 0x00231001) ∧ stagedValue? (.writeGpr 1 3) = some 3) ∧
    ([.ok 6, .ok 7, .ok 2] : List Answer) = .ok 6 :: [.ok 7, .ok 2] := by decide

/-- A run that issues its command and one that stops before it. -/
theorem witness_OnlyItsCommandWord :
    commandWord? (.readGpr 3) = some (true, 0x00221003) ∧
    (∃ t es, exec (.readGpr 3) (started 1 [.ok 7, .ok 2, .ok 9]) = .next t ∧
      t.events = (started 1 [.ok 7, .ok 2, .ok 9]).events ++ es ∧ wordsSent .command es = [0x00221003]) ∧
    (∃ t es, exec (.readGpr 3) ((started 0 []).setShadow .abstractcs 0x1000) = .next t ∧
      t.events = ((started 0 []).setShadow .abstractcs 0x1000).events ++ es ∧ wordsSent .command es = []) :=
  ⟨rfl, ⟨_, _, rfl, rfl, by decide⟩, ⟨_, _, rfl, rfl, by decide⟩⟩

theorem witness_EngineTransitions :
    (Instr.readGpr 3).engine? = some .ac ∧ (Instr.haltHart 3).engine? = some .hc ∧ Engine.ac ≠ .sb ∧
    Engine.hc ≠ .sb ∧
    (∃ t es, exec (.readGpr 3) (started 1 [.ok 7, .ok 2, .ok 9]) = .next t ∧
      t.events = (started 1 [.ok 7, .ok 2, .ok 9]).events ++ es) ∧
    (∃ t es, exec (.haltHart 3) (started 0 [.ok 7, .ok 2]) = .next t ∧
      t.events = (started 0 [.ok 7, .ok 2]).events ++ es) :=
  ⟨rfl, rfl, by decide, by decide, ⟨_, _, rfl, rfl⟩, ⟨_, _, rfl, rfl⟩⟩

theorem witness_UnitSelection : (4 : Nat) ∈ [1, 2, 4] ∧ 4 ∣ (0xFFFFFFFC : Word).toNat ∧ 4 ∣ (8 : Word).toNat := by
  decide

theorem witness_PackingIsLittleEndian : 4 ≤ 4 ∧ 0 ≤ 4 := by decide

/-- One unit and two, each wait at its bound. -/
theorem witness_ReadMemCompletes :
    let r1 : UnitRun := ⟨⟨[0x00200000], 0⟩, 0x11⟩
    let r2 : UnitRun := ⟨⟨[], 0x00400000⟩, 0x22⟩
    cleanBus ((started 2 []).shadow .sbcs) = true ∧ unitCount 0x1000 4 = ([] : List UnitRun).length + 1 ∧
    unitCount 0x1000 8 = [r1].length + 1 ∧
    (started 2 [.ok 1, .ok 2, .ok 0x00200000, .ok 0, .ok 0x11]).answers =
      .ok 1 :: .ok 2 :: ([] : List UnitRun).flatMap UnitRun.readAnswers ++ r1.lastReadAnswers false 3 ++ [] ∧
    (started 2 [.ok 1, .ok 2, .ok 0x00200000, .ok 0, .ok 0x11, .ok 0x00400000, .ok 3, .ok 0x22]).answers =
      .ok 1 :: .ok 2 :: [r1].flatMap UnitRun.readAnswers ++ r2.lastReadAnswers true 3 ++ [] ∧
    r1.wait.good (started 2 []).pollLimit.toNat ∧ r2.wait.good (started 2 []).pollLimit.toNat :=
  ⟨by decide, by decide, by decide, rfl, rfl,
    ⟨List.forall_mem_singleton.mpr (by decide), by decide, by decide⟩,
    ⟨List.forall_mem_nil _, by decide, by decide⟩⟩

theorem witness_WriteMemCompletes :
    let w0 : Wait := ⟨[0x00200000], 0⟩
    let r1 : UnitRun := ⟨⟨[], 0⟩, 0x11⟩
    let r2 : UnitRun := ⟨⟨[0x00200000], 0x00400000⟩, 0x22⟩
    let s : State := { started 2 [.ok 1, .ok 2, .ok 0x00200000, .ok 0, .ok 0x11, .ok 0, .ok 0x22,
      .ok 0x00200000, .ok 0x00400000] with wdata := [1, 2, 3, 4, 5, 6, 7, 8] }
    cleanBus (s.shadow .sbcs) = true ∧ unitCount 0x1000 8 = [r1].length + 1 ∧
    (8 : Word).toNat ≤ s.wdata.length ∧ w0.good s.pollLimit.toNat ∧ r1.wait.good s.pollLimit.toNat ∧
    r2.wait.good s.pollLimit.toNat ∧
    s.answers = .ok 1 :: .ok 2 :: okAll w0.words ++ ([r1] ++ [r2]).flatMap UnitRun.writeAnswers ++ [] :=
  ⟨by decide, by decide, by decide,
    ⟨List.forall_mem_singleton.mpr (by decide), by decide, by decide⟩, ⟨List.forall_mem_nil _, by decide,
        by decide⟩,
    ⟨List.forall_mem_singleton.mpr (by decide), by decide, by decide⟩, rfl⟩

/-- A bus error at the second unit, and expiry at the first. -/
theorem witness_ReadMemStops :
    let r1 : UnitRun := ⟨⟨[], 0⟩, 0x11⟩
    cleanBus ((started 1 []).shadow .sbcs) = true ∧ [r1].length < unitCount 0x1000 8 ∧
    ([] : List UnitRun).length < unitCount 0x1000 8 ∧ r1.wait.good (started 1 []).pollLimit.toNat ∧
    busFails (started 1 []).pollLimit.toNat [0x2000] (.busError 2) ∧
    busFails (started 1 []).pollLimit.toNat [0x00200000] .pollTimeout ∧
    (started 1 [.ok 1, .ok 2, .ok 0, .ok 0x11, .ok 0x2000]).answers =
      .ok 1 :: .ok 2 :: [r1].flatMap UnitRun.readAnswers ++ okAll [0x2000] ++ [] ∧
    (started 1 [.ok 1, .ok 2, .ok 0x00200000]).answers =
      .ok 1 :: .ok 2 :: ([] : List UnitRun).flatMap UnitRun.readAnswers ++ okAll [0x00200000] ++ [] :=
  ⟨by decide, by decide, by decide, ⟨List.forall_mem_nil _, by decide, by decide⟩,
    ⟨by decide, [], 0x2000, rfl, List.forall_mem_nil _, by decide, by decide, by decide⟩,
    ⟨by decide, List.forall_mem_singleton.mpr (by decide)⟩, rfl, rfl⟩

theorem witness_WriteMemStops :
    let w0 : Wait := ⟨[], 0⟩
    let r1 : UnitRun := ⟨⟨[], 0⟩, 0x11⟩
    cleanBus ((started 1 []).shadow .sbcs) = true ∧ 0 < unitCount 0x1000 8 ∧
    (8 : Word).toNat ≤ ({ started 1 [] with wdata := [1, 2, 3, 4, 5, 6, 7, 8] } : State).wdata.length ∧
    busFails (started 1 []).pollLimit.toNat [0x2000] (.busError 2) ∧
    busFails (started 0 []).pollLimit.toNat [] .pollTimeout ∧
    (started 1 [.ok 1, .ok 2, .ok 0x2000]).answers = .ok 1 :: .ok 2 :: okAll [0x2000] ++ [] ∧
    w0.good (started 1 []).pollLimit.toNat ∧ r1.wait.good (started 1 []).pollLimit.toNat ∧
    [r1].length < unitCount 0x1000 8 ∧
    (started 1 [.ok 1, .ok 2, .ok 0, .ok 0x11, .ok 0, .ok 3, .ok 0x2000]).answers =
      .ok 1 :: .ok 2 :: okAll w0.words ++ [r1].flatMap UnitRun.writeAnswers ++ .ok 3 :: okAll [0x2000] ++ [] :=
  ⟨by decide, by decide, by decide,
    ⟨by decide, [], 0x2000, rfl, List.forall_mem_nil _, by decide, by decide, by decide⟩,
    ⟨by decide, List.forall_mem_nil _⟩, rfl, ⟨List.forall_mem_nil _, by decide, by decide⟩,
    ⟨List.forall_mem_nil _, by decide, by decide⟩, by decide, rfl⟩

/-- A stale `sbbusy` that clears at the last read the bound allows, and one that does not; and a sticky field whose
read-back is clean, and one whose read-back is still sticky and busy. -/
theorem witness_TransferPreconditions :
    (Instr.readMem 0x1000 4 ∈ [Instr.readMem 0x1000 4, .writeMem 0x1000 4] ∧ (4 : Word) ≠ 0) ∧
    (let s := (started 2 [.ok 0x00200000, .ok 0]).setShadow .sbcs 0x00200000
     (s.shadow .sbcs).getLsbD 21 = true ∧ (∀ b ∈ ([0x00200000] : List Word), b.getLsbD 21 = true) ∧
      (0 : Word).getLsbD 21 = false ∧ ([0x00200000] : List Word).length + 1 ≤ s.pollLimit.toNat ∧
      s.answers = okAll ([0x00200000] ++ [0]) ++ []) ∧
    (let s := (started 1 [.ok 0x00200000]).setShadow .sbcs 0x00200000
     (s.shadow .sbcs).getLsbD 21 = true ∧ (∀ b ∈ ([0x00200000] : List Word), b.getLsbD 21 = true) ∧
      ([0x00200000] : List Word).length = s.pollLimit.toNat ∧ s.answers = okAll [0x00200000] ++ []) ∧
    (let s := (started 2 [.ok 7, .ok 0]).setShadow .sbcs 0x1000
     (s.shadow .sbcs).getLsbD 21 = false ∧ cleanBus (s.shadow .sbcs) = false ∧
      s.answers = .ok 7 :: .ok 0 :: [] ∧ cleanBus 0 = true) ∧
    (let s := (started 2 [.ok 7, .ok 0x00201000, .ok 1, .ok 2]).setShadow .sbcs 0x00400000
     (s.shadow .sbcs).getLsbD 21 = false ∧ cleanBus (s.shadow .sbcs) = false ∧
      s.answers = .ok 7 :: .ok 0x00201000 :: [.ok 1, .ok 2] ∧ cleanBus 0x00201000 = false) :=
  ⟨by decide, ⟨by decide, List.forall_mem_singleton.mpr (by decide), by decide, by decide, rfl⟩,
    ⟨by decide, List.forall_mem_singleton.mpr (by decide), by decide, rfl⟩,
    ⟨by decide, by decide, rfl, by decide⟩, ⟨by decide, by decide, rfl, by decide⟩⟩

/-- Two units of one byte, read back with other bits above the byte; and a transfer of no byte. -/
theorem witness_MemoryRoundTrip :
    (let s : State := { started 2 [.ok 1, .ok 2, .ok 0, .ok 0x11, .ok 0, .ok 0x22, .ok 0] with
       wdata := [1, 2] }
     let s' := started 2 [.ok 1, .ok 2, .ok 0, .ok 0xFFFFFF01, .ok 0, .ok 3, .ok 0xAB000002]
     ∃ t t' es es', s.wdata.length = (2 : Word).toNat ∧ exec (.writeMem 0x1001 2) s = .next t ∧
      t.events = s.events ++ es ∧ ((⟨.ok, 0, 0, 2⟩, []) : Response × List Byte) ∈ responsesOf es ∧
      exec (.readMem 0x1001 2) s' = .next t' ∧ t'.events = s'.events ++ es' ∧
      ((⟨.ok, 0, 0, 2⟩, [1, 2]) : Response × List Byte) ∈ responsesOf es' ∧
      (wordsRead (.sbdata 0) es').map (BitVec.setWidth (8 * unitSize 0x1001 2)) =
        (wordsSent (.sbdata 0) es).map (BitVec.setWidth (8 * unitSize 0x1001 2))) ∧
    (∃ t t' es es', State.reset.wdata.length = (0 : Word).toNat ∧ exec (.writeMem 0 0) State.reset = .next t ∧
      t.events = State.reset.events ++ es ∧ ((⟨.ok, 0, 0, 0⟩, []) : Response × List Byte) ∈ responsesOf es ∧
      exec (.readMem 0 0) State.reset = .next t' ∧ t'.events = State.reset.events ++ es' ∧
      ((⟨.ok, 0, 0, 0⟩, []) : Response × List Byte) ∈ responsesOf es' ∧
      (wordsRead (.sbdata 0) es').map (BitVec.setWidth (8 * unitSize 0 0)) =
        (wordsSent (.sbdata 0) es).map (BitVec.setWidth (8 * unitSize 0 0))) :=
  ⟨⟨_, _, _, _, rfl, rfl, rfl, by decide, rfl, rfl, by decide, by decide⟩,
    ⟨_, _, _, _, rfl, rfl, rfl, by decide, rfl, rfl, by decide, by decide⟩⟩

theorem witness_TransferAccessBound :
    Instr.writeMem 0x1000 8 ∈ [Instr.readMem 0x1000 8, .writeMem 0x1000 8] := by decide

/-- A read that stops at its second unit, and a write that a transport error ends in the wait of its second. -/
theorem witness_CountIsUnitsTransferred :
    (let s := started 2 [.ok 1, .ok 2, .ok 0, .ok 0x04030201, .ok 0x2000]
     ∃ t es, Instr.readMem 0x1000 8 ∈ [Instr.readMem 0x1000 8, .writeMem 0x1000 8] ∧
      exec (.readMem 0x1000 8) s = .next t ∧ t.events = s.events ++ es ∧
      ((⟨.busError, 2, 0, 1⟩, [1, 2, 3, 4]) : Response × List Byte) ∈ responsesOf es ∧
      wordsRead (.sbdata 0) es = [0x04030201]) ∧
    (let s : State := { started 2 [.ok 1, .ok 2, .ok 0, .ok 0, .ok 0, .ok 0, .err 9] with
       wdata := [1, 2, 3, 4, 5, 6, 7, 8] }
     ∃ t es, Instr.writeMem 0x1000 8 ∈ [Instr.readMem 0x1000 8, .writeMem 0x1000 8] ∧
      exec (.writeMem 0x1000 8) s = .next t ∧ t.events = s.events ++ es ∧
      ((⟨.transportError, 0, 9, 1⟩, []) : Response × List Byte) ∈ responsesOf es ∧ unitsFinished es = 1) :=
  ⟨⟨_, _, by decide, rfl, rfl, by decide, by decide⟩, ⟨_, _, by decide, rfl, rfl, by decide, by decide⟩⟩

/-- Ready at the last read the bound allows, expired, and a bound of 0. -/
theorem witness_PollingIsBounded :
    let c : Word → Bool := fun x => x == 5
    poll .abstractcs c (started 2 [.ok 4, .ok 5]) = .go true (leaves (poll .abstractcs c (started 2 [.ok 4,
        .ok 5]))) ∧
    poll .abstractcs c (started 1 [.ok 4]) = .go false (leaves (poll .abstractcs c (started 1 [.ok 4]))) ∧
    poll .abstractcs c (started 0 []) = .go false (leaves (poll .abstractcs c (started 0 []))) := ⟨rfl, rfl, rfl⟩

/-- A cycle that fails after the command was issued. -/
theorem witness_NothingFollowsATransportError :
    ∃ t es, exec (.readGpr 3) (started 1 [.ok 7, .err 9]) = .next t ∧
      t.events = (started 1 [.ok 7, .err 9]).events ++ es ∧
      es = [wrote .command 0x00221003 7, .engine .ac .issued, .engine .ac .polling] ++
        .cycle (.read 0x16) (.err 9) :: [.engine .ac .failed, .response ⟨.transportError, 0, 9, 0⟩ []] ∧
      ((⟨.transportError, 0, 9, 0⟩, []) : Response × List Byte) ∈ responsesOf es :=
  ⟨_, _, rfl, rfl, rfl, by decide⟩

theorem witness_OperationsKeepTheirFrame :
    ∃ t es, exec (.readGpr 3) (started 1 [.ok 7, .ok 2, .ok 9]) = .next t ∧
      t.events = (started 1 [.ok 7, .ok 2, .ok 9]).events ++ es ∧
      (Instr.readGpr 3).mayChange .dmcontrol = false ∧ (Instr.readGpr 3).engine? ≠ some .hc ∧
      (Instr.readGpr 3).movesMemory = false ∧ (Instr.setPretty .data 0 true).engine? = none ∧
      Instr.readGpr 3 ≠ .dtmReset := ⟨_, _, rfl, rfl, by decide, by decide, rfl, rfl, by decide⟩

theorem witness_StatusesOfOperations :
    (∃ t es, exec (.readCsr 3) (started 1 [.ok 7, .ok 0x200]) = .next t ∧
      t.events = (started 1 [.ok 7, .ok 0x200]).events ++ es ∧
      ((⟨.cmdError, 2, 0, 0⟩, []) : Response × List Byte) ∈ responsesOf es) ∧
    (∃ t es, exec (.read .sbcs 1) State.reset = .next t ∧ t.events = State.reset.events ++ es ∧
      ((⟨.refused, 0, 0, 0⟩, []) : Response × List Byte) ∈ responsesOf es) :=
  ⟨⟨_, _, rfl, rfl, by decide⟩, ⟨_, _, rfl, rfl, by decide⟩⟩

/-- A step that runs an engine to its end. -/
theorem witness_StepKeepsEnginesAtRest :
    let s : State := { started 0 [.ok 1, .ok 2] with inputs := [.request 0x210000010000000000000000 []] }
    s.quiet ∧ ∃ t, step s = .next t ∧ t.hcState = .failed := ⟨fun e => by cases e <;> rfl, _, rfl, by decide⟩

/-- A step that adds accesses to a record that has one. -/
theorem witness_StepKeepsAccessesAddressed :
    let s : State := { started 0 [.ok 1, .ok 2] with
      inputs := [.request 0x210000010000000000000000 []]
      events := [fetched .dmstatus 2] }
    s.addressed ∧ ∃ t, step s = .next t ∧ (accessesOf t.events).length = 3 :=
  ⟨by unfold State.addressed; decide, _, rfl, by decide⟩

end Sys2Proof.Tests
end

section
/-!
What a step does with the input at the head of the list (10_state.md R26, 00_scope.md R4), and that a request word
decodes to a well-formed instruction only (30_encoding.md R134).
-/

namespace Sys2Proof

/-- An operation on a register designator is well formed as soon as its well-formedness is the check that
`withName` has made (R134 (b)). -/
theorem Request.wf_of_withName {r : Request} {op : RegName → Instr} {i : Instr}
    (h : r.withName (fun n => .ok (op n)) = .ok i) (hop : ∀ n, (op n).wf = n.indexOk r.idx) :
    i.wf = true := by
  obtain ⟨n, -, hidx, hi⟩ := Request.withName_ok.mp h
  cases hi
  rw [hop, hidx]

/-- A request decodes to a well-formed instruction only: the checks the decoder makes on a designator are those of
R134, and an operation without one has nothing to check. -/
theorem Request.wf_of_decode {r : Request} {i : Instr} (h : r.decode = .ok i) : i.wf = true := by
  unfold Request.decode at h
  split at h
  -- `read`, `write`, `reset`, `setPretty`: a register
  case h_1 | h_2 | h_3 | h_15 => exact wf_of_withName (requireZero_ok.mp h).2 fun _ => rfl
  -- `get`: a field
  case h_4 =>
    obtain ⟨n, f, -, hidx, hf, hi⟩ := Request.withField_ok.mp (requireZero_ok.mp h).2
    cases hi
    simp [Instr.wf, hidx, hf]
  -- `set`: a field with a setter
  case h_5 =>
    obtain ⟨n, f, -, hidx, hf, hi⟩ := Request.withField_ok.mp (requireZero_ok.mp h).2
    split at hi
    next hset =>
      cases hi
      simp [Instr.wf, hidx, hf, hset]
    next => cases hi
  -- an unassigned `op`
  case h_27 => cases h
  -- the operations without a designator
  all_goals
    cases (requireZero_ok.mp h).2
    rfl

theorem wf_of_decodeRequest {word : BitVec 96} {i : Instr} (h : decodeRequest word = .ok i) : i.wf = true :=
  Request.wf_of_decode h

namespace Machine

variable {s : State} {word : BitVec 96}

/-- A step with nothing presented (log 4). -/
theorem step_of_inputs_nil (h : s.inputs = []) : step s = .next s := by
  rw [step, serveNext, h]

/-- A step with a request word presented: the word is served, taken off the inputs (R4, R26). -/
theorem step_of_inputs_request {data : List Byte} {rest : List Input}
    (h : s.inputs = .request word data :: rest) : step s = serveRequest word (s.accept rest data) := by
  rw [step, serveNext, h]

/-- A request word that decodes is served by the operation it encodes (R132). -/
theorem serveRequest_of_decode {i : Instr} (h : decodeRequest word = .ok i) : serveRequest word s = exec i s := by
  rw [serveRequest, h]

end Machine

end Sys2Proof

namespace Sys2Proof.Certificates

open Machine

/-- Settles O1: the decoder makes every check of well-formedness, and a step serves the request with what the word
decodes to. -/
theorem stepRunsTheDecodedRequest : Obligations.StepRunsTheDecodedRequest := by
  intro s word data rest i hin hdec
  have hstep : step s = exec i (s.accept rest data) := by
    rw [step_of_inputs_request hin, serveRequest_of_decode hdec]
  exact ⟨wf_of_decodeRequest hdec, hstep⟩

/-- Settles O3. -/
theorem stepWaitsWithNothingPresented : Obligations.StepWaitsWithNothingPresented :=
  fun _ hin => step_of_inputs_nil hin

end Sys2Proof.Certificates
end

section
/-!
The frame of every instruction (10_state.md R23, R28 to R32, 40_register_ops.md R175): one relation between the state
before and after, closed under running one part after another, and one lemma per way an operation acts and ends. Then
the engines: the one an operation runs ends at rest, the others are framed.
-/

namespace Sys2Proof

/-- What an operation drives it may also change: an answered cycle loads the shadow (R160, R161). -/
theorem Instr.mayChange_of_mayAccess {i : Instr} {r : Machine.RegId} (h : i.mayAccess r = true) :
    i.mayChange r = true := by
  cases i with
  | reset | set | setHartsel | hartselMax | cmderrClear | sberrorClear | sbbusyerrorClear => cases h
  | _ => exact h

end Sys2Proof

namespace Sys2Proof.Machine

/-- From `s` the block went to `t` and recorded `es`, and only what operation `i` may touch differs. Unlike `Ran`, the
record may hold the warnings, the response and the transport reset of `i`, and `i` may change a shadow whose address it
does not drive. -/
structure KeptFrame (i : Instr) (s t : State) (es : List Event) : Prop where
  events : t.events = s.events ++ es
  shadow : ∀ r, i.mayChange r = false → t.shadow r = s.shadow r
  drives : ∀ a ∈ accessesOf es, a.drives i.mayAccess = true
  engine : ∀ en, i.engine? ≠ some en → t.engineState en = s.engineState en ∧ engineTrace en es = []
  pollCount : i.engine? = none → t.pollCount = s.pollCount
  transfer : i.movesMemory = false → t.unitIdx = s.unitIdx ∧ t.rdata = s.rdata
  pollLimit : (∀ v, i ≠ .setPollLimit v) → t.pollLimit = s.pollLimit
  pretty : (∀ n idx b, i ≠ .setPretty n idx b) → t.pretty = s.pretty
  transportReset : i ≠ .dtmReset → Event.transportReset ∉ es
  inputs : t.inputs = s.inputs
  wdata : t.wdata = s.wdata
  answers : t.answers = s.answers.drop (accessesOf es).length

/-- Operation `i` may take the block from `s` to `t`, whatever it records. -/
def KeepsFrame (i : Instr) (s t : State) : Prop := ∃ es, KeptFrame i s t es

variable {i : Instr} {s t u : State}

theorem KeptFrame.trans {es fs : List Event} (h : KeptFrame i s t es) (g : KeptFrame i t u fs) :
    KeptFrame i s u (es ++ fs) where
  events := by rw [g.events, h.events, List.append_assoc]
  shadow r hr := (g.shadow r hr).trans (h.shadow r hr)
  drives a ha := by
    rw [accessesOf_append] at ha
    exact (List.mem_append.mp ha).elim (h.drives a) (g.drives a)
  engine en he := by
    obtain ⟨hs, ht⟩ := h.engine en he
    obtain ⟨gs, gt⟩ := g.engine en he
    exact ⟨gs.trans hs, by rw [engineTrace_append, ht, gt, List.append_nil]⟩
  pollCount he := (g.pollCount he).trans (h.pollCount he)
  transfer hm := ⟨(g.transfer hm).1.trans (h.transfer hm).1, (g.transfer hm).2.trans (h.transfer hm).2⟩
  pollLimit hi := (g.pollLimit hi).trans (h.pollLimit hi)
  pretty hi := (g.pretty hi).trans (h.pretty hi)
  transportReset hi hm := (List.mem_append.mp hm).elim (h.transportReset hi) (g.transportReset hi)
  inputs := g.inputs.trans h.inputs
  wdata := g.wdata.trans h.wdata
  answers := by rw [g.answers, h.answers, List.drop_drop, accessesOf_append, List.length_append]

theorem KeepsFrame.trans (h : KeepsFrame i s t) (g : KeepsFrame i t u) : KeepsFrame i s u := by
  obtain ⟨es, h⟩ := h
  obtain ⟨fs, g⟩ := g
  exact ⟨es ++ fs, h.trans g⟩

/-! ### What the events of a part can be -/

theorem drives_of_within {p : RegId → Bool} {en : Option Engine} {es : List Event}
    (h : ∀ e ∈ es, e.within p en = true) : ∀ a ∈ accessesOf es, a.drives p = true := by
  intro a ha
  obtain ⟨e, he, hea⟩ := List.mem_filterMap.mp ha
  have hw := h e he
  cases e with
  | cycle b x => cases hea; exact hw
  | transportReset | warning | engine | response => cases hea

theorem engineTrace_of_within {p : RegId → Bool} {en : Option Engine} {es : List Event} {g : Engine}
    (h : ∀ e ∈ es, e.within p en = true) (hg : en ≠ some g) : engineTrace g es = [] := by
  refine List.filterMap_eq_nil_iff.mpr fun e he => ?_
  have hw := h e he
  cases e with
  | engine g' st =>
    refine if_neg ?_
    rintro rfl
    exact hg (of_decide_eq_true hw)
  | cycle | transportReset | warning | response => rfl

/-- A part that touches shadows the operation may change and drives only its addresses. -/
theorem Ran.keptFrame {p : RegId → Bool} {es : List Event} (h : Ran p i.engine? i.movesMemory s t es)
    (hp : ∀ r, p r = true → i.mayChange r = true) (hd : ∀ a ∈ accessesOf es, a.drives i.mayAccess = true) :
    KeptFrame i s t es where
  events := h.events
  shadow r hr := h.shadow r (Bool.eq_false_iff.mpr fun hpr => by rw [hp r hpr] at hr; cases hr)
  drives := hd
  engine en he := ⟨h.engine en he, engineTrace_of_within h.log he⟩
  pollCount := h.pollCount
  transfer hm := ⟨h.unitIdx hm, h.rdata hm⟩
  pollLimit _ := h.pollLimit
  pretty _ := h.pretty
  transportReset _ hm := by cases h.log _ hm
  inputs := h.inputs
  wdata := h.wdata
  answers := h.answers

/-- A part that runs the operation's engine on the registers it drives. -/
theorem Ran.keepsFrame {es : List Event} (h : Ran i.mayAccess i.engine? i.movesMemory s t es) :
    KeepsFrame i s t :=
  ⟨es, h.keptFrame (fun _ => Instr.mayChange_of_mayAccess) (drives_of_within h.log)⟩

/-- Whichever way such a part ends, the frame is kept. -/
theorem Res.Runs.keepsFrame {α : Type} {x : Res α} {p : RegId → Bool} {en : Option Engine} {mv : Bool}
    (h : x.Runs p en mv s) (hr : i.mayAccess = p) (hi : i.engine? = en) (hm : i.movesMemory = mv) :
    x.Ends (KeepsFrame i s) (KeepsFrame i s) := by
  subst hr hi hm
  cases x with
  | go a t => obtain ⟨es, hran, -⟩ := h; exact hran.keepsFrame
  | stop x t => obtain ⟨es, hran, -⟩ := h; exact hran.keepsFrame

theorem KeepsFrame.refl (i : Instr) (s : State) : KeepsFrame i s s := (Ran.refl _ _ _ s).keepsFrame

/-- The engine an operation runs is its own to write. -/
theorem KeepsFrame.setEngine {g : Engine} (h : KeepsFrame i s t) (hg : i.engine? = some g) (st : EngineState) :
    KeepsFrame i s (t.setEngine g st) :=
  h.trans (Ran.keepsFrame (hg ▸ Ran.setEngine g st))

/-! ### Local writes and the answer -/

/-- An event that is no access and no engine's touches nothing. -/
theorem KeepsFrame.record (h : KeepsFrame i s t) {e : Event} (ha : e.access? = none)
    (he : ∀ en, engineTrace en [e] = []) (hr : i ≠ .dtmReset → e ≠ .transportReset) :
    KeepsFrame i s (t.record e) :=
  h.trans ⟨[e], {
    events := rfl
    shadow := fun _ _ => rfl
    drives := by simp [ha]
    engine := fun en _ => ⟨by simp, he en⟩
    pollCount := fun _ => rfl
    transfer := fun _ => ⟨rfl, rfl⟩
    pollLimit := fun _ => rfl
    pretty := fun _ => rfl
    transportReset := fun hi hm => hr hi (List.mem_singleton.mp hm).symm
    inputs := rfl
    wdata := rfl
    answers := by simp [ha] }⟩

theorem KeepsFrame.warn (h : KeepsFrame i s t) (w : Warning) : KeepsFrame i s (t.warn w) :=
  h.record rfl (fun _ => rfl) fun _ => Event.noConfusion

theorem KeepsFrame.respond (h : KeepsFrame i s t) (r : Response) (d : List Byte) :
    KeepsFrame i s (t.respond r d) :=
  h.record rfl (fun _ => rfl) fun _ => Event.noConfusion

theorem KeepsFrame.respondOk (h : KeepsFrame i s t) (v : Word) : KeepsFrame i s (t.respondOk v) :=
  h.respond _ _

theorem KeepsFrame.refuse (i : Instr) (s : State) : KeepsFrame i s s.refuse := (KeepsFrame.refl i s).respond _ _

/-- A shadow the operation may change, driven or not. -/
theorem KeepsFrame.setShadow (h : KeepsFrame i s t) {r : RegId} (hr : i.mayChange r = true) (v : Word) :
    KeepsFrame i s (t.setShadow r v) :=
  h.trans ⟨[], (Ran.setShadow hr v).keptFrame (fun _ => id) (by simp)⟩

theorem KeepsFrame.putField (h : KeepsFrame i s t) {r : RegId} (hr : i.mayChange r = true) (f : Field)
    (v : Word) : KeepsFrame i s (t.putField r f v) :=
  h.setShadow hr _

theorem setPollLimit_keepsFrame (v : Word) (s : State) : KeepsFrame (.setPollLimit v) s (s.setPollLimit v) :=
  ⟨[], {
    events := by simp
    shadow := fun _ _ => rfl
    drives := by simp
    engine := fun en _ => ⟨by simp, rfl⟩
    pollCount := fun _ => rfl
    transfer := fun _ => ⟨rfl, rfl⟩
    pollLimit := fun hi => absurd rfl (hi v)
    pretty := fun _ => rfl
    transportReset := by simp
    inputs := rfl
    wdata := rfl
    answers := by simp }⟩

theorem setPretty_keepsFrame (n : RegName) (idx : BitVec 8) (b : Bool) (r : RegId) (s : State) :
    KeepsFrame (.setPretty n idx b) s (s.setPretty r b) :=
  ⟨[], {
    events := by simp
    shadow := fun _ _ => rfl
    drives := by simp
    engine := fun en _ => ⟨by simp, rfl⟩
    pollCount := fun _ => rfl
    transfer := fun _ => ⟨rfl, rfl⟩
    pollLimit := fun _ => rfl
    pretty := fun hi => absurd rfl (hi n idx b)
    transportReset := by simp
    inputs := rfl
    wdata := rfl
    answers := by simp }⟩

/-! ### Designators -/

theorem withReg_keepsFrame {n : RegName} {idx : BitVec 8} {f : RegId → State}
    (h : ∀ r, n.resolve idx = some r → KeepsFrame i s (f r)) : KeepsFrame i s (withReg n idx s f) := by
  rcases withReg_cases n idx s f with ⟨-, e⟩ | ⟨-, -, e⟩ | ⟨r, -, hr, e⟩ <;> rw [e]
  · exact KeepsFrame.refuse i s
  · exact ((KeepsFrame.refl i s).warn _).respondOk 0
  · exact h r hr

theorem withField_keepsFrame {n : RegName} {idx fid : BitVec 8} {usable : Field → Bool}
    {f : RegId → Field → State} (h : ∀ r fd, n.resolve idx = some r → KeepsFrame i s (f r fd)) :
    KeepsFrame i s (withField n idx fid usable s f) := by
  rcases withField_cases n idx fid usable s f with ⟨-, e⟩ | ⟨-, -, e⟩ | ⟨r, fd, -, hr, -, -, e⟩ <;> rw [e]
  · exact KeepsFrame.refuse i s
  · exact ((KeepsFrame.refl i s).warn _).respondOk 0
  · exact h r fd hr

theorem getField_keepsFrame (i : Instr) (n : RegName) (fid : BitVec 8) (s : State) (r : RegId) (f : Field) :
    KeepsFrame i s (getField n fid s r f) := by
  unfold getField
  split
  · exact ((KeepsFrame.refl i s).warn _).respondOk 0
  all_goals exact (KeepsFrame.refl i s).respondOk _

/-- A warning that is given or not. -/
theorem KeepsFrame.warnIf (i : Instr) (s : State) (c : Prop) [Decidable c] (w : Warning) :
    KeepsFrame i s (if c then s.warn w else s) := by
  split
  · exact (KeepsFrame.refl i s).warn w
  · exact KeepsFrame.refl i s

theorem setField_keepsFrame {r : RegId} (hr : i.mayChange r = true) (n : RegName) (idx fid : BitVec 8) (v : Word)
    (s : State) (f : Field) : KeepsFrame i s (setField n idx fid v s r f) := by
  unfold setField
  split
  · exact ((KeepsFrame.refl i s).warn _).respondOk 0
  all_goals exact ((KeepsFrame.warnIf i s _ _).putField hr f v).respondOk 0

/-! ### How operations end -/

theorem primitiveEnd_keepsFrame {x : Res Unit} (h : x.Ends (KeepsFrame i s) (KeepsFrame i s)) :
    KeepsFrame i s (primitiveEnd x) := by
  cases x with
  | go _ t => exact KeepsFrame.respondOk h 0
  | stop y t => exact KeepsFrame.respond h _ _

theorem commandEnd_keepsFrame {x : Res Word} (hi : i.engine? = some .ac)
    (h : x.Ends (KeepsFrame i s) (KeepsFrame i s)) : KeepsFrame i s (commandEnd x) := by
  cases x with
  | go v t => exact (KeepsFrame.setEngine h hi .done).respondOk v
  | stop y t => exact (KeepsFrame.setEngine h hi .failed).respond _ _

theorem hartEnd_keepsFrame {x : Res Unit} (hi : i.engine? = some .hc)
    (h : x.Ends (KeepsFrame i s) (KeepsFrame i s)) : KeepsFrame i s (hartEnd x) := by
  cases x with
  | go _ t => exact (KeepsFrame.setEngine h hi .done).respondOk 0
  | stop y t => exact (KeepsFrame.setEngine h hi .failed).respond _ _

theorem transferEnd_keepsFrame {x : Res Unit} (hi : i.engine? = some .sb)
    (h : x.Ends (KeepsFrame i s) (KeepsFrame i s)) : KeepsFrame i s (transferEnd x) := by
  cases x with
  | go _ t => exact (KeepsFrame.setEngine h hi .done).respond _ _
  | stop y t => exact (KeepsFrame.setEngine h hi .failed).respond _ _

/-- `selectHart` ends as a primitive operation does (R260). -/
theorem execSelectHart_eq (h : BitVec 20) (s : State) :
    execSelectHart h s = .next (primitiveEnd (selectSteps h s)) := rfl

/-- An operation of the abstract command engine keeps its frame (R217). -/
theorem accessReg_keepsFrame (hr : i.mayAccess = commandRegs) (hi : i.engine? = some .ac)
    (hm : i.movesMemory = false) (write : Bool) (regno : BitVec 16) (staged : Option Word) (s : State) :
    KeepsFrame i s (accessReg write regno staged s) := by
  refine commandEnd_keepsFrame hi (Res.Runs.keepsFrame ?_ hr hi hm)
  exact accessReg_runs write regno staged

/-- A transfer, of no unit or of some, keeps its frame once its steps do (R243, R244). -/
theorem transfer_keepsFrame {c : Prop} [Decidable c] {x : Res Unit} (hr : i.mayAccess = busRegs)
    (hi : i.engine? = some .sb) (hm : i.movesMemory = true)
    (hx : x.Runs busRegs (some .sb) true (beginTransfer s)) :
    KeepsFrame i s (transferEnd (if c then .go () (beginTransfer s) else x)) := by
  refine transferEnd_keepsFrame hi (Res.Runs.keepsFrame ?_ hr hi hm)
  refine .after Ran.beginTransfer noErr_nil ?_
  split
  · exact Res.Runs.go ()
  · exact hx

/-- Every instruction keeps its frame. -/
theorem exec_keepsFrame (h : exec i s = .next t) : KeepsFrame i s t := by
  cases i with
  | read n idx =>
    cases h
    exact withReg_keepsFrame fun r hr => primitiveEnd_keepsFrame ((rd_runs (decide_eq_true hr)).keepsFrame rfl rfl rfl)
  | write n idx =>
    cases h
    exact withReg_keepsFrame fun r hr => primitiveEnd_keepsFrame ((wr_runs (decide_eq_true hr)).keepsFrame rfl rfl rfl)
  | reset n idx =>
    cases h
    exact withReg_keepsFrame fun r hr =>
      ((KeepsFrame.refl (.reset n idx) s).setShadow (decide_eq_true hr) _).respondOk 0
  | get n idx fid =>
    cases h
    exact withField_keepsFrame fun r f _ => getField_keepsFrame _ n fid s r f
  | set n idx fid v =>
    cases h
    exact withField_keepsFrame fun r f hr =>
      setField_keepsFrame (i := .set n idx fid v) (decide_eq_true hr) n idx fid v s f
  | getHartsel | getPollLimit =>
    cases h
    exact (KeepsFrame.refl _ s).respondOk _
  | setHartsel v =>
    cases h
    exact ((KeepsFrame.warnIf _ s _ _).setShadow rfl _).respondOk 0
  | hartselMax =>
    cases h
    exact (((KeepsFrame.refl _ s).putField rfl _ _).putField rfl _ _).respondOk 0
  | cmderrClear | sberrorClear | sbbusyerrorClear =>
    cases h
    exact ((KeepsFrame.refl _ s).putField rfl _ _).respondOk 0
  | dtmReset =>
    cases h
    exact ((KeepsFrame.refl _ s).record rfl (fun _ => rfl) (absurd rfl)).respondOk 0
  | setPollLimit v =>
    cases h
    exact (setPollLimit_keepsFrame v s).respondOk 0
  | setPretty n idx b =>
    cases h
    exact withReg_keepsFrame fun r _ => (setPretty_keepsFrame n idx b r s).respondOk 0
  | selectHart hart =>
    cases (execSelectHart_eq hart s).symm.trans h
    exact primitiveEnd_keepsFrame ((selectSteps_runs hart rfl).keepsFrame rfl rfl rfl)
  | haltHart hart =>
    cases h
    exact hartEnd_keepsFrame rfl ((requestSteps_runs hart .haltreq .resumereq isHalted).keepsFrame rfl rfl rfl)
  | resumeHart hart =>
    cases h
    exact hartEnd_keepsFrame rfl ((requestSteps_runs hart .resumereq .haltreq isResumeack).keepsFrame rfl rfl rfl)
  | readMem a len =>
    cases h
    exact transfer_keepsFrame rfl rfl rfl (readSteps_runs a _ _)
  | writeMem a len =>
    cases h
    exact transfer_keepsFrame rfl rfl rfl (writeSteps_runs a _ _)
  | readGpr | writeGpr | readFpr | writeFpr | readCsr | writeCsr
  | cmdReadGpr | cmdWriteGpr | cmdReadFpr | cmdWriteFpr | cmdReadCsr | cmdWriteCsr =>
    cases h
    exact accessReg_keepsFrame rfl rfl rfl _ _ _ s

/-! ### Engines at rest -/

theorem commandEnd_rests (x : Res Word) : ((commandEnd x).engineState .ac).resting = true := by
  cases x <;> rfl

theorem hartEnd_rests (x : Res Unit) : ((hartEnd x).engineState .hc).resting = true := by
  cases x <;> rfl

theorem transferEnd_rests (x : Res Unit) : ((transferEnd x).engineState .sb).resting = true := by
  cases x <;> rfl

/-- The engine an operation runs is `Done` or `Failed` after it (R216, R240, R264). -/
theorem exec_engine_rests {en : Engine} (h : exec i s = .next t) (hi : i.engine? = some en) :
    (t.engineState en).resting = true := by
  cases i with
  | haltHart | resumeHart =>
    cases hi; cases h
    exact hartEnd_rests _
  | readMem | writeMem =>
    cases hi; cases h
    exact transferEnd_rests _
  | readGpr | writeGpr | readFpr | writeFpr | readCsr | writeCsr
  | cmdReadGpr | cmdWriteGpr | cmdReadFpr | cmdWriteFpr | cmdReadCsr | cmdWriteCsr =>
    cases hi; cases h
    exact commandEnd_rests _
  | _ => cases hi

/-- An operation leaves every engine at rest: its own it brings to an end, the others it does not touch. -/
theorem exec_quiet (h : exec i s = .next t) (hs : s.quiet) : t.quiet := by
  intro en
  by_cases hi : i.engine? = some en
  · exact exec_engine_rests h hi
  · obtain ⟨es, hk⟩ := exec_keepsFrame h
    obtain ⟨he, -⟩ := hk.engine en hi
    rw [he]
    exact hs en

theorem serveRequest_quiet {word : BitVec 96} (h : serveRequest word s = .next t) (hs : s.quiet) : t.quiet := by
  unfold serveRequest at h
  split at h
  · exact exec_quiet h hs
  · cases h
    intro en
    rw [State.refuse_engineState]
    exact hs en

theorem serveCommand_quiet {word : Word} (h : serveCommand word s = .next t) (hs : s.quiet) : t.quiet := by
  unfold serveCommand at h
  split at h
  · exact exec_quiet h hs
  · cases h

/-- The state block reset leaves has its engines idle (R341), whatever the environment holds. -/
theorem quiet_of_idle (hac : t.acState = .idle) (hsb : t.sbState = .idle) (hhc : t.hcState = .idle) :
    t.quiet := by
  intro en
  cases en <;> simp [State.engineState, EngineState.resting, hac, hsb, hhc]

/-- An abandoned request leaves the reset state of the engines (R340), however far it had come. -/
theorem serveAbandoned_quiet {word : BitVec 96} {k : Nat} (h : serveAbandoned word k s = .next t) : t.quiet := by
  unfold serveAbandoned at h
  split at h
  · cases h
    exact quiet_of_idle rfl rfl rfl
  all_goals cases h

theorem accept_quiet (hs : s.quiet) (rest : List Input) (data : List Byte) : (s.accept rest data).quiet := by
  intro en
  cases en
  · exact hs .ac
  · exact hs .sb
  · exact hs .hc

end Sys2Proof.Machine

namespace Sys2Proof.Certificates

open Machine

/-- Settles O58, by what is presented: an operation ends its own engine and leaves the others, and reset makes all
three idle. -/
theorem stepKeepsEnginesAtRest : Obligations.StepKeepsEnginesAtRest := by
  intro s t hs h
  unfold step serveNext at h
  split at h
  -- nothing presented
  case h_1 => cases h; exact hs
  -- a request, a command word
  case h_2 word data rest _ => exact serveRequest_quiet h (accept_quiet hs rest data)
  case h_3 word rest _ => exact serveCommand_quiet h (accept_quiet hs rest [])
  -- reset, between requests and during one
  case h_4 => cases h; exact quiet_of_idle rfl rfl rfl
  case h_5 => exact serveAbandoned_quiet h

/-- Settles O56: the events of an operation are those its frame speaks of, since the record only grows. -/
theorem operationsKeepTheirFrame : Obligations.OperationsKeepTheirFrame := by
  intro i s t es h hes
  obtain ⟨fs, hk⟩ := exec_keepsFrame h
  obtain rfl : fs = es := List.append_cancel_left (hk.events.symm.trans hes)
  exact ⟨hk.shadow, hk.drives, hk.engine, hk.pollCount, hk.transfer, hk.pollLimit, hk.pretty, hk.transportReset,
    hk.inputs, hk.wdata, hk.answers⟩

end Sys2Proof.Certificates
end

section
/-!
The reserved bits (11_dmi_registers.md R89): which bits of a word they are, that no field but `command.control` holds
one, and that a write of another field keeps them. An accessor that writes only such fields keeps the reserved bits of
every register.
-/

namespace Sys2Proof

open Machine

variable {n : RegName} {f : Field}

/-! ### The bits of no field -/

/-- The bits of a register that are in no field of its table. -/
def RegName.unnamedBits (n : RegName) : Word := ~~~(n.fields.foldl (fun m f => m ||| f.mask) 0)

theorem RegName.reserved_eq (n : RegName) (x : Word) :
    n.reserved x = n.unnamedBits ||| if n = .command ∧ x.extractLsb' 24 8 = 0 then commandBit23 else 0 := rfl

theorem RegName.reserved_of_ne_command (h : n ≠ .command) (x : Word) : n.reserved x = n.unnamedBits := by
  simp [RegName.reserved_eq, h]

/-- The fields of `command` cover its word, so its reserved bits are bit 23 or none. -/
theorem RegName.reserved_command (x : Word) :
    RegName.command.reserved x = if x.extractLsb' 24 8 = 0 then commandBit23 else 0 := by
  have covered : RegName.command.unnamedBits = 0 := by decide
  simp [RegName.reserved_eq, covered]

/-! ### Fields hold no reserved bit -/

theorem RegName.mask_and_unnamedBits (h : f ∈ n.fields) : f.mask &&& n.unnamedBits = 0 := by
  have all : ∀ n : RegName, ∀ f ∈ n.fields, f.mask &&& n.unnamedBits = 0 := by intro n; cases n <;> decide
  exact all n f h

theorem RegName.mask_and_reserved_of_ne_command (h : f ∈ n.fields) (hn : n ≠ .command) (x : Word) :
    f.mask &&& n.reserved x = 0 := by
  rw [RegName.reserved_of_ne_command hn, RegName.mask_and_unnamedBits h]

/-- Bit 23 of `command` is in no field but `control`, the one in place 1 of the table (R72). -/
theorem RegName.mask_and_reserved_command (h : f ∈ commandFields.eraseIdx 1) (x : Word) :
    f.mask &&& RegName.command.reserved x = 0 := by
  have off23 : ∀ f ∈ commandFields.eraseIdx 1, f.mask &&& commandBit23 = 0 := by decide
  rw [RegName.reserved_command]
  split
  · exact off23 f h
  · exact BitVec.and_zero

/-- No field but `command.control` holds a reserved bit of its register. -/
theorem RegName.mask_and_reserved {fid : BitVec 8} (h : n.field? fid = some f)
    (hc : ¬ (n = .command ∧ fid = 1)) (x : Word) : f.mask &&& n.reserved x = 0 := by
  by_cases hn : n = .command
  · subst hn
    have hfid : fid.toNat ≠ 1 := fun e => hc ⟨rfl, BitVec.eq_of_toNat_eq e⟩
    exact mask_and_reserved_command (List.mem_eraseIdx_iff_getElem?.mpr ⟨_, hfid, h⟩) x
  · exact mask_and_reserved_of_ne_command (List.mem_of_getElem? h) hn x

end Sys2Proof

namespace Sys2Proof.Machine

variable {s t : State} {r : RegId} {f : Field} {m : RegId → Word}

/-- The reset constant of a register has no reserved bit (R62). -/
theorem RegId.rst_and_reserved (r : RegId) : r.rst &&& r.name.reserved r.rst = 0 := by
  cases r with
  | dmstatus | sbcs => decide
  | _ => exact BitVec.zero_and

/-! ### Field writes -/

/-- A field write keeps every bit outside the field's mask (R22). -/
theorem Field.insert_and {mask : Word} (h : f.mask &&& mask = 0) (v x : Word) :
    f.insert v x &&& mask = x &&& mask := by
  ext i hi
  have disjoint : f.mask[i] = false ∨ mask[i] = false := by
    rw [← Bool.and_eq_false_iff, ← BitVec.getElem_and, h]
    exact BitVec.getElem_zero hi
  rcases disjoint with hbit | hbit <;> simp [Field.insert, hbit]

/-- `command.control`, bits 23:0 (R72). -/
def Field.control : Field := ⟨"control", 0, 24, .w, .getSet⟩

theorem RegName.command_field_control : RegName.command.field? 1 = some Field.control := rfl

theorem control_word (v x : Word) :
    Field.control.insert v x = (x &&& 0xFF000000) ||| (v &&& 0x00FFFFFF) := by
  have hmask : Field.control.mask = 0x00FFFFFF := by decide
  rw [Field.insert, hmask]
  simp [Field.control]

/-! ### States that agree on some bits of each shadow -/

/-- Every shadow `r` holds the same bits under the mask `m r` in both states. -/
def KeepsBits (m : RegId → Word) (s t : State) : Prop := ∀ r, t.shadow r &&& m r = s.shadow r &&& m r

theorem KeepsBits.of_shadow_eq (h : ∀ q, t.shadow q = s.shadow q) : KeepsBits m s t :=
  fun q => by rw [h q]

theorem KeepsBits.setShadow (h : KeepsBits m s t) {v : Word} (hv : v &&& m r = t.shadow r &&& m r) :
    KeepsBits m s (t.setShadow r v) := by
  intro q
  by_cases hq : q = r
  · rw [hq, State.shadow_setShadow_same, hv, h r]
  · rw [State.shadow_setShadow_ne _ _ hq, h q]

theorem KeepsBits.putField (h : KeepsBits m s t) (hf : f.mask &&& m r = 0) (v : Word) :
    KeepsBits m s (t.putField r f v) :=
  h.setShadow (Field.insert_and hf v _)

theorem KeepsBits.respondOk (h : KeepsBits m s t) (v : Word) : KeepsBits m s (t.respondOk v) := h

/-- Both hart halves are written: two fields of `dmcontrol` (R168). -/
theorem withHartsel_and {mask : Word} (hlo : Field.hartsello.mask &&& mask = 0)
    (hhi : Field.hartselhi.mask &&& mask = 0) (h : BitVec 20) (x : Word) :
    withHartsel h x &&& mask = x &&& mask := by
  rw [withHartsel, Field.insert_and hhi, Field.insert_and hlo]

/-! ### Setters -/

theorem warnIf_shadow (s : State) (c : Prop) [Decidable c] (w : Warning) (q : RegId) :
    (if c then s.warn w else s).shadow q = s.shadow q := by
  split <;> rfl

/-- An operation on a field that the register has, with the accessor named, at an index in range. -/
theorem withField_some {n : RegName} {idx fid : BitVec 8} {usable : Field → Bool} {g : RegId → Field → State}
    (hf : n.field? fid = some f) (hu : usable f = true) (hr : n.resolve idx = some r) :
    withField n idx fid usable s g = g r f := by
  simp [withField, hf, hu, withReg_some hr]

/-- The unimplemented setter changes no shadow (R166). -/
theorem setField_shadow_of_unimpl (hf : f.acc = .unimpl) (n : RegName) (idx fid : BitVec 8) (v : Word) (s : State)
    (r q : RegId) : (setField n idx fid v s r f).shadow q = s.shadow q := by
  simp [setField, hf]

/-- Any other setter writes the field, warning or not (R164). -/
theorem setField_shadow (hf : f.acc ≠ .unimpl) (n : RegName) (idx fid : BitVec 8) (v : Word) (s : State)
    (r q : RegId) : (setField n idx fid v s r f).shadow q = (s.putField r f v).shadow q := by
  unfold setField
  split
  · contradiction
  all_goals split <;> rfl

theorem setField_keepsBits (hf : f.mask &&& m r = 0) (n : RegName) (idx fid : BitVec 8) (v : Word) (s : State) :
    KeepsBits m s (setField n idx fid v s r f) := by
  by_cases hu : f.acc = .unimpl
  · exact .of_shadow_eq (setField_shadow_of_unimpl hu n idx fid v s r)
  · intro q
    rw [setField_shadow hu]
    exact KeepsBits.putField (fun _ => rfl) hf v q

/-! ### Accessors keep the reserved bits -/

/-- The reserved bits of each register as the state holds it (R89). -/
def State.reservedBits (s : State) (r : RegId) : Word := r.name.reserved (s.shadow r)

theorem exec_set_keepsReserved {n : RegName} {idx fid : BitVec 8} {v : Word} (hc : ¬ (n = .command ∧ fid = 1))
    (h : exec (.set n idx fid v) s = .next t) : KeepsBits s.reservedBits s t := by
  cases h
  rcases withField_cases n idx fid Field.settable s (setField n idx fid v s) with
    ⟨-, e⟩ | ⟨-, -, e⟩ | ⟨r, f, -, hr, hf, -, e⟩ <;> rw [e]
  · exact .of_shadow_eq fun _ => rfl
  · exact .of_shadow_eq fun _ => rfl
  · refine setField_keepsBits ?_ n idx fid v s
    rw [State.reservedBits, RegName.name_of_resolve hr]
    exact RegName.mask_and_reserved hf hc _

theorem exec_setHartsel_keepsReserved {v : Word} (h : exec (.setHartsel v) s = .next t) :
    KeepsBits s.reservedBits s t := by
  cases h
  refine .respondOk (.setShadow (.of_shadow_eq (warnIf_shadow s _ _)) (withHartsel_and ?_ ?_ _ _)) 0 <;>
    exact RegName.mask_and_reserved_of_ne_command (n := .dmcontrol) (by decide) (by decide) _

theorem exec_hartselMax_keepsReserved (h : exec .hartselMax s = .next t) : KeepsBits s.reservedBits s t := by
  cases h
  refine .respondOk (.putField (.putField (fun _ => rfl) ?_ _) ?_ _) 0 <;>
    exact RegName.mask_and_reserved_of_ne_command (n := .dmcontrol) (by decide) (by decide) _

/-- A clear mutator is one write of a field of a register other than `command`. -/
theorem putField_keepsReserved (hf : f ∈ r.name.fields) (hr : r.name ≠ .command) (s : State) (v : Word) :
    KeepsBits s.reservedBits s ((s.putField r f v).respondOk 0) :=
  .respondOk (.putField (fun _ => rfl) (RegName.mask_and_reserved_of_ne_command hf hr _) v) 0

/-- The setter of `command.control` is a write of the whole field (log 18). -/
theorem exec_set_control (v : Word) (s : State) : ∃ t, exec (.set .command 0 1 v) s = .next t ∧
    ∀ q, t.shadow q = (s.putField .command .control v).shadow q := by
  refine ⟨setField .command 0 1 v s .command .control, ?_, setField_shadow (by decide) _ _ _ v s _⟩
  exact congrArg Host.Outcome.next (withField_some RegName.command_field_control rfl rfl)

end Sys2Proof.Machine

namespace Sys2Proof.Certificates

open Machine

/-- Settles O25: an accessor writes fields only, and no field but `command.control` holds a reserved bit. -/
theorem accessorsKeepReservedBits : Obligations.AccessorsKeepReservedBits := by
  refine ⟨fun n x => ?_, fun r => ?_, ?_, fun v s => ?_⟩
  -- the reserved bits, register by register
  · cases n with
    | command => exact RegName.reserved_command x
    | _ => exact (RegName.reserved_of_ne_command (by decide) x).trans rfl
  -- reset
  · rw [State.reset_shadow]
    exact r.rst_and_reserved
  -- every accessor but the setter of `command.control`
  · intro i s t r n idx fid v hi hcontrol h
    simp only [List.mem_cons, List.not_mem_nil, or_false] at hi
    have keeps : KeepsBits s.reservedBits s t := by
      rcases hi with rfl | rfl | rfl | rfl | rfl | rfl
      case inl =>
        refine exec_set_keepsReserved ?_ h
        rintro ⟨rfl, rfl⟩
        exact hcontrol idx v rfl
      · exact exec_setHartsel_keepsReserved h
      · exact exec_hartselMax_keepsReserved h
      -- the clear mutators
      all_goals
        cases h
        exact putField_keepsReserved (by decide) (by decide) s _
    exact keeps r
  -- the setter of `command.control`
  · obtain ⟨t, ht, hshadow⟩ := exec_set_control v s
    refine ⟨t, ht, ?_, fun r hr => ?_⟩
    · rw [hshadow, State.putField_eq, State.shadow_setShadow_same, control_word]
    · rw [hshadow, State.putField_eq, State.shadow_setShadow_ne _ _ hr]

end Sys2Proof.Certificates
end

section
/-!
The record of accesses (20_memory.md R102, 11_dmi_registers.md R61): an operation drives only addresses its frame names,
and what an abandoned request keeps was recorded by its operation. So every step adds accesses on the addresses of the
54 registers only.
-/

namespace Sys2Proof.Machine

variable {s t : State}

/-- Accesses on the registers of `p` are accesses on those of any larger set. -/
theorem Access.drives_mono {p q : RegId → Bool} {a : Access} (hpq : ∀ r, p r = true → q r = true)
    (h : a.drives p = true) : a.drives q = true := by
  simp only [Access.drives, List.any_eq_true, Bool.and_eq_true] at h ⊢
  obtain ⟨r, hr, hp, ha⟩ := h
  exact ⟨r, hr, hpq r hp, ha⟩

/-- An operation adds accesses on the registers it may access (R175, R217, R244, R267), which are among the 54. -/
theorem exec_addressed {i : Instr} (h : exec i s = .next t) (hs : s.addressed) : t.addressed := by
  obtain ⟨es, hk⟩ := exec_keepsFrame h
  intro a ha
  rw [hk.events, accessesOf_append] at ha
  rcases List.mem_append.mp ha with hold | hnew
  · exact hs a hold
  · exact Access.drives_mono (fun _ _ => rfl) (hk.drives a hnew)

theorem refuse_addressed (hs : s.addressed) : s.refuse.addressed := by
  unfold State.addressed at hs ⊢
  simpa [Event.access?] using hs

theorem serveRequest_addressed {word : BitVec 96} (h : serveRequest word s = .next t) (hs : s.addressed) :
    t.addressed := by
  unfold serveRequest at h
  split at h
  · exact exec_addressed h hs
  · cases h
    exact refuse_addressed hs

theorem serveCommand_addressed {word : Word} (h : serveCommand word s = .next t) (hs : s.addressed) :
    t.addressed := by
  unfold serveCommand at h
  split at h
  · exact exec_addressed h hs
  · cases h

/-- What an abandoned request keeps is part of what its operation recorded (R340, log 8). -/
theorem keptEvents_subset (s t : State) (k : Nat) : keptEvents s t k ⊆ t.events := by
  intro e he
  exact List.mem_of_mem_drop (List.mem_of_mem_take (List.mem_filter.mp he).1)

theorem abandon_addressed (k : Nat) (hs : s.addressed) (ht : t.addressed) : (abandon k s t).addressed := by
  intro a ha
  change a ∈ accessesOf (s.events ++ keptEvents s t k) at ha
  rw [accessesOf_append] at ha
  rcases List.mem_append.mp ha with hold | hkept
  · exact hs a hold
  · exact ht a (List.filterMap_subset _ (keptEvents_subset s t k) hkept)

theorem serveAbandoned_addressed {word : BitVec 96} {k : Nat} (h : serveAbandoned word k s = .next t)
    (hs : s.addressed) : t.addressed := by
  unfold serveAbandoned at h
  split at h
  next u hu =>
    cases h
    exact abandon_addressed k hs (serveRequest_addressed hu hs)
  all_goals cases h

end Sys2Proof.Machine

namespace Sys2Proof.Certificates

open Machine

/-- Settles O59, by what is presented: an operation drives registers only, and taking an input or a reset records
nothing. -/
theorem stepKeepsAccessesAddressed : Obligations.StepKeepsAccessesAddressed := by
  intro s t hs h
  have haccept : ∀ rest data, (s.accept rest data).addressed := fun _ _ => hs
  unfold step serveNext at h
  split at h
  -- nothing presented
  case h_1 => cases h; exact hs
  -- a request, a command word
  case h_2 => exact serveRequest_addressed h (haccept _ _)
  case h_3 => exact serveCommand_addressed h (haccept _ _)
  -- reset, between requests and during one
  case h_4 => cases h; exact hs
  case h_5 => exact serveAbandoned_addressed h (haccept _ _)

end Sys2Proof.Certificates
end

section
/-!
Transport errors (20_memory.md R105, 60_exceptions.md R301, R311): an operation either meets none and answers with
another status, or its last access is the failed cycle and only the failure of its engine and the response follow.
-/

namespace Sys2Proof

/-- What an operation records of its engine when the engine ends in `st`; nothing where it runs none (R264, R301). -/
def Instr.engineEnd (i : Instr) (st : Machine.EngineState) : List Machine.Event :=
  i.engine?.toList.map (.engine · st)

end Sys2Proof

namespace Sys2Proof.Machine

variable {i : Instr} {s t : State}

/-- From `s` to `t` no cycle was answered `Err`, and no response says that one was. -/
def NoTransportError (s t : State) : Prop :=
  ∃ es, t.events = s.events ++ es ∧ noErr es ∧ ∀ r data, (r, data) ∈ responsesOf es → r.status ≠ .transportError

/-- From `s` to `t` operation `i` met one `Err`, and after it recorded its engine's failure and its response alone. -/
def EndsInTransportError (i : Instr) (s t : State) : Prop :=
  ∃ pre a e count data, noErr pre ∧ t.events = s.events ++ (pre ++ .cycle a (.err e) ::
    (i.engineEnd .failed ++ [.response ((Stop.transportError e).response count) data]))

/-- The two ways an operation can go. -/
def TransportErrorIsLast (i : Instr) (s t : State) : Prop := NoTransportError s t ∨ EndsInTransportError i s t

/-! ### Local effects -/

/-- A state with the same record: a local update of anything else. -/
theorem NoTransportError.of_events (h : t.events = s.events) : NoTransportError s t :=
  ⟨[], by rw [h, List.append_nil], noErr_nil, by simp⟩

theorem NoTransportError.record (h : NoTransportError s t) {e : Event} (he : ∀ a n, e ≠ .cycle a (.err n))
    (hr : ∀ r data, e.response? = some (r, data) → r.status ≠ .transportError) :
    NoTransportError s (t.record e) := by
  obtain ⟨es, hes, hn, hs⟩ := h
  refine ⟨es ++ [e], by simp [hes], noErr_append hn (noErr_single he), fun r data hm => ?_⟩
  rw [responsesOf_append] at hm
  rcases List.mem_append.mp hm with hold | hnew
  · exact hs r data hold
  · exact hr r data (by simpa using hnew)

theorem NoTransportError.warn (h : NoTransportError s t) (w : Warning) : NoTransportError s (t.warn w) :=
  h.record (fun _ _ => Event.noConfusion) (by simp [Event.response?])

theorem NoTransportError.respond (h : NoTransportError s t) {x : Response} (hx : x.status ≠ .transportError)
    (d : List Byte) : NoTransportError s (t.respond x d) :=
  h.record (fun _ _ => Event.noConfusion) (by rintro r data ⟨⟩; exact hx)

theorem NoTransportError.respondOk (h : NoTransportError s t) (v : Word) : NoTransportError s (t.respondOk v) :=
  h.respond (by simp [Response.okWith]) _

theorem NoTransportError.refuse (s : State) : NoTransportError s s.refuse :=
  (NoTransportError.of_events rfl).respond (by simp [Response.refusal]) _

/-- A local update, answered. -/
theorem NoTransportError.answered (h : t.events = s.events) (v : Word) : NoTransportError s (t.respondOk v) :=
  (NoTransportError.of_events h).respondOk v

/-- A warning, answered. -/
theorem NoTransportError.warned (s : State) (w : Warning) (v : Word) : NoTransportError s ((s.warn w).respondOk v) :=
  ((NoTransportError.of_events rfl).warn w).respondOk v

theorem NoTransportError.warnIf (s : State) (c : Prop) [Decidable c] (w : Warning) :
    NoTransportError s (if c then s.warn w else s) := by
  split
  · exact (NoTransportError.of_events rfl).warn w
  · exact NoTransportError.of_events rfl

theorem NoTransportError.setShadow (h : NoTransportError s t) (r : RegId) (v : Word) :
    NoTransportError s (t.setShadow r v) := h

/-! ### Designators -/

theorem withReg_transportErrorIsLast (n : RegName) (idx : BitVec 8) {f : RegId → State}
    (h : ∀ r, TransportErrorIsLast i s (f r)) : TransportErrorIsLast i s (withReg n idx s f) := by
  rcases withReg_cases n idx s f with ⟨-, e⟩ | ⟨-, -, e⟩ | ⟨r, -, -, e⟩ <;> rw [e]
  · exact .inl (NoTransportError.refuse s)
  · exact .inl (NoTransportError.warned s _ 0)
  · exact h r

theorem withField_noTransportError (n : RegName) (idx fid : BitVec 8) (usable : Field → Bool)
    {f : RegId → Field → State} (h : ∀ r fd, NoTransportError s (f r fd)) :
    NoTransportError s (withField n idx fid usable s f) := by
  rcases withField_cases n idx fid usable s f with ⟨-, e⟩ | ⟨-, -, e⟩ | ⟨r, fd, -, -, -, -, e⟩ <;> rw [e]
  · exact NoTransportError.refuse s
  · exact NoTransportError.warned s _ 0
  · exact h r fd

theorem getField_noTransportError (n : RegName) (fid : BitVec 8) (s : State) (r : RegId) (f : Field) :
    NoTransportError s (getField n fid s r f) := by
  unfold getField
  split
  · exact NoTransportError.warned s _ 0
  all_goals exact NoTransportError.answered rfl _

theorem setField_noTransportError (n : RegName) (idx fid : BitVec 8) (v : Word) (s : State) (r : RegId) (f : Field) :
    NoTransportError s (setField n idx fid v s r f) := by
  unfold setField
  split
  · exact NoTransportError.warned s _ 0
  all_goals exact ((NoTransportError.warnIf s _ _).setShadow r _).respondOk 0

/-! ### Operations that use the transport -/

/-- In `u` operation `i` has answered for the part that `x` is the end of: its engine at rest, then the response that
says how `x` ended (R136, R311). -/
def Res.AnsweredBy {α : Type} (i : Instr) (u : State) : Res α → Prop
  | .go _ t => ∃ v c d, u.events = t.events ++ (i.engineEnd .done ++ [.response (Response.okWith v c) d])
  | .stop x t => ∃ c d, u.events = t.events ++ (i.engineEnd .failed ++ [.response (x.response c) d])

theorem responsesOf_of_within {p : RegId → Bool} {en : Option Engine} {es : List Event}
    (h : ∀ e ∈ es, e.within p en = true) : responsesOf es = [] := by
  refine List.filterMap_eq_nil_iff.mpr fun e he => ?_
  cases e with
  | response => cases h _ he
  | cycle | transportReset | warning | engine => rfl

theorem noErr_engineEnd (i : Instr) (st : EngineState) (r : Response) (d : List Byte) :
    noErr (i.engineEnd st ++ [.response r d]) := by
  intro a e hm
  simp [Instr.engineEnd] at hm

theorem responsesOf_engineEnd (i : Instr) (st : EngineState) : responsesOf (i.engineEnd st) = [] := by
  unfold Instr.engineEnd
  cases i.engine? <;> rfl

/-- A part without a failed cycle, answered with another status. -/
theorem Ran.noTransportError {p : RegId → Bool} {en : Option Engine} {mv : Bool} {u : State} {es : List Event}
    (h : Ran p en mv s t es) (hn : noErr es) {st : EngineState} {x : Response} {d : List Byte}
    (hx : x.status ≠ .transportError) (hu : u.events = t.events ++ (i.engineEnd st ++ [.response x d])) :
    NoTransportError s u := by
  refine ⟨es ++ (i.engineEnd st ++ [.response x d]), by rw [hu, h.events, List.append_assoc],
    noErr_append hn (noErr_engineEnd i st x d), fun r data hm => ?_⟩
  rw [responsesOf_append, responsesOf_of_within h.log, responsesOf_append, responsesOf_engineEnd] at hm
  obtain ⟨rfl, rfl⟩ : r = x ∧ data = d := by simpa [Event.response?] using hm
  exact hx

/-- An answered part: its last cycle failed exactly if it stopped with a transport error. -/
theorem Res.Runs.transportErrorIsLast {α : Type} {x : Res α} {p : RegId → Bool} {en : Option Engine} {mv : Bool}
    {u : State} (h : x.Runs p en mv s) (hu : x.AnsweredBy i u) : TransportErrorIsLast i s u := by
  cases x with
  | go a t =>
    obtain ⟨es, hran, hn⟩ := h
    obtain ⟨v, c, d, hu⟩ := hu
    exact .inl (hran.noTransportError hn (by simp [Response.okWith]) hu)
  | stop y t =>
    obtain ⟨es, hran, hends, -⟩ := h
    obtain ⟨c, d, hu⟩ := hu
    cases y with
    | transportError e =>
      obtain ⟨pre, a, rfl, hpre⟩ := hends
      exact .inr ⟨pre, a, e, c, d, hpre, by simp [hu, hran.events]⟩
    | pollTimeout | cmdError | busError =>
      exact .inl (hran.noTransportError hends (by simp [Stop.response]) hu)

theorem primitiveEnd_answeredBy (hi : i.engine? = none) (x : Res Unit) : x.AnsweredBy i (primitiveEnd x) := by
  cases x with
  | go _ t => exact ⟨0, 0, [], by simp [primitiveEnd, Instr.engineEnd, hi, Response.okWith]⟩
  | stop y t => exact ⟨0, [], by simp [primitiveEnd, Instr.engineEnd, hi]⟩

theorem commandEnd_answeredBy (hi : i.engine? = some .ac) (x : Res Word) : x.AnsweredBy i (commandEnd x) := by
  cases x with
  | go v t => exact ⟨v, 0, [], by simp [commandEnd, Instr.engineEnd, hi, Response.okWith]⟩
  | stop y t => exact ⟨0, [], by simp [commandEnd, Instr.engineEnd, hi]⟩

theorem hartEnd_answeredBy (hi : i.engine? = some .hc) (x : Res Unit) : x.AnsweredBy i (hartEnd x) := by
  cases x with
  | go _ t => exact ⟨0, 0, [], by simp [hartEnd, Instr.engineEnd, hi, Response.okWith]⟩
  | stop y t => exact ⟨0, [], by simp [hartEnd, Instr.engineEnd, hi]⟩

theorem transferEnd_answeredBy (hi : i.engine? = some .sb) (x : Res Unit) : x.AnsweredBy i (transferEnd x) := by
  cases x with
  | go _ t => exact ⟨0, t.unitIdx, t.rdata, by simp [transferEnd, Instr.engineEnd, hi]⟩
  | stop y t => exact ⟨t.unitIdx, t.rdata, by simp [transferEnd, Instr.engineEnd, hi]⟩

/-- A transfer, of no unit or of some. -/
theorem transfer_transportErrorIsLast {c : Prop} [Decidable c] {x : Res Unit} (hi : i.engine? = some .sb)
    (hx : x.Runs busRegs (some .sb) true (beginTransfer s)) :
    TransportErrorIsLast i s (transferEnd (if c then .go () (beginTransfer s) else x)) := by
  refine Res.Runs.transportErrorIsLast (p := busRegs) (.after Ran.beginTransfer noErr_nil ?_)
    (transferEnd_answeredBy hi _)
  split
  · exact Res.Runs.go ()
  · exact hx

/-- Every instruction ends with the first cycle answered `Err`, if there is one. -/
theorem exec_transportErrorIsLast (h : exec i s = .next t) : TransportErrorIsLast i s t := by
  cases i with
  | read n idx =>
    cases h
    exact withReg_transportErrorIsLast n idx fun r =>
      (rd_runs (p := fun _ => true) (en := none) (mv := false) rfl).transportErrorIsLast (primitiveEnd_answeredBy rfl _)
  | write n idx =>
    cases h
    exact withReg_transportErrorIsLast n idx fun r =>
      (wr_runs (p := fun _ => true) (en := none) (mv := false) rfl).transportErrorIsLast (primitiveEnd_answeredBy rfl _)
  | reset n idx | setPretty n idx =>
    cases h
    exact withReg_transportErrorIsLast n idx fun r => .inl (NoTransportError.answered rfl 0)
  | get n idx fid =>
    cases h
    exact .inl (withField_noTransportError n idx fid _ (getField_noTransportError n fid s))
  | set n idx fid v =>
    cases h
    exact .inl (withField_noTransportError n idx fid _ (setField_noTransportError n idx fid v s))
  | setHartsel v =>
    cases h
    exact .inl (((NoTransportError.warnIf s _ _).setShadow _ _).respondOk 0)
  | getHartsel | hartselMax | cmderrClear | sberrorClear | sbbusyerrorClear | setPollLimit | getPollLimit =>
    cases h
    exact .inl (NoTransportError.answered rfl _)
  | dtmReset =>
    cases h
    exact .inl (((NoTransportError.of_events rfl).record (fun _ _ => Event.noConfusion)
      (by simp [Event.response?])).respondOk 0)
  | selectHart hart =>
    cases (execSelectHart_eq hart s).symm.trans h
    exact (selectSteps_runs (p := hartRegs) (en := none) (mv := false) hart rfl).transportErrorIsLast
      (primitiveEnd_answeredBy rfl _)
  | haltHart | resumeHart =>
    cases h
    exact (requestSteps_runs (mv := false) _ _ _ _).transportErrorIsLast (hartEnd_answeredBy rfl _)
  | readMem a len =>
    cases h
    exact transfer_transportErrorIsLast rfl (readSteps_runs a _ _)
  | writeMem a len =>
    cases h
    exact transfer_transportErrorIsLast rfl (writeSteps_runs a _ _)
  | readGpr | writeGpr | readFpr | writeFpr | readCsr | writeCsr
  | cmdReadGpr | cmdWriteGpr | cmdReadFpr | cmdWriteFpr | cmdReadCsr | cmdWriteCsr =>
    cases h
    exact (accessReg_runs (mv := false) _ _ _).transportErrorIsLast (commandEnd_answeredBy rfl _)

/-- The engine's failure, as the statement about transport errors writes it. -/
theorem engineEnd_failed (i : Instr) :
    i.engineEnd .failed = match i.engine? with | some en => [Event.engine en .failed] | none => [] := by
  unfold Instr.engineEnd
  cases i.engine? <;> rfl

end Sys2Proof.Machine

namespace Sys2Proof.Certificates

open Machine

/-- Settles O55: an operation that meets an `Err` ends with it, so the failed cycle of its record is that one; one that
meets none does not answer `TRANSPORT_ERROR`. -/
theorem nothingFollowsATransportError : Obligations.NothingFollowsATransportError := by
  intro i s t es h hes
  rcases exec_transportErrorIsLast h with ⟨fs, hfs, hn, hstatus⟩ | ⟨pre, a, e, count, data, hpre, hfs⟩
  · obtain rfl : fs = es := List.append_cancel_left (hfs.symm.trans hes)
    refine ⟨fun pre a e post hsplit => ?_, fun r data hr hst => absurd hst (hstatus r data hr)⟩
    exact absurd (by simp [hsplit]) (hn a e)
  · obtain rfl := List.append_cancel_left (hfs.symm.trans hes)
    refine ⟨fun pre' a' e' post hsplit => ?_, fun _ _ _ _ => ⟨a, e, by simp⟩⟩
    obtain ⟨-, hcycle, rfl⟩ := (List.append_cons_inj_of_notMem (hpre a' e')
      (noErr_engineEnd i .failed _ data a' e')).mp hsplit
    cases hcycle
    exact ⟨count, data, congrArg (· ++ _) (engineEnd_failed i)⟩

end Sys2Proof.Certificates
end

section
/-!
Decoding and encoding undo each other (30_encoding.md R131, R132, R139, R141): the encoding of a well-formed instruction
passes every check of the decoder, and a word that passes them is built from the operands it is taken apart into. So a
word that decodes carries the fixed bits of the row of its mnemonic.
-/

namespace Sys2Proof

/-! ### Command words -/

section CommandWord

variable {n : Nat} {base : Word}

/-- A command word, bit by bit: the number stands where the row's fixed bits are 0 (R141). -/
theorem getLsbD_add_number (hb : ∀ i < n, base.getLsbD i = false) (hn : n ≤ 32) (x : BitVec n) (i : Nat) :
    (base + x.setWidth 32).getLsbD i = (base.getLsbD i || x.getLsbD i) := by
  have disjoint : base &&& x.setWidth 32 = 0 := by
    apply BitVec.eq_of_getLsbD_eq
    intro j _
    by_cases hj : j < n
    · simp [hb j hj]
    · simp [BitVec.getLsbD_of_ge x j (by omega)]
  rw [BitVec.add_eq_or_of_and_eq_zero _ _ disjoint, BitVec.getLsbD_or, BitVec.getLsbD_setWidth]
  by_cases hi : i < 32
  · simp [hi]
  · simp [hi, BitVec.getLsbD_of_ge x i (by omega)]

theorem number_of_add (hb : ∀ i < n, base.getLsbD i = false) (hn : n ≤ 32) (x : BitVec n) :
    (base + x.setWidth 32).extractLsb' 0 n = x := by
  apply BitVec.eq_of_getLsbD_eq
  intro i hi
  simp [getLsbD_add_number hb hn, hi, hb i hi]

theorem fixedBits_of_add (hb : ∀ i < n, base.getLsbD i = false) (hn : n ≤ 32) (x : BitVec n) (len : Nat) :
    (base + x.setWidth 32).extractLsb' n len = base.extractLsb' n len := by
  apply BitVec.eq_of_getLsbD_eq
  intro i _
  simp [getLsbD_add_number hb hn]

/-- A word with a row's fixed bits is the row's word with its own number (R141). -/
theorem add_number_of_fixedBits {w : Word} (hb : ∀ i < n, base.getLsbD i = false) (hn : n ≤ 32)
    (h : w.extractLsb' n (32 - n) = base.extractLsb' n (32 - n)) :
    base + (w.extractLsb' 0 n).setWidth 32 = w := by
  apply BitVec.eq_of_getLsbD_eq
  intro i hi
  rw [getLsbD_add_number hb hn, BitVec.getLsbD_extractLsb', Nat.zero_add]
  by_cases hin : i < n
  · simp [hb i hin, hin]
  · have hbit := congrArg (fun f => f.getLsbD (i - n)) h
    simp only [BitVec.getLsbD_extractLsb', show i - n < 32 - n by omega, decide_true, Bool.true_and,
      show n + (i - n) = i by omega] at hbit
    simp [hin, hbit]

/-- The word of a CSR row has not the fixed bits of a register row that differs above bit 11 (R141). -/
theorem fixedBits_of_csr_ne {c : BitVec 27} (hb : ∀ i < 12, base.getLsbD i = false)
    (hc : base.extractLsb' 12 20 ≠ c.extractLsb' 7 20) (x : BitVec 12) :
    (base + x.setWidth 32).extractLsb' 5 27 ≠ c := by
  intro h
  apply hc
  rw [← fixedBits_of_add hb (by decide) x, ← h]
  apply BitVec.eq_of_getLsbD_eq
  intro i hi
  simp only [BitVec.getLsbD_extractLsb', hi, show 7 + i < 27 by omega, decide_true, Bool.true_and]
  congr 1
  omega

end CommandWord

/-- The decoder reads a command word back: the row from its fixed bits, the number from the others (R141). -/
theorem decodeCommand_encode {i : Instr} {w : Word} (h : encode i = .command w) : decodeCommand w = .ok i := by
  cases i with
  | cmdReadGpr reg | cmdWriteGpr reg | cmdReadFpr reg | cmdWriteFpr reg =>
    cases h
    simp (disch := decide) [decodeCommand, fixedBits_of_add, number_of_add]
  | cmdReadCsr csr | cmdWriteCsr csr =>
    cases h
    simp (disch := decide) [decodeCommand, number_of_add, fixedBits_of_add, fixedBits_of_csr_ne]
  | _ => cases h

/-- A word the decoder takes for a command word is the word of that row with that number (R141). -/
theorem encode_of_decodeCommand {w : Word} {i : Instr} (h : decodeCommand w = .ok i) :
    encode i = .command w ∧ i.wf = true := by
  unfold decodeCommand at h
  split_ifs at h with hrow hrow hrow hrow hrow hrow <;> cases h
  all_goals exact ⟨congrArg Encoded.command (add_number_of_fixedBits (by decide) (by decide) hrow), rfl⟩

/-! ### The fields of a request -/

theorem extractLsb'_setWidth_above {n m : Nat} (x : BitVec n) (len : Nat) :
    (x.setWidth m).extractLsb' n len = 0 := by
  apply BitVec.eq_of_getLsbD_eq
  intro i _
  simp

theorem extractLsb'_setWidth_below {n m : Nat} (x : BitVec n) (h : n ≤ m) :
    (x.setWidth m).extractLsb' 0 n = x := by
  apply BitVec.eq_of_getLsbD_eq
  intro i hi
  simp [hi, show i < m by omega]

/-- A value whose bits above bit 0 are 0 is the flag in bit 0 (`setPretty`, R132). -/
theorem flag_of_upper_zero {v : Word} (h : v.extractLsb' 1 31 = 0) : (BitVec.ofBool (v.getLsbD 0)).setWidth 32 = v := by
  apply BitVec.eq_of_getLsbD_eq
  intro i hi
  cases i with
  | zero => simp
  | succ j =>
    have hbit := congrArg (fun x => x.getLsbD j) h
    simp only [BitVec.getLsbD_extractLsb', show j < 31 by omega, decide_true, Bool.true_and, Nat.add_comm 1 j] at hbit
    simp [hbit]

section UnusedFields

variable {l m n : Nat} {x : BitVec l} {y : BitVec m} {z : BitVec n} {next : Except Reject Instr} {i : Instr}

theorem requireZero_true : requireZero true next = next := rfl

theorem requireZero_one_ok : requireZero (x == 0) next = .ok i ↔ x = 0 ∧ next = .ok i := by
  simp [requireZero_ok]

theorem requireZero_two_ok : requireZero (x == 0 && y == 0) next = .ok i ↔ x = 0 ∧ y = 0 ∧ next = .ok i := by
  simp [requireZero_ok, and_assoc]

theorem requireZero_three_ok :
    requireZero (x == 0 && y == 0 && z == 0) next = .ok i ↔ x = 0 ∧ y = 0 ∧ z = 0 ∧ next = .ok i := by
  simp [requireZero_ok, and_assoc]

end UnusedFields

/-! ### From the instruction to its word and back -/

theorem decode_encodeReg (op : BitVec 8) (n : RegName) (idx fid : BitVec 8) (v : Word) :
    decode (encodeReg op n idx fid v) = Request.decode ⟨op, fid, idx, n.aid, 0, v⟩ :=
  decodeRequest_toWord _

theorem decode_encodeSel (op : BitVec 8) (sel : BitVec 24) (a v : Word) :
    decode (encodeSel op sel a v) = (Request.ofSel op sel a v).decode :=
  decodeRequest_toWord _

/-- The word of a well-formed instruction passes every check and gives the instruction back. -/
theorem decode_encode {i : Instr} (hwf : i.wf = true) : decode (encode i) = .ok i := by
  cases i with
  -- a register
  | read n idx | write n idx | reset n idx =>
    rw [encode, decode_encodeReg]
    exact requireZero_three_ok.mpr ⟨rfl, rfl, rfl, Request.withName_ok.mpr ⟨n, rfl, hwf, rfl⟩⟩
  | setPretty n idx b =>
    rw [encode, decode_encodeReg]
    exact requireZero_three_ok.mpr ⟨rfl, rfl, extractLsb'_setWidth_above _ _,
      Request.withName_ok.mpr ⟨n, rfl, hwf, by simp⟩⟩
  -- a field
  | get n idx fid =>
    obtain ⟨hidx, hfid⟩ := Bool.and_eq_true_iff.mp hwf
    obtain ⟨f, hf⟩ := Option.isSome_iff_exists.mp hfid
    rw [encode, decode_encodeReg]
    exact requireZero_two_ok.mpr ⟨rfl, rfl, Request.withField_ok.mpr ⟨n, f, rfl, hidx, hf, rfl⟩⟩
  | set n idx fid v =>
    obtain ⟨hidx, hfid⟩ := Bool.and_eq_true_iff.mp hwf
    obtain ⟨f, hf, hset⟩ := (Option.any_eq_true _ _).mp hfid
    rw [encode, decode_encodeReg]
    exact requireZero_one_ok.mpr ⟨rfl, Request.withField_ok.mpr ⟨n, f, rfl, hidx, hf, if_pos hset⟩⟩
  -- a number in the selector
  | selectHart x | haltHart x | resumeHart x | readGpr x | readFpr x | readCsr x
  | writeGpr x v | writeFpr x v | writeCsr x v =>
    rw [encode, decode_encodeSel]
    simp [Request.decode, extractLsb'_setWidth_above, extractLsb'_setWidth_below, requireZero_true]
  -- nothing in the selector
  | setHartsel v | setPollLimit v | readMem a v | writeMem a v =>
    rw [encode, decode_encodeSel]
    simp [Request.decode, requireZero_true]
  | getHartsel | hartselMax | cmderrClear | sberrorClear | sbbusyerrorClear | dtmReset | getPollLimit => rfl
  -- a command word
  | cmdReadGpr | cmdWriteGpr | cmdReadFpr | cmdWriteFpr | cmdReadCsr | cmdWriteCsr => exact decodeCommand_encode rfl

/-! ### From the word to the instruction and back -/

section

variable {r : Request} {op : BitVec 8}

/-- A request with a register designator and no `a` is the word of its own fields. -/
theorem encodeReg_eq_request {fid : BitVec 8} {n : RegName} {v : Word} (hop : r.op.toNat = op.toNat)
    (hfid : r.fid = fid) (haid : r.aid = n.aid) (ha : r.a = 0) (hv : r.v = v) :
    encodeReg op n r.idx fid v = .request r.toWord := by
  rw [encodeReg, ← BitVec.eq_of_toNat_eq hop, ← hfid, ← haid, ← ha, ← hv]

/-- A request with a selector is the word of its own fields. -/
theorem encodeSel_eq_request {sel : BitVec 24} {a v : Word} (hop : r.op.toNat = op.toNat) (hsel : r.sel = sel)
    (ha : r.a = a) (hv : r.v = v) : encodeSel op sel a v = .request r.toWord := by
  rw [encodeSel, ← BitVec.eq_of_toNat_eq hop, ← hsel, ← ha, ← hv, Request.ofSel_sel]

/-- A request that decodes is the word of the instruction: the operands hold every field but the ones checked to
be 0. -/
theorem Request.encode_of_decode {i : Instr} (h : r.decode = .ok i) : encode i = .request r.toWord := by
  unfold Request.decode at h
  split at h
  -- `read`, `write`, `reset`, `setPretty`: a register
  case h_1 hop | h_2 hop | h_3 hop =>
    obtain ⟨hfid, ha, hv, hname⟩ := requireZero_three_ok.mp h
    obtain ⟨n, haid, -, hi⟩ := Request.withName_ok.mp hname
    cases hi
    exact encodeReg_eq_request hop hfid haid ha hv
  case h_15 hop =>
    obtain ⟨hfid, ha, hv, hname⟩ := requireZero_three_ok.mp h
    obtain ⟨n, haid, -, hi⟩ := Request.withName_ok.mp hname
    cases hi
    exact encodeReg_eq_request hop hfid haid ha (flag_of_upper_zero hv).symm
  -- `get`, `set`: a field
  case h_4 hop =>
    obtain ⟨ha, hv, hfield⟩ := requireZero_two_ok.mp h
    obtain ⟨n, f, haid, -, -, hi⟩ := Request.withField_ok.mp hfield
    cases hi
    exact encodeReg_eq_request hop rfl haid ha hv
  case h_5 hop =>
    obtain ⟨ha, hfield⟩ := requireZero_one_ok.mp h
    obtain ⟨n, f, haid, -, -, hi⟩ := Request.withField_ok.mp hfield
    split at hi <;> cases hi
    exact encodeReg_eq_request hop rfl haid ha rfl
  -- nothing, or a value
  case h_6 hop | h_8 hop | h_9 hop | h_10 hop | h_11 hop | h_12 hop | h_14 hop =>
    obtain ⟨hsel, ha, hv, hi⟩ := requireZero_three_ok.mp h
    cases hi
    exact encodeSel_eq_request hop hsel ha hv
  case h_7 hop | h_13 hop =>
    obtain ⟨hsel, ha, hi⟩ := requireZero_two_ok.mp h
    cases hi
    exact encodeSel_eq_request hop hsel ha rfl
  -- a number in the selector, without and with a value
  case h_16 hop | h_17 hop | h_18 hop | h_19 hop | h_21 hop | h_23 hop =>
    obtain ⟨hsel, ha, hv, hi⟩ := requireZero_three_ok.mp h
    cases hi
    exact encodeSel_eq_request hop (selector_low hsel (by decide)).symm ha hv
  case h_20 hop | h_22 hop | h_24 hop =>
    obtain ⟨hsel, ha, hi⟩ := requireZero_two_ok.mp h
    cases hi
    exact encodeSel_eq_request hop (selector_low hsel (by decide)).symm ha rfl
  -- `readMem`, `writeMem`
  case h_25 hop | h_26 hop =>
    obtain ⟨hsel, hi⟩ := requireZero_one_ok.mp h
    cases hi
    exact encodeSel_eq_request hop hsel rfl rfl
  -- an unassigned `op`
  case h_27 => cases h

end

theorem encode_of_decodeRequest {w : BitVec 96} {i : Instr} (h : decodeRequest w = .ok i) :
    encode i = .request w := by
  rw [Request.encode_of_decode h, Request.toWord_ofWord]

theorem encode_of_decode {e : Encoded} {i : Instr} (h : decode e = .ok i) : encode i = e ∧ i.wf = true := by
  cases e with
  | request w => exact ⟨encode_of_decodeRequest h, wf_of_decodeRequest h⟩
  | command w => exact encode_of_decodeCommand h

/-! ### The rows of the opcode table -/

namespace Laws.EncodeMatchesRow

/-- Every instruction's word carries the fixed bits of the row of its mnemonic (R132, R141). -/
theorem statement_all (i : Instr) : Statement i := by
  cases i with
  | read => exact read _ _
  | write => exact write _ _
  | reset => exact reset _ _
  | get => exact get _ _ _
  | set => exact set _ _ _ _
  | getHartsel => exact getHartsel
  | setHartsel => exact setHartsel _
  | hartselMax => exact hartselMax
  | cmderrClear => exact cmderrClear
  | sberrorClear => exact sberrorClear
  | sbbusyerrorClear => exact sbbusyerrorClear
  | dtmReset => exact dtmReset
  | setPollLimit => exact setPollLimit _
  | getPollLimit => exact getPollLimit
  | setPretty => exact setPretty _ _ _
  | selectHart => exact selectHart _
  | haltHart => exact haltHart _
  | resumeHart => exact resumeHart _
  | readGpr => exact readGpr _
  | writeGpr => exact writeGpr _ _
  | readFpr => exact readFpr _
  | writeFpr => exact writeFpr _ _
  | readCsr => exact readCsr _
  | writeCsr => exact writeCsr _ _
  | readMem => exact readMem _ _
  | writeMem => exact writeMem _ _
  | cmdReadGpr => exact cmdReadGpr _
  | cmdWriteGpr => exact cmdWriteGpr _
  | cmdReadFpr => exact cmdReadFpr _
  | cmdWriteFpr => exact cmdWriteFpr _
  | cmdReadCsr => exact cmdReadCsr _
  | cmdWriteCsr => exact cmdWriteCsr _

end Laws.EncodeMatchesRow

/-- The row of the mnemonic, as a word that decodes carries it. -/
theorem row_of_decode {e : Encoded} {i : Instr} (h : decode e = .ok i) :
    ∃ row ∈ opcodeTable, row.mnemonic = i.mnemonic ∧ row.width = e.tableWord.1 ∧
      row.matchesWord e.tableWord.2 = true := by
  obtain ⟨henc, -⟩ := encode_of_decode h
  rw [← henc]
  exact Laws.EncodeMatchesRow.statement_all i

theorem ok_of_toOption {x : Except Reject Instr} {i : Instr} (h : x.toOption = some i) : x = .ok i := by
  cases x with
  | error => cases h
  | ok => exact congrArg _ (Option.some.inj h)

/-- A table word decodes as the request word or command word of its value (R143). -/
theorem decode_of_decodeTableWord {nbits w : Nat} {i : Instr} (h : decodeTableWord nbits w = some i) :
    ∃ e : Encoded, decode e = .ok i ∧ e.tableWord = (nbits, w % 2 ^ nbits) := by
  unfold decodeTableWord at h
  split_ifs at h with h96 h32
  · subst h96
    exact ⟨.request (BitVec.ofNat 96 w), ok_of_toOption h, rfl⟩
  · subst h32
    exact ⟨.command (BitVec.ofNat 32 w), ok_of_toOption h, rfl⟩

/-- Two rows that fix a common bit differently have no word in common. -/
theorem OpRow.disjoint_of_common {a b : OpRow} (h : a.pattern &&& b.mask ≠ b.pattern &&& a.mask) (w : Nat) :
    ¬ (a.matchesWord w = true ∧ b.matchesWord w = true) := by
  rintro ⟨ha, hb⟩
  apply h
  rw [← beq_iff_eq.mp ha, ← beq_iff_eq.mp hb, Nat.and_right_comm]

/-- Any two rows of one width fix a common bit differently (R132, R141). -/
theorem opcodeTable_common : opcodeTable.Pairwise fun a b =>
    a.width = b.width → a.pattern &&& b.mask ≠ b.pattern &&& a.mask := by decide

end Sys2Proof

namespace Sys2Proof.Certificates

open Machine

/-- Settles O9. -/
theorem decodeOfEncode : Obligations.DecodeOfEncode :=
  fun _ hwf => decode_encode hwf

/-- Settles O10. -/
theorem encodeOfDecode : Obligations.EncodeOfDecode :=
  fun _ _ h => encode_of_decode h

/-- Settles O11: two rows of one width fix some bit differently. -/
theorem opcodeRowsAreDisjoint : Obligations.OpcodeRowsAreDisjoint :=
  opcodeTable_common.imp fun h hwidth => OpRow.disjoint_of_common (h hwidth)

/-- Settles O12: the word is the encoding of its instruction, which carries the row's fixed bits. -/
theorem decodedWordsCarryTheirRow : Obligations.DecodedWordsCarryTheirRow := by
  intro nbits w i h
  obtain ⟨e, hdec, hword⟩ := decode_of_decodeTableWord h
  have hrow := row_of_decode hdec
  rwa [hword] at hrow

/-- Settles O13. -/
theorem sampleWordsDecode : Obligations.SampleWordsDecode := by
  unfold Obligations.SampleWordsDecode
  decide

end Sys2Proof.Certificates
end

section
/-!
Which request words are valid (30_encoding.md R132, R133, R134, R139): the tables of validity, written apart from the
decoder, say what its checks say; a word with the fixed bits of a row has 0 in every field the decoder wants 0. So the
decoder accepts exactly the valid words, and a step refuses the others.
-/

namespace Sys2Proof

open Machine

/-! ### Designators -/

theorem RegName.exists_of_aid_le {aid : BitVec 8} (h : aid.toNat ≤ 16) : ∃ n : RegName, aid = n.aid := by
  have hlt : aid.toNat < RegName.all.length := Nat.lt_succ_of_le h
  exact ⟨RegName.all[aid.toNat], RegName.aid_of_ofAid (List.getElem?_eq_getElem hlt)⟩

/-- The array `aid`s are those of the array names (R133). -/
theorem nameValid_aid (n : RegName) (idx : BitVec 8) : nameValid n.aid.toNat idx.toNat = n.indexOk idx := by
  have harray : ∀ k, nameValid n.aid.toNat k = (n.isArray || k == 0) := by intro k; cases n <;> rfl
  rw [harray, RegName.indexOk, Bool.eq_iff_iff]
  simp [← BitVec.toNat_inj]

theorem nameValid_iff {aid idx : BitVec 8} :
    nameValid aid.toNat idx.toNat = true ↔ ∃ n : RegName, aid = n.aid ∧ n.indexOk idx = true := by
  constructor
  · intro h
    have hle : aid.toNat ≤ 16 := of_decide_eq_true (Bool.and_eq_true_iff.mp h).1
    obtain ⟨n, rfl⟩ := RegName.exists_of_aid_le hle
    exact ⟨n, rfl, by rwa [nameValid_aid] at h⟩
  · rintro ⟨n, rfl, h⟩
    rwa [nameValid_aid]

/-- The field counts are the lengths of the field tables (R63 to R84). -/
theorem fidValid_aid (n : RegName) (fid : BitVec 8) : fidValid n.aid.toNat fid.toNat = (n.field? fid).isSome := by
  have hlength : fieldCounts.getD n.aid.toNat 0 = n.fields.length := by cases n <;> rfl
  rw [fidValid, hlength, RegName.field?, Bool.eq_iff_iff]
  simp

/-- The setter ids are the places of the settable fields (R63 to R84). -/
theorem setterValid_aid (n : RegName) (fid : BitVec 8) :
    setterValid n.aid.toNat fid.toNat = (n.field? fid).any Field.settable := by
  have hplaces : setterFids.getD n.aid.toNat [] =
      (List.range n.fields.length).filter fun k => (n.fields[k]?).any Field.settable := by cases n <;> rfl
  have hlt : (n.fields[fid.toNat]?).any Field.settable = true → fid.toNat < n.fields.length := by
    intro h
    obtain ⟨f, hf, -⟩ := (Option.any_eq_true _ _).mp h
    exact (List.getElem?_eq_some_iff.mp hf).1
  rw [setterValid, hplaces, RegName.field?, Bool.eq_iff_iff, List.contains_iff_mem, List.mem_filter, List.mem_range,
    and_iff_right_of_imp hlt]

/-! ### Fixed bits -/

/-- The rows of the request words (R132). -/
def requestRows : List OpRow := primitiveRows ++ compositeRows

theorem mem_requestRows {row : OpRow} (h : row ∈ opcodeTable) (hw : row.width = 96) : row ∈ requestRows := by
  have hcommand : ∀ row ∈ commandRows, row.width ≠ 96 := by decide
  exact (List.mem_append.mp h).resolve_right fun hc => hcommand row hc hw

/-- The `op` a row of a request word fixes (R131). -/
def OpRow.op (row : OpRow) : BitVec 8 := BitVec.ofNat 8 (row.pattern >>> 88)

/-- A row of a request word has 0 in every bit it fixes but those of `op`. -/
theorem pattern_of_mem_requestRows :
    ∀ row ∈ requestRows, row.pattern = (row.op ++ 0#24 ++ 0#32 ++ 0#32).toNat := by decide

/-- The mask of a row that fixes `op`, the selector from bit `k` on, `a` from bit `m` on and `v` from bit `n` on. -/
def fixedFrom (k m n : Nat) : BitVec 96 :=
  0xFF#8 ++ BitVec.allOnes 24 <<< k ++ BitVec.allOnes 32 <<< m ++ BitVec.allOnes 32 <<< n

theorem append_inj {l m : Nat} {x x' : BitVec l} {y y' : BitVec m} (h : x ++ y = x' ++ y') : x = x' ∧ y = y' := by
  constructor
  · rw [← BitVec.extractLsb'_append_eq_left (a := x) (b := y), h, BitVec.extractLsb'_append_eq_left]
  · rw [← BitVec.extractLsb'_append_eq_right (a := x) (b := y), h, BitVec.extractLsb'_append_eq_right]

theorem extractLsb'_of_and_allOnes {l k : Nat} {x : BitVec l} (h : x &&& BitVec.allOnes l <<< k = 0) :
    x.extractLsb' k (l - k) = 0 := by
  apply BitVec.eq_of_getLsbD_eq
  intro i hi
  have hbit := congrArg (fun y => y.getLsbD (k + i)) h
  simpa [hi, show k + i < l by omega] using hbit

/-- A request word is its `op`, its selector and its two values in a row (R131). -/
theorem Request.toWord_eq (r : Request) : r.toWord = r.op ++ r.sel ++ r.a ++ r.v := by
  rw [← Laws.EncodeMatchesRow.ofSel_toWord, Request.ofSel_sel]

/-- The fixed bits of a row, field by field. -/
theorem Request.fields_of_matchesWord {r : Request} {row : OpRow} {k m n : Nat} (hrow : row ∈ requestRows)
    (hmask : row.mask = (fixedFrom k m n).toNat) (h : row.matchesWord r.toWord.toNat = true) :
    r.op = row.op ∧ r.sel.extractLsb' k (24 - k) = 0 ∧ r.a.extractLsb' m (32 - m) = 0 ∧
      r.v.extractLsb' n (32 - n) = 0 := by
  have hword : r.toWord &&& fixedFrom k m n = row.op ++ 0#24 ++ 0#32 ++ 0#32 := by
    apply BitVec.eq_of_toNat_eq
    rw [BitVec.toNat_and, ← hmask, beq_iff_eq.mp h, pattern_of_mem_requestRows row hrow]
  rw [Request.toWord_eq, fixedFrom, BitVec.and_append, BitVec.and_append, BitVec.and_append] at hword
  obtain ⟨hword, hv⟩ := append_inj hword
  obtain ⟨hword, ha⟩ := append_inj hword
  obtain ⟨hop, hsel⟩ := append_inj hword
  have hall : ∀ x : BitVec 8, x &&& 0xFF#8 = x := by decide
  exact ⟨(hall _).symm.trans hop, extractLsb'_of_and_allOnes hsel, extractLsb'_of_and_allOnes ha,
    extractLsb'_of_and_allOnes hv⟩

/-- Does a request carry the fixed bits of a row (R132)? -/
def Request.hasRow (r : Request) : Bool := requestRows.any fun row => row.matchesWord r.toWord.toNat

/-- The formats of request words (R131, R132), each by where the bits it fixes in the selector, in `a` and in `v`
begin: a register, a register and a flag, a field, a field and a value; nothing, a value; a hart, a register number, a
CSR, the last two with and without a value; a memory range. -/
def requestFormats : List (Nat × Nat × Nat) :=
  [(16, 0, 0), (16, 0, 1), (24, 0, 0), (24, 0, 32), (0, 0, 0), (0, 0, 32), (20, 0, 0), (5, 0, 0), (5, 0, 32),
   (12, 0, 0), (12, 0, 32), (0, 32, 32)]

theorem format_of_mem_requestRows :
    ∀ row ∈ requestRows, ∃ f ∈ requestFormats, row.mask = (fixedFrom f.1 f.2.1 f.2.2).toNat := by decide

/-- A request that carries the fixed bits of some row carries those of a row of its own `op`. -/
theorem Request.row_of_hasRow {r : Request} (h : r.hasRow = true) :
    ∃ row ∈ requestRows, row.op = r.op ∧ row.matchesWord r.toWord.toNat = true := by
  obtain ⟨row, hrow, hmatch⟩ := List.any_eq_true.mp h
  obtain ⟨f, -, hmask⟩ := format_of_mem_requestRows row hrow
  obtain ⟨hop, -⟩ := Request.fields_of_matchesWord hrow hmask hmatch
  exact ⟨row, hrow, hop.symm, hmatch⟩

/-- Where the rows of an `op` want 0, a request with the fixed bits of a row has it. -/
theorem Request.zero_of_hasRow {r : Request} {op : Nat} (k m n : Nat) (h : r.hasRow = true) (hop : r.op.toNat = op)
    (hmask : ∀ row ∈ requestRows, row.op.toNat = op → row.mask = (fixedFrom k m n).toNat) :
    r.sel.extractLsb' k (24 - k) = 0 ∧ r.a.extractLsb' m (32 - m) = 0 ∧ r.v.extractLsb' n (32 - n) = 0 := by
  obtain ⟨row, hrow, hrop, hmatch⟩ := Request.row_of_hasRow h
  exact (Request.fields_of_matchesWord hrow (hmask row hrow (by rw [hrop, hop])) hmatch).2

theorem Request.extractLsb'_sel_fid (r : Request) : r.sel.extractLsb' 16 8 = r.fid := by
  rw [Request.sel, BitVec.extractLsb'_append_eq_of_le (by decide), BitVec.extractLsb'_append_eq_left]

/-- The `op` codes of the rows (R132). -/
theorem op_of_requestRows : requestRows.map (fun row => row.op.toNat) =
    [0x01, 0x02, 0x03, 0x04, 0x05, 0x06, 0x07, 0x08, 0x09, 0x0A, 0x0B, 0x0C, 0x0D, 0x0E, 0x0F, 0x20, 0x21, 0x22,
     0x30, 0x31, 0x32, 0x33, 0x34, 0x35, 0x40, 0x41] := by decide

/-! ### The decoder -/

/-- Are the bytes of the request a valid designator (R134)? -/
def Request.designatorOk (r : Request) : Bool := designatorValid r.op.toNat r.fid.toNat r.idx.toNat r.aid.toNat

theorem validRequest_iff (w : BitVec 96) : validRequest w = true ↔
    (Request.ofWord w).hasRow = true ∧ (Request.ofWord w).designatorOk = true := by
  rw [Request.hasRow, Request.toWord_ofWord]
  exact Bool.and_eq_true_iff

/-- A request with the fixed bits of a row and a valid designator passes the checks of its `op`. -/
theorem Request.decode_of_valid {r : Request} (hrow : r.hasRow = true) (hdes : r.designatorOk = true) :
    ∃ i, r.decode = .ok i := by
  unfold Request.designatorOk at hdes
  unfold Request.decode
  split
  -- `read`, `write`, `reset`, `setPretty`: a register
  case h_1 hop | h_2 hop | h_3 hop =>
    obtain ⟨hfid, ha, hv⟩ := Request.zero_of_hasRow 16 0 0 hrow hop (by decide)
    rw [Request.extractLsb'_sel_fid] at hfid
    rw [BitVec.extractLsb'_eq_self] at ha hv
    rw [hop] at hdes
    obtain ⟨n, haid, hidx⟩ := nameValid_iff.mp hdes
    exact ⟨_, requireZero_three_ok.mpr ⟨hfid, ha, hv, Request.withName_ok.mpr ⟨n, haid, hidx, rfl⟩⟩⟩
  case h_15 hop =>
    obtain ⟨hfid, ha, hv⟩ := Request.zero_of_hasRow 16 0 1 hrow hop (by decide)
    rw [Request.extractLsb'_sel_fid] at hfid
    rw [BitVec.extractLsb'_eq_self] at ha
    rw [hop] at hdes
    obtain ⟨n, haid, hidx⟩ := nameValid_iff.mp hdes
    exact ⟨_, requireZero_three_ok.mpr ⟨hfid, ha, hv, Request.withName_ok.mpr ⟨n, haid, hidx, rfl⟩⟩⟩
  -- `get`, `set`: a field
  case h_4 hop =>
    obtain ⟨-, ha, hv⟩ := Request.zero_of_hasRow 24 0 0 hrow hop (by decide)
    rw [BitVec.extractLsb'_eq_self] at ha hv
    rw [hop] at hdes
    obtain ⟨hname, hfid⟩ := Bool.and_eq_true_iff.mp hdes
    obtain ⟨n, haid, hidx⟩ := nameValid_iff.mp hname
    rw [haid, fidValid_aid] at hfid
    obtain ⟨f, hf⟩ := Option.isSome_iff_exists.mp hfid
    exact ⟨_, requireZero_two_ok.mpr ⟨ha, hv, Request.withField_ok.mpr ⟨n, f, haid, hidx, hf, rfl⟩⟩⟩
  case h_5 hop =>
    obtain ⟨-, ha, -⟩ := Request.zero_of_hasRow 24 0 32 hrow hop (by decide)
    rw [BitVec.extractLsb'_eq_self] at ha
    rw [hop] at hdes
    obtain ⟨hname, hfid⟩ := Bool.and_eq_true_iff.mp hdes
    obtain ⟨n, haid, hidx⟩ := nameValid_iff.mp hname
    rw [haid, setterValid_aid] at hfid
    obtain ⟨f, hf, hset⟩ := (Option.any_eq_true _ _).mp hfid
    exact ⟨_, requireZero_one_ok.mpr ⟨ha, Request.withField_ok.mpr ⟨n, f, haid, hidx, hf, if_pos hset⟩⟩⟩
  -- nothing, or a value
  case h_6 hop | h_8 hop | h_9 hop | h_10 hop | h_11 hop | h_12 hop | h_14 hop =>
    obtain ⟨hsel, ha, hv⟩ := Request.zero_of_hasRow 0 0 0 hrow hop (by decide)
    rw [BitVec.extractLsb'_eq_self] at hsel ha hv
    exact ⟨_, requireZero_three_ok.mpr ⟨hsel, ha, hv, rfl⟩⟩
  case h_7 hop | h_13 hop =>
    obtain ⟨hsel, ha, -⟩ := Request.zero_of_hasRow 0 0 32 hrow hop (by decide)
    rw [BitVec.extractLsb'_eq_self] at hsel ha
    exact ⟨_, requireZero_two_ok.mpr ⟨hsel, ha, rfl⟩⟩
  -- a hart
  case h_16 hop | h_17 hop | h_18 hop =>
    obtain ⟨hsel, ha, hv⟩ := Request.zero_of_hasRow 20 0 0 hrow hop (by decide)
    rw [BitVec.extractLsb'_eq_self] at ha hv
    exact ⟨_, requireZero_three_ok.mpr ⟨hsel, ha, hv, rfl⟩⟩
  -- a register number, a CSR: without and with a value
  case h_19 hop | h_21 hop =>
    obtain ⟨hsel, ha, hv⟩ := Request.zero_of_hasRow 5 0 0 hrow hop (by decide)
    rw [BitVec.extractLsb'_eq_self] at ha hv
    exact ⟨_, requireZero_three_ok.mpr ⟨hsel, ha, hv, rfl⟩⟩
  case h_20 hop | h_22 hop =>
    obtain ⟨hsel, ha, -⟩ := Request.zero_of_hasRow 5 0 32 hrow hop (by decide)
    rw [BitVec.extractLsb'_eq_self] at ha
    exact ⟨_, requireZero_two_ok.mpr ⟨hsel, ha, rfl⟩⟩
  case h_23 hop =>
    obtain ⟨hsel, ha, hv⟩ := Request.zero_of_hasRow 12 0 0 hrow hop (by decide)
    rw [BitVec.extractLsb'_eq_self] at ha hv
    exact ⟨_, requireZero_three_ok.mpr ⟨hsel, ha, hv, rfl⟩⟩
  case h_24 hop =>
    obtain ⟨hsel, ha, -⟩ := Request.zero_of_hasRow 12 0 32 hrow hop (by decide)
    rw [BitVec.extractLsb'_eq_self] at ha
    exact ⟨_, requireZero_two_ok.mpr ⟨hsel, ha, rfl⟩⟩
  -- a memory range
  case h_25 hop | h_26 hop =>
    obtain ⟨hsel, -, -⟩ := Request.zero_of_hasRow 0 32 32 hrow hop (by decide)
    rw [BitVec.extractLsb'_eq_self] at hsel
    exact ⟨_, requireZero_one_ok.mpr ⟨hsel, rfl⟩⟩
  -- no other `op` has a row
  case h_27 =>
    obtain ⟨row, hmem, hop, -⟩ := Request.row_of_hasRow hrow
    have hcode := List.mem_map_of_mem (f := fun row => row.op.toNat) hmem
    rw [op_of_requestRows, hop] at hcode
    simp only [List.mem_cons, List.not_mem_nil, or_false] at hcode
    simp_all

/-- A request that decodes has a valid designator: the decoder makes the checks of R134. -/
theorem Request.designatorOk_of_decode {r : Request} {i : Instr} (h : r.decode = .ok i) : r.designatorOk = true := by
  unfold Request.designatorOk
  unfold Request.decode at h
  split at h
  -- `read`, `write`, `reset`, `setPretty`: a register
  case h_1 hop | h_2 hop | h_3 hop | h_15 hop =>
    obtain ⟨n, haid, hidx, -⟩ := Request.withName_ok.mp (requireZero_ok.mp h).2
    rw [hop]
    exact nameValid_iff.mpr ⟨n, haid, hidx⟩
  -- `get`, `set`: a field
  case h_4 hop =>
    obtain ⟨n, f, haid, hidx, hf, -⟩ := Request.withField_ok.mp (requireZero_ok.mp h).2
    rw [hop]
    refine Bool.and_eq_true_iff.mpr ⟨nameValid_iff.mpr ⟨n, haid, hidx⟩, ?_⟩
    rw [haid, fidValid_aid, hf]
    rfl
  case h_5 hop =>
    obtain ⟨n, f, haid, hidx, hf, hi⟩ := Request.withField_ok.mp (requireZero_ok.mp h).2
    rw [hop]
    refine Bool.and_eq_true_iff.mpr ⟨nameValid_iff.mpr ⟨n, haid, hidx⟩, ?_⟩
    rw [haid, setterValid_aid, hf]
    split at hi
    next hset => exact hset
    next => cases hi
  case h_27 => cases h
  -- the operations without a designator
  all_goals
    next hop =>
      rw [hop]
      rfl

/-- A request that decodes carries the fixed bits of a row. -/
theorem hasRow_of_decodeRequest {w : BitVec 96} {i : Instr} (h : decodeRequest w = .ok i) :
    (Request.ofWord w).hasRow = true := by
  obtain ⟨row, hrow, -, hwidth, hmatch⟩ := row_of_decode (e := .request w) h
  rw [Request.hasRow, Request.toWord_ofWord]
  exact List.any_eq_true.mpr ⟨row, mem_requestRows hrow hwidth, hmatch⟩

theorem validRequest_iff_decodes (w : BitVec 96) : validRequest w = true ↔ ∃ i, decodeRequest w = .ok i := by
  rw [validRequest_iff]
  constructor
  · rintro ⟨hrow, hdes⟩
    exact Request.decode_of_valid hrow hdes
  · rintro ⟨i, h⟩
    exact ⟨hasRow_of_decodeRequest h, Request.designatorOk_of_decode h⟩

/-! ### The step -/

namespace Machine

variable {s : State}

/-- A word that does not decode is answered `REFUSED` (R139, R309). -/
theorem serveRequest_of_not_valid {word : BitVec 96} (h : validRequest word = false) :
    serveRequest word s = .next s.refuse := by
  unfold serveRequest
  split
  next i hdec => simp [(validRequest_iff_decodes word).mpr ⟨i, hdec⟩] at h
  next => rfl

/-- A step with a command word in the issue slot (log 5). -/
theorem step_of_inputs_command {word : Word} {rest : List Input} (h : s.inputs = .command word :: rest) :
    step s = serveCommand word (s.accept rest []) := by
  rw [step, serveNext, h]

theorem serveCommand_of_decode {word : Word} {i : Instr} (h : decodeCommand word = .ok i) :
    serveCommand word s = exec i s := by
  rw [serveCommand, h]

end Machine

end Sys2Proof

namespace Sys2Proof.Certificates

open Machine

/-- Settles O5. -/
theorem decoderAcceptsTheValidRequests : Obligations.DecoderAcceptsTheValidRequests :=
  validRequest_iff_decodes

/-- Settles O4: the word does not decode, so the step is the refusal. -/
theorem stepRefusesInvalidRequests : Obligations.StepRefusesInvalidRequests := by
  intro s word data rest hin hvalid
  rw [step_of_inputs_request hin, serveRequest_of_not_valid hvalid]
  rfl

/-- Settles O2. -/
theorem stepRunsTheDecodedCommandWord : Obligations.StepRunsTheDecodedCommandWord := by
  intro s word rest i hin hdec
  have hstep : step s = exec i (s.accept rest []) := by
    rw [step_of_inputs_command hin, serveCommand_of_decode hdec]
  exact ⟨(encode_of_decodeCommand hdec).2, hstep⟩

end Sys2Proof.Certificates
end

section
/-!
Operands in the words the block writes (30_encoding.md R135, R141): the hart index that `setHartsel` puts into
`dmcontrol` and `getHartsel` reads back, and the one command word an abstract operation sends, whatever the answers.
-/

namespace Sys2Proof.Machine

variable {i : Instr} {s t u : State}

/-! ### The hart index (R167, R168) -/

/-- The two halves written are the index read (R25). -/
theorem hartselOf_withHartsel (h : BitVec 20) (x : Word) : hartselOf (withHartsel h x) = h.setWidth 32 := by
  apply BitVec.eq_of_getLsbD_eq
  intro j hj
  rw [hartselOf, BitVec.getLsbD_or, BitVec.getLsbD_shiftLeft, Field.getLsbD_extract _ (by decide),
    Field.getLsbD_extract _ (by decide), withHartsel]
  simp only [Field.getLsbD_insert Field.hartselhi (by decide), Field.getLsbD_insert Field.hartsello (by decide)]
  simp only [Field.hartselhi, Field.hartsello, hartLo, hartHi]
  interval_cases j <;> simp

theorem exec_setHartsel_shadow (v : Word) (s : State) :
    ∃ t, exec (.setHartsel v) s = .next t ∧ hartselOf (t.shadow .dmcontrol) = (v.setWidth 20).setWidth 32 := by
  refine ⟨_, rfl, ?_⟩
  simp [hartselOf_withHartsel]

/-! ### Command words sent -/

/-- From `s` to `t` the block sent these words to `command`. -/
def SentCommands (ws : List Word) (s t : State) : Prop :=
  ∃ es, t.events = s.events ++ es ∧ wordsSent .command es = ws

theorem SentCommands.trans {vs ws : List Word} (h : SentCommands vs s t) (g : SentCommands ws t u) :
    SentCommands (vs ++ ws) s u := by
  obtain ⟨es, hes, rfl⟩ := h
  obtain ⟨fs, hfs, rfl⟩ := g
  exact ⟨es ++ fs, by rw [hfs, hes, List.append_assoc], wordsSent_append es fs _⟩

/-- Two parts in a row, the first going on or ending the operation. -/
theorem Res.Ends.andThen {α β : Type} {x : Res α} {f : α → State → Res β} {P P' Q : State → Prop}
    (h : x.Ends P Q) (hf : ∀ a t, P t → (f a t).Ends P' Q) : (x.andThen f).Ends P' Q := by
  cases x with
  | go a t => exact hf a t h
  | stop y t => exact h

theorem Res.Ends.imp {α : Type} {x : Res α} {P P' Q Q' : State → Prop} (h : x.Ends P Q) (hP : ∀ t, P t → P' t)
    (hQ : ∀ t, Q t → Q' t) : x.Ends P' Q' := by
  cases x with
  | go a t => exact hP t h
  | stop y t => exact hQ t h

/-- The registers of an abstract command but `command` (R217). -/
def stagingRegs (r : RegId) : Bool := decide (r ∈ [RegId.abstractcs, .data 0])

/-- A part on the other registers sends no command word. -/
theorem Res.Runs.sendsNoCommand {α : Type} {x : Res α} {ws : List Word} (hs : SentCommands ws s t)
    (h : x.Runs stagingRegs (some .ac) false t) : x.Ends (SentCommands ws s) (SentCommands ws s) := by
  have hran : ∀ {u es}, Ran stagingRegs (some .ac) false t u es → SentCommands ws s u := by
    intro u es hran
    obtain ⟨-, hnone⟩ := words_of_log (q := .command) rfl hran.log
    have hsent := hs.trans ⟨es, hran.events, hnone⟩
    rwa [List.append_nil] at hsent
  cases x with
  | go a u => obtain ⟨es, h, -⟩ := h; exact hran h
  | stop y u => obtain ⟨es, h, -⟩ := h; exact hran h

/-- A write of `command` sends its word, answered `Ok` or `Err` (R161). -/
theorem wr_command_sends (word : Word) (s : State) :
    (wr .command (s.setShadow .command word)).Ends (SentCommands [word] s) (SentCommands [word] s) := by
  have hcycle : SentCommands [word] s ((s.setShadow .command word).afterCycle (.write RegId.command.addr word)) :=
    ⟨[.cycle (.write RegId.command.addr word) _], rfl, rfl⟩
  unfold wr
  rw [State.shadow_setShadow_same]
  split
  all_goals exact hcycle

/-- Steps 3 to 6 send the command word once (R206 to R209). -/
theorem issueCommand_sends (write : Bool) (word : Word) (s : State) :
    (issueCommand write word s).Ends (SentCommands [word] s) (SentCommands [word] s) := by
  refine (wr_command_sends word s).andThen fun _ t ht => Res.Runs.sendsNoCommand ht ?_
  refine Res.Runs.andThen ?_ fun _ u => completeCommand_runs rfl write
  exact .afterEngine (.afterEngine (pollOrStop_runs rfl _ _))

/-- From `s` to `t` the block sent this command word once, or none. -/
def SentAtMost (word : Word) (s t : State) : Prop := SentCommands [] s t ∨ SentCommands [word] s t

theorem SentAtMost.trans {word : Word} (h : SentAtMost word s t) (g : SentCommands [] t u) : SentAtMost word s u :=
  h.imp (fun h => h.trans g) fun h => h.trans g

/-- The end of a command sends none (R216). -/
theorem commandEnd_sends {word : Word} {x : Res Word} (h : x.Ends (SentAtMost word s) (SentAtMost word s)) :
    SentAtMost word s (commandEnd x) := by
  cases x with
  | go v t =>
    exact SentAtMost.trans h ⟨[.engine .ac .done, answeredOk v], by simp [commandEnd, answeredOk, Response.okWith], rfl⟩
  | stop y t =>
    exact SentAtMost.trans h ⟨[.engine .ac .failed, .response (y.response 0) []], by simp [commandEnd], rfl⟩

/-- An abstract command sends its own word, or ends before it does (R202). -/
theorem accessReg_sends (write : Bool) (regno : BitVec 16) (staged : Option Word) (s : State) :
    SentAtMost (commandWord write regno) s (accessReg write regno staged s) := by
  have hstart : SentCommands [] s s := ⟨[], by simp, rfl⟩
  have hprepare := Res.Runs.sendsNoCommand hstart (prepareCommand_runs rfl)
  refine commandEnd_sends ((hprepare.imp (fun _ => id) fun _ => .inl).andThen fun _ t ht => ?_)
  have hstage := Res.Runs.sendsNoCommand ht (stageValue_runs rfl staged)
  refine (hstage.imp (fun _ => id) fun _ => .inl).andThen fun _ u hu => ?_
  exact (issueCommand_sends write _ u).imp (fun _ h => .inr (hu.trans h)) fun _ h => .inr (hu.trans h)

/-! ### Command words from a clean shadow -/

/-- An instruction that stages nothing comes from a clean shadow to steps 3 to 6 at once (R203 to R206). -/
theorem commandRunsFrom_of_clean {isRead : Bool} {word : Word} (hi : commandWord? i = some (isRead, word))
    (hstaged : stagedValue? i = none) (hclean : cleanCommand (s.shadow .abstractcs) = true) :
    CommandRunsFrom i isRead word s s := by
  obtain ⟨regno, rfl, hexec⟩ := exec_of_commandWord hi
  apply commandRunsFrom_of_eq
  rw [hexec, hstaged, accessReg_unstaged (prepareCommand_clean hclean)]

theorem readAccessCompletes_of_clean {word : Word} (hi : commandWord? i = some (true, word))
    (hstaged : stagedValue? i = none) (hclean : cleanCommand (s.shadow .abstractcs) = true) :
    ReadAccessCompletes i word s :=
  (commandRunsFrom_of_clean hi hstaged hclean).1

theorem writeAccessCompletes_of_clean {word : Word} (hi : commandWord? i = some (false, word))
    (hstaged : stagedValue? i = none) (hclean : cleanCommand (s.shadow .abstractcs) = true) :
    WriteAccessCompletes i word s :=
  (commandRunsFrom_of_clean hi hstaged hclean).1

end Sys2Proof.Machine

namespace Sys2Proof.Certificates

open Machine

/-- Settles O23: the two halves written are the low 20 bits of the value. -/
theorem setHartselThenGetHartsel : Obligations.SetHartselThenGetHartsel := by
  intro v s
  obtain ⟨t, ht, hhart⟩ := exec_setHartsel_shadow v s
  refine ⟨t, t.respondOk (hartselOf (t.shadow .dmcontrol)), hartselOf (t.shadow .dmcontrol), ht, rfl, rfl, ?_⟩
  rw [hhart, BitVec.toNat_setWidth_of_le (by decide), BitVec.toNat_setWidth]

/-- Settles O35: each row `command.*` is an instruction that stages nothing. -/
theorem commandWordsComplete : Obligations.CommandWordsComplete := by
  intro s hclean
  exact ⟨fun _ => readAccessCompletes_of_clean rfl rfl hclean, fun _ => readAccessCompletes_of_clean rfl rfl hclean,
    fun _ => readAccessCompletes_of_clean rfl rfl hclean, fun _ => writeAccessCompletes_of_clean rfl rfl hclean,
    fun _ => writeAccessCompletes_of_clean rfl rfl hclean, fun _ => writeAccessCompletes_of_clean rfl rfl hclean⟩

/-- Settles O40: before and after the one write of `command` only other registers are accessed. -/
theorem onlyItsCommandWord : Obligations.OnlyItsCommandWord := by
  intro i isRead word s t es hi h hes
  obtain ⟨regno, rfl, hexec⟩ := exec_of_commandWord hi
  cases (hexec s).symm.trans h
  refine (accessReg_sends (!isRead) regno (stagedValue? i) s).imp ?_ ?_
  all_goals
    rintro ⟨fs, hfs, hsent⟩
    obtain rfl : fs = es := List.append_cancel_left (hfs.symm.trans hes)
    exact hsent

end Sys2Proof.Certificates
end

section
/-!
One request, one response (30_encoding.md R136, R138, 60_exceptions.md R300, R314): what an operation records before its
answer holds no response and at most one warning; the answer is one response, the last event.
-/

namespace Sys2Proof.Machine

variable {i : Instr} {s t u : State}

/-- From `s` to `t` there was no response, and at most one warning. -/
def Unanswered (s t : State) : Prop :=
  ∃ es, t.events = s.events ++ es ∧ responsesOf es = [] ∧ (warningsOf es).length ≤ 1

/-- From `s` to `t` operation `i` answered: one response, the last event, after at most one warning, and after none
where `i` runs an engine (R138). -/
def AnswersOnce (i : Instr) (s t : State) : Prop :=
  ∃ es r data, t.events = s.events ++ (es ++ [.response r data]) ∧ responsesOf es = [] ∧
    (warningsOf es).length ≤ 1 ∧ (i.engine? ≠ none → warningsOf es = [])

/-! ### Operations without an engine -/

theorem Unanswered.of_events (h : t.events = s.events) : Unanswered s t :=
  ⟨[], by rw [h, List.append_nil], rfl, by simp⟩

theorem Unanswered.record (s : State) {e : Event} (he : e.response? = none) : Unanswered s (s.record e) := by
  refine ⟨[e], rfl, by simp [he], ?_⟩
  cases hw : e.warning? <;> simp [hw]

theorem Unanswered.warn (s : State) (w : Warning) : Unanswered s (s.warn w) := Unanswered.record s rfl

theorem Unanswered.warnIf (s : State) (c : Prop) [Decidable c] (w : Warning) :
    Unanswered s (if c then s.warn w else s) := by
  split
  · exact Unanswered.warn s w
  · exact Unanswered.of_events rfl

theorem Unanswered.setShadow (h : Unanswered s t) (r : RegId) (v : Word) : Unanswered s (t.setShadow r v) := h

theorem Unanswered.respond (h : Unanswered s t) (hi : i.engine? = none) (r : Response) (d : List Byte) :
    AnswersOnce i s (t.respond r d) := by
  obtain ⟨es, hes, hresponses, hwarnings⟩ := h
  exact ⟨es, r, d, by simp [hes], hresponses, hwarnings, fun hne => absurd hi hne⟩

theorem Unanswered.respondOk (h : Unanswered s t) (hi : i.engine? = none) (v : Word) :
    AnswersOnce i s (t.respondOk v) :=
  h.respond hi _ _

theorem withReg_answersOnce (hi : i.engine? = none) (n : RegName) (idx : BitVec 8) {f : RegId → State}
    (h : ∀ r, AnswersOnce i s (f r)) : AnswersOnce i s (withReg n idx s f) := by
  rcases withReg_cases n idx s f with ⟨-, e⟩ | ⟨-, -, e⟩ | ⟨r, -, -, e⟩ <;> rw [e]
  · exact (Unanswered.of_events rfl).respond hi _ _
  · exact (Unanswered.warn s _).respondOk hi 0
  · exact h r

theorem withField_answersOnce (hi : i.engine? = none) (n : RegName) (idx fid : BitVec 8) (usable : Field → Bool)
    {f : RegId → Field → State} (h : ∀ r fd, AnswersOnce i s (f r fd)) :
    AnswersOnce i s (withField n idx fid usable s f) := by
  rcases withField_cases n idx fid usable s f with ⟨-, e⟩ | ⟨-, -, e⟩ | ⟨r, fd, -, -, -, -, e⟩ <;> rw [e]
  · exact (Unanswered.of_events rfl).respond hi _ _
  · exact (Unanswered.warn s _).respondOk hi 0
  · exact h r fd

theorem getField_answersOnce (hi : i.engine? = none) (n : RegName) (fid : BitVec 8) (s : State) (r : RegId)
    (f : Field) : AnswersOnce i s (getField n fid s r f) := by
  unfold getField
  split
  · exact (Unanswered.warn s _).respondOk hi 0
  all_goals exact (Unanswered.of_events rfl).respondOk hi _

theorem setField_answersOnce (hi : i.engine? = none) (n : RegName) (idx fid : BitVec 8) (v : Word) (s : State)
    (r : RegId) (f : Field) : AnswersOnce i s (setField n idx fid v s r f) := by
  unfold setField
  split
  · exact (Unanswered.warn s _).respondOk hi 0
  all_goals exact ((Unanswered.warnIf s _ _).setShadow r _).respondOk hi 0

/-! ### Operations that use the transport -/

theorem warningsOf_of_within {p : RegId → Bool} {en : Option Engine} {es : List Event}
    (h : ∀ e ∈ es, e.within p en = true) : warningsOf es = [] := by
  refine List.filterMap_eq_nil_iff.mpr fun e he => ?_
  cases e with
  | warning => cases h _ he
  | cycle | transportReset | engine | response => rfl

theorem warningsOf_engineEnd (i : Instr) (st : EngineState) : warningsOf (i.engineEnd st) = [] := by
  unfold Instr.engineEnd
  cases i.engine? <;> rfl

theorem Ran.answersOnce {p : RegId → Bool} {en : Option Engine} {mv : Bool} {es : List Event}
    (h : Ran p en mv s t es) {st : EngineState} {r : Response} {d : List Byte}
    (hu : u.events = t.events ++ (i.engineEnd st ++ [.response r d])) : AnswersOnce i s u := by
  have hwarnings : warningsOf (es ++ i.engineEnd st) = [] := by
    rw [warningsOf_append, warningsOf_of_within h.log, warningsOf_engineEnd, List.append_nil]
  refine ⟨es ++ i.engineEnd st, r, d, by rw [hu, h.events]; simp, ?_, by simp [hwarnings], fun _ => hwarnings⟩
  rw [responsesOf_append, responsesOf_of_within h.log, responsesOf_engineEnd, List.append_nil]

/-- A part of an operation gives no warning and no response, so an answered one is answered once. -/
theorem Res.Runs.answersOnce {α : Type} {x : Res α} {p : RegId → Bool} {en : Option Engine} {mv : Bool}
    (h : x.Runs p en mv s) (hu : x.AnsweredBy i u) : AnswersOnce i s u := by
  cases x with
  | go a t =>
    obtain ⟨es, hran, -⟩ := h
    obtain ⟨v, c, d, hu⟩ := hu
    exact hran.answersOnce hu
  | stop y t =>
    obtain ⟨es, hran, -⟩ := h
    obtain ⟨c, d, hu⟩ := hu
    exact hran.answersOnce hu

/-- A transfer, of no unit or of some. -/
theorem transfer_answersOnce {c : Prop} [Decidable c] {x : Res Unit} (hi : i.engine? = some .sb)
    (hx : x.Runs busRegs (some .sb) true (beginTransfer s)) :
    AnswersOnce i s (transferEnd (if c then .go () (beginTransfer s) else x)) := by
  refine Res.Runs.answersOnce (p := busRegs) (.after Ran.beginTransfer noErr_nil ?_) (transferEnd_answeredBy hi _)
  split
  · exact Res.Runs.go ()
  · exact hx

/-- Every instruction, at every state, ends in a next state and answers once. -/
theorem exec_answersOnce (i : Instr) (s : State) : ∃ t, exec i s = .next t ∧ AnswersOnce i s t := by
  cases i with
  | read n idx =>
    exact ⟨_, rfl, withReg_answersOnce rfl n idx fun r =>
      (rd_runs (p := fun _ => true) (en := none) (mv := false) rfl).answersOnce (primitiveEnd_answeredBy rfl _)⟩
  | write n idx =>
    exact ⟨_, rfl, withReg_answersOnce rfl n idx fun r =>
      (wr_runs (p := fun _ => true) (en := none) (mv := false) rfl).answersOnce (primitiveEnd_answeredBy rfl _)⟩
  | reset n idx | setPretty n idx =>
    exact ⟨_, rfl, withReg_answersOnce rfl n idx fun r => (Unanswered.of_events rfl).respondOk rfl 0⟩
  | get n idx fid => exact ⟨_, rfl, withField_answersOnce rfl n idx fid _ (getField_answersOnce rfl n fid s)⟩
  | set n idx fid v =>
    exact ⟨_, rfl, withField_answersOnce rfl n idx fid _ (setField_answersOnce rfl n idx fid v s)⟩
  | setHartsel v => exact ⟨_, rfl, ((Unanswered.warnIf s _ _).setShadow _ _).respondOk rfl 0⟩
  | getHartsel | hartselMax | cmderrClear | sberrorClear | sbbusyerrorClear | setPollLimit | getPollLimit =>
    exact ⟨_, rfl, (Unanswered.of_events rfl).respondOk rfl _⟩
  | dtmReset => exact ⟨_, rfl, (Unanswered.record s rfl).respondOk rfl 0⟩
  | selectHart hart =>
    exact ⟨_, execSelectHart_eq hart s, (selectSteps_runs (p := hartRegs) (en := none) (mv := false) hart
      rfl).answersOnce (primitiveEnd_answeredBy rfl _)⟩
  | haltHart | resumeHart =>
    exact ⟨_, rfl, (requestSteps_runs (mv := false) _ _ _ _).answersOnce (hartEnd_answeredBy rfl _)⟩
  | readMem a len => exact ⟨_, rfl, transfer_answersOnce rfl (readSteps_runs a _ _)⟩
  | writeMem a len => exact ⟨_, rfl, transfer_answersOnce rfl (writeSteps_runs a _ _)⟩
  | readGpr | writeGpr | readFpr | writeFpr | readCsr | writeCsr
  | cmdReadGpr | cmdWriteGpr | cmdReadFpr | cmdWriteFpr | cmdReadCsr | cmdWriteCsr =>
    exact ⟨_, rfl, (accessReg_runs (mv := false) _ _ _).answersOnce (commandEnd_answeredBy rfl _)⟩

end Sys2Proof.Machine

namespace Sys2Proof.Certificates

open Machine

/-- Settles O54. -/
theorem everyOperationAnswersOnce : Obligations.EveryOperationAnswersOnce := by
  intro i s
  obtain ⟨t, ht, es, r, data, hes, hresponses, hwarnings, hnone⟩ := exec_answersOnce i s
  exact ⟨t, es, r, data, ht, hes, hresponses, hwarnings, hnone⟩

end Sys2Proof.Certificates
end

section
/-!
The primitive operations on registers and fields (40_register_ops.md R160 to R173): one lemma per way a designated
operation goes (out of range, on one register, on one field of it), the words the accessors write and the values they
read, and each operation as one update of the state.
-/

namespace Sys2Proof.Machine

variable {n : RegName} {idx fid : BitVec 8} {f : Field} {r : RegId} {s : State}

/-! ### Answers -/

theorem State.respondOk_eq (s : State) (v : Word) :
    s.respondOk v = { s with events := s.events ++ [answeredOk v] } := rfl

theorem State.warn_respondOk (s : State) (w : Warning) (v : Word) :
    (s.warn w).respondOk v = { s with events := s.events ++ [.warning w, answeredOk v] } := by
  rw [State.respondOk_eq, State.warn_events, List.append_assoc]
  rfl

theorem State.setShadow_respondOk (s : State) (r : RegId) (x v : Word) :
    (s.setShadow r x).respondOk v =
      { s with sh := s.sh.set r x, events := s.events ++ [answeredOk v] } := rfl

/-- A local write after a warning that is given or not (R164, R168). -/
theorem warnIf_setShadow_respondOk (s : State) (c : Prop) [Decidable c] (w : Warning) (r : RegId) (x v : Word) :
    ((if c then s.warn w else s).setShadow r x).respondOk v = { s with
      sh := s.sh.set r x
      events := s.events ++ (if c then [.warning w] else []) ++ [answeredOk v] } := by
  split
  · rfl
  · rw [List.append_nil]
    rfl

/-! ### Designated operations -/

/-- What an index out of range comes to (R165). -/
theorem withReg_outOfRange {g : RegId → State} (ha : n.isArray = true) (h : n.size ≤ idx.toNat) :
    withReg n idx s g = { s with events := s.events ++ [.warning (.index n.aid idx), answeredOk 0] } :=
  (withReg_out ha h).trans (State.warn_respondOk s _ 0)

/-- The index is looked at once the field is found to have the accessor (R134 (g), R165). -/
theorem withField_outOfRange {usable : Field → Bool} {g : RegId → Field → State}
    (hf : (n.field? fid).any usable = true) (ha : n.isArray = true) (h : n.size ≤ idx.toNat) :
    withField n idx fid usable s g =
      { s with events := s.events ++ [.warning (.index n.aid idx), answeredOk 0] } := by
  obtain ⟨fd, hfd, hu⟩ := (Option.any_eq_true _ _).mp hf
  rw [withField, hfd]
  exact (if_pos hu).trans (withReg_outOfRange ha h)

theorem exec_read (hr : n.resolve idx = some r) (s : State) :
    exec (.read n idx) s = .next (primitiveEnd (rd r s)) :=
  congrArg Host.Outcome.next (withReg_some hr)

theorem exec_write (hr : n.resolve idx = some r) (s : State) :
    exec (.write n idx) s = .next (primitiveEnd (wr r s)) :=
  congrArg Host.Outcome.next (withReg_some hr)

theorem exec_reset (hr : n.resolve idx = some r) (s : State) :
    exec (.reset n idx) s = .next ((s.setShadow r r.rst).respondOk 0) :=
  congrArg Host.Outcome.next (withReg_some hr)

theorem exec_get (hf : n.field? fid = some f) (hr : n.resolve idx = some r) (s : State) :
    exec (.get n idx fid) s = .next (getField n fid s r f) :=
  congrArg Host.Outcome.next (withField_some hf rfl hr)

theorem exec_set (hf : n.field? fid = some f) (hu : f.settable = true) (hr : n.resolve idx = some r) (v : Word)
    (s : State) : exec (.set n idx fid v) s = .next (setField n idx fid v s r f) :=
  congrArg Host.Outcome.next (withField_some hf hu hr)

/-- The two ways a cycle ends a primitive operation (R160, R161, R301). -/
theorem primitiveEnd_go (t : State) :
    primitiveEnd (.go () t) = { t with events := t.events ++ [answeredOk 0] } := rfl

theorem primitiveEnd_transportError (e : Nat) (t : State) :
    primitiveEnd (.stop (.transportError e) t) =
      { t with events := t.events ++ [.response ⟨.transportError, 0, BitVec.ofNat 32 e, 0⟩ []] } := rfl

/-- The reset constants (R62): two registers have one other than 0. -/
theorem RegId.rst_eq (r : RegId) :
    r.rst = if r = .dmstatus then 0x00000002 else if r = .sbcs then 0x20040000 else 0 := by
  cases r <;> rfl

/-! ### Getters and setters -/

/-- A plain getter reads the field's bits (R163). -/
theorem getField_of_plain (hacc : f.acc ∈ [Acc.getter, .getSet, .getClear]) (n : RegName) (fid : BitVec 8)
    (s : State) (r : RegId) : getField n fid s r f = s.respondOk (f.extract (s.shadow r)) := by
  simp only [List.mem_cons, List.not_mem_nil, or_false] at hacc
  unfold getField
  rcases hacc with h | h | h <;> rw [h]

theorem getField_of_unimpl (hacc : f.acc = .unimpl) (n : RegName) (fid : BitVec 8) (s : State) (r : RegId) :
    getField n fid s r f = (s.warn (.unimpl n.aid fid)).respondOk 0 := by
  rw [getField, hacc]

theorem setField_of_unimpl (hacc : f.acc = .unimpl) (n : RegName) (idx fid : BitVec 8) (v : Word) (s : State)
    (r : RegId) : setField n idx fid v s r f = (s.warn (.unimpl n.aid fid)).respondOk 0 := by
  rw [setField, hacc]

/-- When a setter warns (R22, R164). -/
theorem Field.overflows_iff (f : Field) (v : Word) :
    f.overflows v = true ↔ f.width < 32 ∧ 2 ^ f.width ≤ v.toNat := by
  simp [Field.overflows]

/-- A setter writes the field, after a warning where the value does not fit (R164). -/
theorem setField_of_getSet (hacc : f.acc = .getSet) (n : RegName) (idx fid : BitVec 8) (v : Word) (s : State)
    (r : RegId) : setField n idx fid v s r f = { s with
      sh := s.sh.set r (f.insert v (s.shadow r))
      events := s.events ++
        (if f.width < 32 ∧ 2 ^ f.width ≤ v.toNat then [.warning (.trunc n.aid idx fid v)] else []) ++
        [answeredOk 0] } := by
  rw [setField, hacc]
  simp only [State.putField_eq, Field.overflows_iff, warnIf_shadow]
  exact warnIf_setShadow_respondOk s _ _ r _ 0

/-- The unimplemented accessors (R85) are fields of scalar registers. -/
theorem field_of_unimplemented (h : (n, fid) ∈ [(RegName.dmcontrol, (2 : BitVec 8)), (.dmcontrol, 4),
    (.dmcontrol, 7), (.dmcontrol, 8), (.authdata, 0)]) :
    ∃ f r, n.field? fid = some f ∧ f.acc = .unimpl ∧ n.resolve 0 = some r := by
  simp only [List.mem_cons, List.not_mem_nil, or_false, Prod.mk.injEq] at h
  rcases h with ⟨rfl, rfl⟩ | ⟨rfl, rfl⟩ | ⟨rfl, rfl⟩ | ⟨rfl, rfl⟩ | ⟨rfl, rfl⟩
  all_goals exact ⟨_, _, rfl, rfl, rfl⟩

/-! ### The derived getters of `dmstatus` (R173) -/

theorem and_one_eq_ite (x : Word) : x &&& 1 = if x.getLsbD 0 then 1 else 0 := by
  have hbit : x &&& 1 = (BitVec.ofBool (x.getLsbD 0)).setWidth 32 := BitVec.and_one_eq_setWidth_ofBool_getLsbD
  rw [hbit]
  cases x.getLsbD 0 <;> rfl

theorem haltedBit_eq (x : Word) : haltedBit x = if haltSeen x then 1 else 0 := by
  rw [haltedBit, and_one_eq_ite]
  simp [haltSeen]

theorem resumeackBit_eq (x : Word) : resumeackBit x = if resumeSeen x then 1 else 0 := by
  rw [resumeackBit, and_one_eq_ite]
  simp [resumeSeen]

/-- A derived getter answers the OR of its bits, from the shadow (R173). -/
theorem getField_of_derived {d : Derived} (hacc : f.acc = .derived d) (n : RegName) (fid : BitVec 8) (s : State)
    (r : RegId) : getField n fid s r f = s.respondOk (derivedValue d (s.shadow r)) := by
  rw [getField, hacc]

/-! ### The words of the hart selection helpers (R167 to R169) -/

/-- The index is the high half above the low half (R25, R167). -/
theorem hartselOf_eq (x : Word) :
    hartselOf x = (x.extractLsb' 6 10 ++ x.extractLsb' 16 10).setWidth 32 := by
  apply BitVec.eq_of_getLsbD_eq
  intro j hj
  have hlo : (Field.hartsello.extract x).getLsbD j = (decide (j < 10) && x.getLsbD (16 + j)) :=
    Field.getLsbD_extract .hartsello (by decide) x j
  have hhi : (Field.hartselhi.extract x).getLsbD (j - 10) = (decide (j - 10 < 10) && x.getLsbD (6 + (j - 10))) :=
    Field.getLsbD_extract .hartselhi (by decide) x (j - 10)
  rw [hartselOf, BitVec.getLsbD_or, BitVec.getLsbD_shiftLeft, hlo, hhi, BitVec.getLsbD_setWidth,
    BitVec.getLsbD_append, BitVec.getLsbD_extractLsb', BitVec.getLsbD_extractLsb']
  by_cases hlow : j < 10 <;> simp [hj, hlow]

/-- The halves of the index are those of the operand (R168). -/
theorem hartLo_setWidth (v : Word) : hartLo (v.setWidth 20) = (v.extractLsb' 0 10).setWidth 32 := by
  rw [hartLo, BitVec.extractLsb'_setWidth_of_le (by decide)]

theorem hartHi_setWidth (v : Word) : hartHi (v.setWidth 20) = (v.extractLsb' 10 10).setWidth 32 := by
  rw [hartHi, BitVec.extractLsb'_setWidth_of_le (by decide)]

theorem withHartsel_setWidth (v x : Word) : withHartsel (v.setWidth 20) x =
    (x &&& 0xFC00003F) ||| ((v.extractLsb' 0 10).setWidth 32 <<< 16) |||
      ((v.extractLsb' 10 10).setWidth 32 <<< 6) := by
  rw [withHartsel_eq, selectWord, encHart, hartLo_setWidth, hartHi_setWidth, ← BitVec.or_assoc]
  rfl

/-- The largest index sets every bit of both halves (R169). -/
theorem withHartsel_max (x : Word) : withHartsel 0xFFFFF x = x ||| 0x03FFFFC0 := by
  have henc : encHart 0xFFFFF = 0x03FFFFC0 := by decide
  rw [withHartsel_eq, selectWord, henc]
  apply BitVec.eq_of_getLsbD_eq
  intro j hj
  interval_cases j <;> simp

theorem exec_getHartsel (s : State) : exec .getHartsel s = .next { s with
    events := s.events ++ [answeredOk (hartselOf (s.shadow .dmcontrol))] } := rfl

theorem exec_setHartsel (v : Word) (s : State) : exec (.setHartsel v) s = .next { s with
    sh := s.sh.set .dmcontrol (withHartsel (v.setWidth 20) (s.shadow .dmcontrol))
    events := s.events ++ (if 2 ^ 20 ≤ v.toNat then [.warning (.trunc 1 0 5 v)] else []) ++
      [answeredOk 0] } := by
  simp only [exec, execSetHartsel, warnIf_shadow, warnIf_setShadow_respondOk]

/-- The two field writes of `hartselMax` are one write of the largest index (R169). -/
theorem exec_hartselMax (s : State) : exec .hartselMax s = .next { s with
    sh := s.sh.set .dmcontrol (withHartsel 0xFFFFF (s.shadow .dmcontrol))
    events := s.events ++ [answeredOk 0] } := rfl

/-! ### The clear mutators (R170 to R172) -/

/-- A value that fits is read back after it is written (R174 (a)). -/
theorem Field.extract_insert (h : f.off + f.width ≤ 32) {v : Word} (hv : v.toNat < 2 ^ f.width) (x : Word) :
    f.extract (f.insert v x) = v := by
  apply BitVec.eq_of_getLsbD_eq
  intro j _
  rw [Field.getLsbD_extract f h, Field.getLsbD_insert f h]
  by_cases hj : j < f.width
  · simp [hj]
  · have hhigh : v.getLsbD j = false :=
      Nat.testBit_lt_two_pow (hv.trans_le (Nat.pow_le_pow_right (by decide) (Nat.le_of_not_lt hj)))
    simp [hj, hhigh]

/-- A clear mutator is one local write that sets the bits `m`, and the getter then reads the value written. -/
theorem exec_clear_then_get {clear : Instr} {v m : Word}
    (hclear : exec clear s = .next ((s.putField r f v).respondOk 0)) (hf : n.field? fid = some f)
    (hr : n.resolve 0 = some r) (hacc : f.acc = .getClear) (hv : v.toNat < 2 ^ f.width)
    (hword : ∀ x, f.insert v x = x ||| m) :
    ∃ t, exec clear s = .next t ∧
      t = { s with sh := s.sh.set r (s.shadow r ||| m), events := s.events ++ [answeredOk 0] } ∧
      exec (.get n 0 fid) t = .next { t with events := t.events ++ [answeredOk v] } := by
  refine ⟨_, hclear, ?_, ?_⟩
  · rw [State.putField_eq, hword, State.setShadow_respondOk]
  · rw [exec_get hf hr, getField_of_plain (by simp [hacc]), State.respondOk_shadow, State.putField_eq,
      State.shadow_setShadow_same, Field.extract_insert (RegName.field_fits hf) hv, State.respondOk_eq]

end Sys2Proof.Machine

namespace Sys2Proof.Certificates

open Machine

/-- Settles O17: the four register operations look at the index first, the two accessors after the field, which a
well-formed instruction has. -/
theorem outOfRangeIndex : Obligations.OutOfRangeIndex := by
  refine ⟨RegName.resolve_isSome, fun n idx fid v b s i ha h hwf hi => ?_⟩
  simp only [List.mem_cons, List.not_mem_nil, or_false] at hi
  rcases hi with rfl | rfl | rfl | rfl | rfl | rfl
  -- `read`, `write`, `reset`
  iterate 3 exact congrArg Host.Outcome.next (withReg_outOfRange ha h)
  -- `get`
  · obtain ⟨-, hfield⟩ := Bool.and_eq_true_iff.mp hwf
    exact congrArg Host.Outcome.next (withField_outOfRange (Option.any_true.trans hfield) ha h)
  -- `set`
  · obtain ⟨-, hfield⟩ := Bool.and_eq_true_iff.mp hwf
    exact congrArg Host.Outcome.next (withField_outOfRange hfield ha h)
  -- `setPretty`
  · exact congrArg Host.Outcome.next (withReg_outOfRange ha h)

/-- Settles O18. -/
theorem getOperation : Obligations.GetOperation := by
  intro n idx fid f r s hf hr hacc
  refine ⟨f.extract (s.shadow r), Field.getLsbD_extract f (RegName.field_fits hf) _, ?_⟩
  rw [exec_get hf hr, getField_of_plain hacc, State.respondOk_eq]

/-- Settles O19. -/
theorem setOperation : Obligations.SetOperation := by
  intro n idx fid v f r s hf hr hacc
  refine ⟨f.insert v (s.shadow r), Field.getLsbD_insert f (RegName.field_fits hf) v _, ?_⟩
  have hsettable : f.settable = true := by rw [Field.settable, hacc]
  rw [exec_set hf hsettable hr, setField_of_getSet hacc]

/-- Settles O22: the two halves of `dmcontrol` are read, replaced, and filled. -/
theorem hartselHelpers : Obligations.HartselHelpers := by
  intro v s
  refine ⟨?_, ?_, ?_⟩
  · rw [exec_getHartsel, hartselOf_eq]
  · rw [exec_setHartsel, withHartsel_setWidth]
  · rw [exec_hartselMax, withHartsel_max]

/-- Settles O24: each mutator fills one sticky field, which has a getter. -/
theorem clearMutators : Obligations.ClearMutators := fun _ =>
  ⟨exec_clear_then_get rfl rfl rfl rfl (by decide) cmderrClear_word,
    exec_clear_then_get rfl rfl rfl rfl (by decide) sberrorClear_word,
    exec_clear_then_get rfl rfl rfl rfl (by decide) sbbusyerrorClear_word⟩

/-- Settles O14, by the range check, then the answer to the one read. -/
theorem readOperation : Obligations.ReadOperation := by
  intro n idx s
  refine ⟨fun ha h => congrArg Host.Outcome.next (withReg_outOfRange ha h), fun r x hr hx => ?_,
    fun r e hr he => ?_⟩
  · rw [exec_read hr, rd_of_ok hx, primitiveEnd_go, List.append_assoc]
    rfl
  · rw [exec_read hr, rd_of_err he, primitiveEnd_transportError, List.append_assoc]
    rfl

/-- Settles O15, by the range check, then the answer to the one write. -/
theorem writeOperation : Obligations.WriteOperation := by
  intro n idx s
  refine ⟨fun ha h => congrArg Host.Outcome.next (withReg_outOfRange ha h), fun r k hr hk => ?_,
    fun r e hr he => ?_⟩
  · rw [exec_write hr, wr_of_ok hk, primitiveEnd_go, List.append_assoc]
    rfl
  · rw [exec_write hr, wr_of_err he, primitiveEnd_transportError, List.append_assoc]
    rfl

/-- Settles O16. -/
theorem resetRegisterOperation : Obligations.ResetRegisterOperation := by
  intro n idx s
  refine ⟨fun ha h => congrArg Host.Outcome.next (withReg_outOfRange ha h), fun r hr => ?_⟩
  rw [exec_reset hr, State.setShadow_respondOk, RegId.rst_eq]

/-- Settles O20: both accessors of the pair do nothing but warn. -/
theorem unimplementedAccessors : Obligations.UnimplementedAccessors := by
  intro n fid v s hpair
  obtain ⟨f, r, hf, hacc, hr⟩ := field_of_unimplemented hpair
  have hsettable : f.settable = true := by rw [Field.settable, hacc]
  constructor
  · rw [exec_get hf hr, getField_of_unimpl hacc, State.warn_respondOk]
  · rw [exec_set hf hsettable hr, setField_of_unimpl hacc, State.warn_respondOk]

/-- Settles O21. -/
theorem derivedGetters : Obligations.DerivedGetters := by
  intro s
  constructor
  · rw [exec_get rfl rfl, getField_of_derived rfl, derivedValue, haltedBit_eq, State.respondOk_eq]
  · rw [exec_get rfl rfl, getField_of_derived rfl, derivedValue, resumeackBit_eq, State.respondOk_eq]

end Sys2Proof.Certificates
end

section
/-!
The abstract command engine (41_abstract_command.md): where step 1 leaves an operation, and what it does from there;
the polling loop, by what its reads answered (R201); and the values an engine state register takes (R216, R264).
-/

namespace Sys2Proof.Machine

variable {i c : Instr} {s t u : State} {r : RegId}

/-! ### After step 1 (R202 to R205) -/

section Prepared

variable {isRead : Bool} {word v k : Word} {rest : List Answer}

/-- What step 1 leaves is all that the rest of the operation depends on (R202). -/
theorem accessReg_congr (h : prepareCommand s = prepareCommand t) (write : Bool) (regno : BitVec 16)
    (staged : Option Word) : accessReg write regno staged s = accessReg write regno staged t := by
  rw [accessReg, accessReg, h]

/-- An operation whose step 1 ends it fails with that outcome, and stages and issues nothing (R216). -/
theorem accessReg_of_stop {x : Stop} (h : prepareCommand s = .stop x t) (write : Bool) (regno : BitVec 16)
    (staged : Option Word) :
    accessReg write regno staged s = (t.setEngine .ac .failed).respond (x.response 0) [] := by
  rw [accessReg, h]
  rfl

/-- With nothing to stage the operation comes from step 1 to steps 3 to 6. -/
theorem commandRunsFrom_of_prepared (hi : commandWord? i = some (isRead, word)) (h : prepareCommand s = .go () t)
    (hstaged : stagedValue? i = none) : CommandRunsFrom i isRead word s t := by
  obtain ⟨regno, rfl, hexec⟩ := exec_of_commandWord hi
  apply commandRunsFrom_of_eq
  rw [hexec, hstaged, accessReg_unstaged h]

/-- With a value to stage the operation comes to steps 3 to 6 once the value is acknowledged (R205). -/
theorem commandRunsFrom_of_prepared_staged (hi : commandWord? i = some (isRead, word))
    (h : prepareCommand s = .go () t) (hstaged : stagedValue? i = some v) (hs : t.answers = .ok k :: rest) :
    CommandRunsFrom i isRead word s (t.afterStaging v k rest) := by
  obtain ⟨regno, rfl, hexec⟩ := exec_of_commandWord hi
  apply commandRunsFrom_of_eq
  rw [hexec, hstaged, accessReg_staged h _ _ _ hs]

/-- A write access that stages its value completes from a clean shadow (R205 to R209). -/
theorem stagedAccessCompletes_of_clean (hi : commandWord? i = some (false, word)) (hstaged : stagedValue? i = some v)
    (hclean : cleanCommand (s.shadow .abstractcs) = true) : StagedAccessCompletes i word v s :=
  fun _ _ hs => (commandRunsFrom_of_prepared_staged hi (prepareCommand_clean hclean) hstaged hs).1

/-- Staging leaves `abstractcs` alone. -/
theorem State.afterStaging_shadow_abstractcs (s : State) (v k : Word) (rest : List Answer) :
    (s.afterStaging v k rest).shadow .abstractcs = s.shadow .abstractcs :=
  RegFile.get_set_ne (r := .data 0) (q := .abstractcs) s.sh k (by decide)

/-- From a clean shadow an access that stages a value is, after the staging, the access that stages none. -/
theorem accessReg_staged_eq_unstaged (hclean : cleanCommand (s.shadow .abstractcs) = true)
    (hs : s.answers = .ok k :: rest) (write : Bool) (regno : BitVec 16) (v : Word) :
    accessReg write regno (some v) s = accessReg write regno none (s.afterStaging v k rest) := by
  have hclean' : cleanCommand ((s.afterStaging v k rest).shadow .abstractcs) = true := by
    rwa [State.afterStaging_shadow_abstractcs]
  rw [accessReg_staged (prepareCommand_clean hclean) _ _ _ hs, accessReg_unstaged (prepareCommand_clean hclean')]

/-- An operation and the row of its command word are the same access but for the value staged (R141, log 5). -/
theorem exec_of_commandForm {staged : Option Word} (h : commandForm? i = some (c, staged)) :
    ∃ write regno, ∀ s, exec i s = .next (accessReg write regno staged s) ∧
      exec c s = .next (accessReg write regno none s) := by
  cases i with
  | readGpr | writeGpr | readFpr | writeFpr | readCsr | writeCsr =>
    cases h
    exact ⟨_, _, fun s => ⟨rfl, rfl⟩⟩
  | _ => cases h

end Prepared

/-! ### The polling loop, by what its reads answered (R201) -/

/-- The state after one turn of the loop, its read answered with `x`. -/
def State.afterTurn (s : State) (r : RegId) (x : Word) : State := { s with
  sh := s.sh.set r x
  answers := s.answers.tail
  pollCount := s.pollCount + 1
  events := s.events ++ [fetched r x] }

theorem pollLoop_succ_of_ok {x : Word} (h : s.answerTo (.read r.addr) = .ok x) (cond : Word → Bool) (n : Nat) :
    pollLoop r cond (n + 1) s =
      if cond x then .go true (s.afterTurn r x) else pollLoop r cond n (s.afterTurn r x) := by
  rw [pollLoop, rd_of_ok h]
  simp [Res.andThen, State.setPollCount, State.shadow, State.afterTurn]

theorem pollLoop_succ_of_err {e : Nat} (h : s.answerTo (.read r.addr) = .err e) (cond : Word → Bool) (n : Nat) :
    ∃ u, pollLoop r cond (n + 1) s = .stop (.transportError e) u := by
  rw [pollLoop, rd_of_err h]
  exact ⟨_, rfl⟩

/-- The loop with `n` reads left went from `s` to `t` by reads of `r` that answered `ws`, and ended as `ready`
says. -/
structure LoopRead (r : RegId) (cond : Word → Bool) (n : Nat) (s t : State) (ready : Bool) (ws : List Word) :
    Prop where
  events : t.events = s.events ++ polled r ws
  pollCount : t.pollCount = s.pollCount + BitVec.ofNat 32 ws.length
  bound : ws.length ≤ n
  sh : t.sh = s.sh.setLast r ws
  satisfied : ready = true → ∃ init w, ws = init ++ [w] ∧ (∀ x ∈ init, cond x = false) ∧ cond w = true
  expired : ready = false → ws.length = n ∧ ∀ x ∈ ws, cond x = false

variable {cond : Word → Bool} {n : Nat} {ready : Bool}

theorem LoopRead.zero (r : RegId) (cond : Word → Bool) (s : State) : LoopRead r cond 0 s s false [] where
  events := by simp
  pollCount := by simp
  bound := Nat.le_refl 0
  sh := rfl
  satisfied := nofun
  expired _ := ⟨rfl, by simp⟩

/-- A turn whose read satisfies the condition is the last. -/
theorem LoopRead.last {x : Word} (hx : cond x = true) (n : Nat) (s : State) :
    LoopRead r cond (n + 1) s (s.afterTurn r x) true [x] where
  events := rfl
  pollCount := rfl
  bound := Nat.le_add_left 1 n
  sh := rfl
  satisfied _ := ⟨[], x, rfl, by simp, hx⟩
  expired := nofun

/-- A turn whose read does not satisfy the condition comes before the rest of the loop. -/
theorem LoopRead.turn {x : Word} {ws : List Word} (hx : cond x = false)
    (h : LoopRead r cond n (s.afterTurn r x) t ready ws) : LoopRead r cond (n + 1) s t ready (x :: ws) where
  events := by rw [h.events, polled_cons]; exact List.append_assoc _ [_] _
  pollCount := by
    rw [h.pollCount, List.length_cons, Nat.add_comm ws.length 1, BitVec.ofNat_add, ← BitVec.add_assoc]
    rfl
  bound := Nat.succ_le_succ h.bound
  sh := h.sh.trans (RegFile.setLast_set _ x ws)
  satisfied hr := by
    obtain ⟨init, w, rfl, hinit, hw⟩ := h.satisfied hr
    exact ⟨x :: init, w, rfl, List.forall_mem_cons.mpr ⟨hx, hinit⟩, hw⟩
  expired hr := by
    obtain ⟨hlen, hws⟩ := h.expired hr
    exact ⟨congrArg (· + 1) hlen, List.forall_mem_cons.mpr ⟨hx, hws⟩⟩

/-- A loop that no transport error ends is a run of reads, up to the first that satisfies the condition. -/
theorem pollLoop_go (n : Nat) :
    ∀ s : State, pollLoop r cond n s = .go ready t → ∃ ws, LoopRead r cond n s t ready ws := by
  induction n with
  | zero =>
    rintro s ⟨⟩
    exact ⟨[], LoopRead.zero r cond _⟩
  | succ n ih =>
    intro s h
    cases ha : s.answerTo (.read r.addr) with
    | err e =>
      obtain ⟨u, hstop⟩ := pollLoop_succ_of_err ha cond n
      cases hstop.symm.trans h
    | ok x =>
      rw [pollLoop_succ_of_ok ha] at h
      split at h
      next hx =>
        cases h
        exact ⟨[x], LoopRead.last hx n s⟩
      next hx =>
        obtain ⟨ws, hws⟩ := ih _ h
        exact ⟨x :: ws, hws.turn (Bool.eq_false_iff.mpr hx)⟩

/-- A counter that starts at 0 and is bounded by a word holds the number of reads (R30). -/
theorem LoopRead.pollCount_toNat {limit : Word} {ws : List Word} (h : LoopRead r cond limit.toNat s t ready ws)
    (hs : s.pollCount = 0) : t.pollCount.toNat = ws.length := by
  have hlt : ws.length < 2 ^ 32 := Nat.lt_of_le_of_lt h.bound limit.isLt
  simpa [h.pollCount, hs] using hlt

/-! ### The values of an engine state register (R216, R264) -/

/-- From `s` to `t` the state register of the engine took these values in turn. -/
def EngineTook (en : Engine) (tr : List EngineState) (s t : State) : Prop :=
  ∃ es, t.events = s.events ++ es ∧ engineTrace en es = tr

/-- From `s` to `t` the engine went as the tables say, and its register keeps the last value. -/
def LegalRun (en : Engine) (s t : State) : Prop :=
  ∃ es, t.events = s.events ++ es ∧ legalEngineRun (engineTrace en es) = true ∧
    (engineTrace en es).getLast? = some (t.engineState en)

/-- The part goes on only with the engine polling; it ends the operation before anything was issued or after. -/
def Res.IssuesAndPolls {α : Type} (en : Engine) (s : State) (x : Res α) : Prop :=
  x.Ends (EngineTook en [.issued, .polling] s)
    fun t => EngineTook en [] s t ∨ EngineTook en [.issued, .polling] s t

variable {en : Engine} {tr : List EngineState}

theorem EngineTook.refl (en : Engine) (s : State) : EngineTook en [] s s := ⟨[], by simp, rfl⟩

theorem EngineTook.setEngine (h : EngineTook en tr s t) (st : EngineState) :
    EngineTook en (tr ++ [st]) s (t.setEngine en st) := by
  obtain ⟨es, hes, rfl⟩ := h
  exact ⟨es ++ [.engine en st], by rw [State.setEngine_events, hes, List.append_assoc], by simp⟩

/-- A part that writes no engine state register. -/
theorem Res.Silent.engineTook {α : Type} {x : Res α} (hx : x.Silent t) (h : EngineTook en tr s t) :
    x.Ends (EngineTook en tr s) (EngineTook en tr s) := by
  obtain ⟨es, hes, rfl⟩ := h
  have hend : ∀ u fs, u.events = t.events ++ fs → (∀ e st, Event.engine e st ∉ fs) →
      EngineTook en (engineTrace en es) s u := by
    intro u fs hfs hsilent
    have hnone : engineTrace en fs = [] := by
      refine List.filterMap_eq_nil_iff.mpr fun e he => ?_
      cases e with
      | engine g st => exact absurd he (hsilent g st)
      | cycle | transportReset | warning | response => rfl
    exact ⟨es ++ fs, by rw [hfs, hes, List.append_assoc], by rw [engineTrace_append, hnone, List.append_nil]⟩
  cases x with
  | go a u => obtain ⟨fs, hfs, hsilent⟩ := hx; exact hend u fs hfs hsilent
  | stop y u => obtain ⟨fs, hfs, hsilent⟩ := hx; exact hend u fs hfs hsilent

/-- A silent part before the engine has issued anything. -/
theorem Res.Silent.andThen_issuesAndPolls {α β : Type} {x : Res α} {f : α → State → Res β} (hx : x.Silent t)
    (h : EngineTook en [] s t) (hf : ∀ a u, EngineTook en [] s u → (f a u).IssuesAndPolls en s) :
    (x.andThen f).IssuesAndPolls en s :=
  ((hx.engineTook h).imp (fun _ => id) fun _ => .inl).andThen hf

/-- The engine issues, then waits (R207, R264). -/
theorem pollOrStop_issuesAndPolls (h : EngineTook en [] s t) (r : RegId) (cond : Word → Bool) :
    (pollOrStop r cond ((t.setEngine en .issued).setEngine en .polling)).IssuesAndPolls en s :=
  ((pollOrStop_silent r cond _).engineTook ((h.setEngine .issued).setEngine .polling)).imp (fun _ => id) fun _ => .inr

theorem issueCommand_issuesAndPolls (h : EngineTook .ac [] s t) (write : Bool) (word : Word) :
    (issueCommand write word t).IssuesAndPolls .ac s :=
  (wr_setShadow_silent .command word t).andThen_issuesAndPolls h fun _ _ hu =>
    (pollOrStop_issuesAndPolls hu .abstractcs notBusy).andThen fun _ v hv =>
      ((completeCommand_silent write v).engineTook hv).imp (fun _ => id) fun _ => .inr

/-- The whole of an abstract command (R216). -/
theorem accessReg_issuesAndPolls (write : Bool) (regno : BitVec 16) (staged : Option Word) (s : State) :
    Res.IssuesAndPolls .ac s ((prepareCommand s).andThen fun _ s1 => (stageValue staged s1).andThen fun _ s2 =>
      issueCommand write (commandWord write regno) s2) :=
  (prepareCommand_silent s).andThen_issuesAndPolls (.refl .ac s) fun _ t ht =>
    (stageValue_silent staged t).andThen_issuesAndPolls ht fun _ _ hu => issueCommand_issuesAndPolls hu write _

/-- The whole of a halt or resume (R264). -/
theorem requestSteps_issuesAndPolls (h : BitVec 20) (request clear : Field) (cond : Word → Bool) (s : State) :
    (requestSteps h request clear cond s).IssuesAndPolls .hc s :=
  (selectSteps_silent h s).andThen_issuesAndPolls (.refl .hc s) fun _ t ht =>
    (wr_setShadow_silent .dmcontrol _ t).andThen_issuesAndPolls ht fun _ _ hu =>
      pollOrStop_issuesAndPolls hu .dmstatus cond

/-- The engine is brought to its end and the operation answers. -/
theorem EngineTook.legalRun {st : EngineState} (h : EngineTook en tr s t)
    (hlegal : legalEngineRun (tr ++ [st]) = true) (x : Response) (d : List Byte) :
    LegalRun en s ((t.setEngine en st).respond x d) := by
  obtain ⟨es, hes, htrace⟩ := h.setEngine st
  have htrace' : engineTrace en (es ++ [.response x d]) = tr ++ [st] := by
    rw [engineTrace_append, htrace, engineTrace_response, engineTrace_nil, List.append_nil]
  refine ⟨es ++ [.response x d], by simp [hes], by rw [htrace', hlegal], ?_⟩
  rw [htrace', List.getLast?_concat]
  simp

theorem commandEnd_legalRun {x : Res Word} (h : x.IssuesAndPolls .ac s) : LegalRun .ac s (commandEnd x) := by
  cases x with
  | go v t => exact EngineTook.legalRun h rfl _ _
  | stop y t => exact h.elim (·.legalRun rfl _ _) (·.legalRun rfl _ _)

theorem hartEnd_legalRun {x : Res Unit} (h : x.IssuesAndPolls .hc s) : LegalRun .hc s (hartEnd x) := by
  cases x with
  | go _ t => exact EngineTook.legalRun h rfl _ _
  | stop y t => exact h.elim (·.legalRun rfl _ _) (·.legalRun rfl _ _)

/-- Every operation of the abstract command engine or of hart control runs its engine by the tables. -/
theorem exec_legalRun (h : exec i s = .next t) (hi : i.engine? = some en) (hen : en ≠ .sb) : LegalRun en s t := by
  cases i with
  | haltHart | resumeHart =>
    cases hi; cases h
    exact hartEnd_legalRun (requestSteps_issuesAndPolls _ _ _ _ s)
  | readGpr | writeGpr | readFpr | writeFpr | readCsr | writeCsr
  | cmdReadGpr | cmdWriteGpr | cmdReadFpr | cmdWriteFpr | cmdReadCsr | cmdWriteCsr =>
    cases hi; cases h
    exact commandEnd_legalRun (accessReg_issuesAndPolls _ _ _ s)
  | readMem | writeMem => cases hi; exact absurd rfl hen
  | _ => cases hi

end Sys2Proof.Machine

namespace Sys2Proof.Certificates

open Machine

/-- Settles O33: a read access stages nothing. -/
theorem registerReadsComplete : Obligations.RegisterReadsComplete := fun _ hclean =>
  ⟨fun _ => readAccessCompletes_of_clean rfl rfl hclean, fun _ => readAccessCompletes_of_clean rfl rfl hclean,
    fun _ => readAccessCompletes_of_clean rfl rfl hclean⟩

/-- Settles O34: a write access runs its command once its value is staged. -/
theorem registerWritesComplete : Obligations.RegisterWritesComplete := fun _ hclean =>
  ⟨fun _ _ => stagedAccessCompletes_of_clean rfl rfl hclean, fun _ _ => stagedAccessCompletes_of_clean rfl rfl hclean,
    fun _ _ => stagedAccessCompletes_of_clean rfl rfl hclean⟩

/-- Settles O37: step 1 does nothing, so the completion wait is that of the command alone. -/
theorem commandsFail : Obligations.CommandsFail := by
  intro i isRead word s hi hclean
  have hprepared := prepareCommand_clean hclean
  refine ⟨fun hstaged => ?_, fun v k rest hstaged hs => ?_⟩
  · obtain ⟨-, hfails⟩ := commandRunsFrom_of_prepared hi hprepared hstaged
    exact hfails
  · obtain ⟨-, hfails⟩ := commandRunsFrom_of_prepared_staged hi hprepared hstaged hs
    exact hfails

/-- Settles O38: the wait is the first half of step 1. -/
theorem staleBusyIsWaitedOut : Obligations.StaleBusyIsWaitedOut := by
  intro i isRead word s ws rest hi hstale hbusy
  obtain ⟨regno, -, hexec⟩ := exec_of_commandWord hi
  refine ⟨fun w hs hw hlimit => ?_, fun hs hlimit => ?_⟩
  · rw [hexec, hexec, accessReg_congr (prepareCommand_busy hstale hbusy hs hw hlimit)]
  · rw [hexec, accessReg_of_stop (prepareCommand_expired hstale hbusy hs hlimit)]
    simp [State.setEngine, State.respond, State.record, Stop.response]

/-- Settles O39: the clear is the second half of step 1. -/
theorem staleCmderrIsCleared : Obligations.StaleCmderrIsCleared := by
  intro i isRead word s k w rest hi hbusy hstale hs
  have hprepared := prepareCommand_stale hbusy hstale hs
  exact ⟨fun hstaged => commandRunsFrom_of_prepared hi hprepared hstaged,
    fun v k' rest' hstaged hrest => commandRunsFrom_of_prepared_staged hi hprepared hstaged hrest⟩

/-- Settles O41: the events of an operation are those its run speaks of, since the record only grows. -/
theorem engineTransitions : Obligations.EngineTransitions := by
  intro i en s t es hi hen h hes
  obtain ⟨fs, hfs, hlegal, hlast⟩ := exec_legalRun h hi hen
  obtain rfl : fs = es := List.append_cancel_left (hfs.symm.trans hes)
  exact ⟨hlegal, hlast⟩

/-- Settles O53: a poll is the loop with the counter at 0 and `POLL_LIMIT` reads left. -/
theorem pollingIsBounded : Obligations.PollingIsBounded := by
  intro r cond s t ready h
  obtain ⟨ws, hws⟩ := pollLoop_go s.pollLimit.toNat (s.setPollCount 0) h
  exact ⟨ws, hws.events, hws.pollCount_toNat rfl, hws.bound, hws.sh, hws.satisfied, hws.expired⟩

/-- Settles O36: the operation and its row differ in the staging alone. -/
theorem cleanOperationIsItsCommand : Obligations.CleanOperationIsItsCommand := by
  intro i c s
  refine ⟨fun h => ?_, fun v k rest h hclean hs => ?_⟩
  · obtain ⟨write, regno, hexec⟩ := exec_of_commandForm h
    obtain ⟨hi, hc⟩ := hexec s
    rw [hi, hc]
  · obtain ⟨write, regno, hexec⟩ := exec_of_commandForm h
    obtain ⟨hi, -⟩ := hexec s
    obtain ⟨-, hc⟩ := hexec (s.afterStaging v k rest)
    rw [hi, hc, accessReg_staged_eq_unstaged hclean hs]

end Sys2Proof.Certificates
end

section
/-!
Units and bytes of a memory transfer (42_system_bus.md R231, R232, 20_memory.md R108): the unit size divides address and
length, and a packed unit bit by bit. Then the end of a transfer (R240, R242), which for no byte is all there is (R243).
-/

namespace Sys2Proof.Machine

variable {a len : Word} {u : Nat}

/-! ### Unit selection (R231) -/

theorem unitSize_dvd (a len : Word) : unitSize a len ∣ a.toNat ∧ unitSize a len ∣ len.toNat := by
  unfold unitSize
  split
  next h => exact ⟨Nat.dvd_of_mod_eq_zero h.1, Nat.dvd_of_mod_eq_zero h.2⟩
  next =>
    split
    next h => exact ⟨Nat.dvd_of_mod_eq_zero h.1, Nat.dvd_of_mod_eq_zero h.2⟩
    next => exact ⟨one_dvd _, one_dvd _⟩

/-- No larger unit divides both: each larger size was tried first. -/
theorem le_unitSize_of_dvd (hu : u ∈ [1, 2, 4]) (ha : u ∣ a.toNat) (hlen : u ∣ len.toNat) : u ≤ unitSize a len := by
  rw [Nat.dvd_iff_mod_eq_zero] at ha hlen
  simp only [List.mem_cons, List.not_mem_nil, or_false] at hu
  unfold unitSize
  split
  next => omega
  next h4 =>
    split
    next => rcases hu with rfl | rfl | rfl <;> omega
    next h2 => rcases hu with rfl | rfl | rfl <;> omega

/-- The `sbaccess` code is the logarithm of the unit size (R231). -/
theorem two_pow_unitCode (hu : u = 1 ∨ u = 2 ∨ u = 4) : 2 ^ (unitCode u).toNat = u := by
  rcases hu with rfl | rfl | rfl <;> rfl

/-- Only a transfer of no byte has no unit (R243). -/
theorem unitCount_eq_zero : unitCount a len = 0 ↔ len = 0 := by
  have hmul := unitCount_mul a len
  constructor
  · intro h
    rw [h, Nat.zero_mul] at hmul
    exact BitVec.eq_of_toNat_eq hmul.symm
  · rintro rfl
    exact Nat.zero_div _

/-! ### Packing (R232) -/

/-- The bits of bytes put together from the lowest up (R108). -/
theorem getLsbD_foldl_bytes (f : Nat → Byte) (hu : u ≤ 4) (j : Nat) :
    ((List.range u).foldl (fun (x : Word) k => x ||| ((f k).setWidth 32 <<< (8 * k))) 0).getLsbD j =
      (decide (j < 8 * u) && (f (j / 8)).getLsbD (j % 8)) := by
  induction u with
  | zero => simp
  | succ u ih =>
    rw [List.range_succ, List.foldl_append, List.foldl_cons, List.foldl_nil, BitVec.getLsbD_or, ih (by omega),
      BitVec.getLsbD_shiftLeft, BitVec.getLsbD_setWidth]
    by_cases hbelow : j < 8 * u
    · simp [hbelow, show j < 8 * (u + 1) by omega]
    · by_cases hin : j < 8 * (u + 1)
      · have hbyte : j / 8 = u := by omega
        have hbit : j - 8 * u = j % 8 := by omega
        simp [hbelow, hin, hbyte, hbit, show j < 32 by omega, show j % 8 < 32 by omega]
      · have hout : (f u).getLsbD (j - 8 * u) = false := BitVec.getLsbD_of_ge _ _ (by omega)
        simp [hbelow, hin, hout]

theorem getLsbD_packUnit (buf : Nat → Byte) (i : Nat) (hu : u ≤ 4) (j : Nat) :
    (packUnit buf i u).getLsbD j = (decide (j < 8 * u) && (buf (i * u + j / 8)).getLsbD (j % 8)) :=
  getLsbD_foldl_bytes (fun k => buf (i * u + k)) hu j

/-- Unpacking undoes packing (R232). -/
theorem unpackUnit_packUnit (buf : Nat → Byte) (i : Nat) (hu : u ≤ 4) :
    unpackUnit (packUnit buf i u) u = (List.range u).map fun j => buf (i * u + j) := by
  refine List.map_congr_left fun j hj => BitVec.eq_of_getLsbD_eq fun k hk => ?_
  have hj : j < u := List.mem_range.mp hj
  have hbyte : (8 * j + k) / 8 = j := by omega
  have hbit : (8 * j + k) % 8 = k := by omega
  rw [BitVec.getLsbD_setWidth, BitVec.getLsbD_ushiftRight, getLsbD_packUnit buf i hu, hbyte, hbit]
  simp [hk, show 8 * j + k < 8 * u by omega]

/-! ### The end of a transfer (R240, R242) -/

theorem transferEnd_go (s : State) : transferEnd (.go () s) = { s with
    sbState := .done
    events := s.events ++ [.engine .sb .done, .response (Response.okWith 0 s.unitIdx) s.rdata] } := by
  simp [transferEnd, State.setEngine, State.respond, State.record]

theorem transferEnd_stop (x : Stop) (s : State) : transferEnd (.stop x s) = { s with
    sbState := .failed
    events := s.events ++ [.engine .sb .failed, .response (x.response s.unitIdx) s.rdata] } := by
  simp [transferEnd, State.setEngine, State.respond, State.record]

end Sys2Proof.Machine

namespace Sys2Proof.Certificates

open Machine

/-- Settles O42. -/
theorem unitSelection : Obligations.UnitSelection := by
  intro a len
  obtain ⟨hda, hdlen⟩ := unitSize_dvd a len
  refine ⟨?_, hda, hdlen, fun u hu ha hlen => le_unitSize_of_dvd hu ha hlen, unitCount_mul a len,
    two_pow_unitCode (unitSize_mem a len)⟩
  simpa using unitSize_mem a len

/-- Settles O43. -/
theorem packingIsLittleEndian : Obligations.PackingIsLittleEndian := fun buf i _ hu =>
  ⟨getLsbD_packUnit buf i hu, unpackUnit_packUnit buf i hu⟩

/-- Settles O44: with no unit there are no micro-steps between the start and the end (R243). -/
theorem zeroLengthTransfers : Obligations.ZeroLengthTransfers := by
  intro a s
  have hnone : unitCount a 0 = 0 := unitCount_eq_zero.mpr rfl
  refine ⟨(?_ : execReadMem a 0 s = _), (?_ : execWriteMem a 0 s = _)⟩
  · rw [execReadMem, if_pos hnone, transferEnd_go]
    rfl
  · rw [execWriteMem, if_pos hnone, transferEnd_go]
    rfl

end Sys2Proof.Certificates
end

section
/-!
Memory transfers on a script of transport answers (42_system_bus.md R233 to R238, R245): a transfer is its preconditions,
its start and its units; from the state the start leaves, the units complete or stop at a failed wait.
-/

namespace Sys2Proof.Machine

variable {i : Instr} {a len k1 k2 k3 : Word} {s t : State} {u n : Nat} {isRead : Bool} {x : Stop} {ws : List Word}
  {rest : List Answer}

/-! ### Shadows written in turn -/

/-- `sbcs` is written between the other registers of a transfer; here it comes first. -/
theorem RegFile.set_sbaddress_sbcs (f : RegFile Word) (v w : Word) :
    (f.set (.sbaddress 0) v).set .sbcs w = (f.set .sbcs w).set (.sbaddress 0) v :=
  f.set_comm v w (by decide)

theorem RegFile.set_sbdata_sbcs (f : RegFile Word) (v w : Word) :
    (f.set (.sbdata 0) v).set .sbcs w = (f.set .sbcs w).set (.sbdata 0) v :=
  f.set_comm v w (by decide)

theorem RegFile.setLast_of_getLast? {r : RegId} {w : Word} (h : ws.getLast? = some w) (f : RegFile Word) :
    f.setLast r ws = f.set r w := by
  rw [RegFile.setLast, h]

/-! ### The parts of a transfer -/

/-- What a transfer does once its address is written (R237, R238). -/
def unitSteps (isRead : Bool) (u n : Nat) (s : State) : Res Unit :=
  match isRead with
  | true => (readUnits u n n s).andThen fun _ t => .go () (t.setUnitIdx (BitVec.ofNat 32 n))
  | false => (waitBus s).andThen fun _ t =>
      (writeUnits u n n t).andThen fun _ t' => .go () (t'.setUnitIdx (BitVec.ofNat 32 n))

/-- The micro-steps of a transfer of some unit, in either direction (R230). -/
def transferSteps (isRead : Bool) (a : Word) (u n : Nat) (s : State) : Res Unit :=
  (prepareTransfer s).andThen fun _ t =>
    (startTransfer a (unitCode u) (decide (1 < n)) isRead t).andThen fun _ t' => unitSteps isRead u n t'

theorem exec_readMem_of_ne (h : unitCount a len ≠ 0) (s : State) : exec (.readMem a len) s =
    .next (transferEnd (transferSteps true a (unitSize a len) (unitCount a len) (beginTransfer s))) := by
  change execReadMem a len s = _
  rw [execReadMem, if_neg h]
  rfl

theorem exec_writeMem_of_ne (h : unitCount a len ≠ 0) (s : State) : exec (.writeMem a len) s =
    .next (transferEnd (transferSteps false a (unitSize a len) (unitCount a len) (beginTransfer s))) := by
  change execWriteMem a len s = _
  rw [execWriteMem, if_neg h]
  rfl

theorem exec_transfer (hi : i ∈ [Instr.readMem a len, .writeMem a len]) (h : unitCount a len ≠ 0) (s : State) :
    exec i s = .next (transferEnd (transferSteps (decide (i = .readMem a len)) a (unitSize a len)
      (unitCount a len) (beginTransfer s))) := by
  simp only [List.mem_cons, List.not_mem_nil, or_false] at hi
  rcases hi with rfl | rfl
  · simpa using exec_readMem_of_ne h s
  · simpa using exec_writeMem_of_ne h s

/-- What the preconditions leave is all that the rest of a transfer depends on (R233). -/
theorem transferSteps_congr (h : prepareTransfer s = prepareTransfer t) :
    transferSteps isRead a u n s = transferSteps isRead a u n t := by
  rw [transferSteps, transferSteps, h]

theorem transferSteps_of_stop (h : prepareTransfer s = .stop x t) : transferSteps isRead a u n s = .stop x t := by
  rw [transferSteps, h, Res.andThen]

/-- The state the configuration and the address write of a transfer leave (R234, R235). -/
def State.afterStart (s : State) (a : Word) (u : Nat) (several isRead : Bool) (k1 k2 : Word)
    (rest : List Answer) : State := { s with
  sh := (s.sh.set .sbcs k1).set (.sbaddress 0) k2
  sbState := .issued
  unitIdx := 0
  rdata := []
  answers := rest
  events := s.events ++ startEvents (transferWord u several isRead (s.shadow .sbcs)) a k1 k2 }

/-- Past the preconditions the transfer starts, whatever they left in `sbcs` (R234, R235). -/
theorem transferSteps_of_prepared (h : prepareTransfer s = .go () (beginTransfer t)) (hu : u = 1 ∨ u = 2 ∨ u = 4)
    (ht : t.answers = .ok k1 :: .ok k2 :: rest) :
    transferSteps isRead a u n s = unitSteps isRead u n (t.afterStart a u (decide (1 < n)) isRead k1 k2 rest) := by
  rw [transferSteps, h, Res.andThen, startTransfer_scripted (s := beginTransfer t) a hu _ _ ht]
  rfl

theorem transferSteps_of_clean (hclean : cleanBus (s.shadow .sbcs) = true) (hu : u = 1 ∨ u = 2 ∨ u = 4)
    (hs : s.answers = .ok k1 :: .ok k2 :: rest) : transferSteps isRead a u n (beginTransfer s) =
      unitSteps isRead u n (s.afterStart a u (decide (1 < n)) isRead k1 k2 rest) :=
  transferSteps_of_prepared (prepareTransfer_clean (s := beginTransfer s) hclean) hu hs

/-- The state a write has come to when its first wait ended well (R238). -/
def State.afterFirstWait (s : State) (a : Word) (u : Nat) (several : Bool) (k1 k2 : Word) (w : Wait)
    (rest : List Answer) : State := { s.afterStart a u several false k1 k2 rest with
  sh := ((s.sh.set .sbcs k1).set (.sbaddress 0) k2).set .sbcs w.ready
  sbState := .polling
  pollCount := BitVec.ofNat 32 w.words.length
  events := s.events ++ startEvents (transferWord u several false (s.shadow .sbcs)) a k1 k2 ++ waitEvents w.words }

/-- From a clean shadow a write comes to its units by its start and its first wait. -/
theorem transferSteps_write_of_clean {w : Wait} (hclean : cleanBus (s.shadow .sbcs) = true)
    (hu : u = 1 ∨ u = 2 ∨ u = 4) (hw : w.good s.pollLimit.toNat)
    (hs : s.answers = .ok k1 :: .ok k2 :: (okAll w.words ++ rest)) : transferSteps false a u n (beginTransfer s) =
      (writeUnits u n n (s.afterFirstWait a u (decide (1 < n)) k1 k2 w rest)).andThen fun _ t =>
        .go () (t.setUnitIdx (BitVec.ofNat 32 n)) := by
  have hwait := waitBus_good (s := s.afterStart a u (decide (1 < n)) false k1 k2 _) (rest := rest) hw rfl
  rw [transferSteps_of_clean hclean hu hs, unitSteps, hwait]
  rfl

theorem unitSteps_runs (isRead : Bool) (u n : Nat) (s : State) :
    (unitSteps isRead u n s).Runs busRegs (some .sb) true s := by
  cases isRead with
  | true => exact (readUnits_runs u n n s).andThen fun _ t => setUnitIdx_runs _
  | false =>
    exact (waitBus_runs (by decide)).andThen fun _ t => (writeUnits_runs u n n t).andThen fun _ _ => setUnitIdx_runs _

/-- The end of a transfer records what its steps did, then itself. -/
theorem Res.Runs.transferEnd_events {p : RegId → Bool} {en : Option Engine} {mv : Bool} {y : Res Unit}
    (h : y.Runs p en mv s) : ∃ es, (transferEnd y).events = s.events ++ es := by
  cases y with
  | go b t =>
    obtain ⟨es, hran, -⟩ := h
    exact ⟨_, by rw [transferEnd_go, hran.events, List.append_assoc]⟩
  | stop y t =>
    obtain ⟨es, hran, -⟩ := h
    exact ⟨_, by rw [transferEnd_stop, hran.events, List.append_assoc]⟩

/-! ### The units of a read (R237, R245) -/

/-- Every wait ends well. -/
theorem readUnits_completes (u : Nat) {first : List UnitRun} {last : UnitRun} (hn : n = first.length + 1)
    (hgood : ∀ r ∈ first ++ [last], r.wait.good s.pollLimit.toNat)
    (hs : s.answers = first.flatMap UnitRun.readAnswers ++ (last.lastReadAnswers (decide (1 < n)) k3 ++ rest)) :
    readUnits u n n s = .go () { s with
      sh := (s.sh.set .sbcs (if decide (1 < n) then k3 else last.wait.ready)).set (.sbdata 0) last.word
      sbState := .issued
      pollCount := BitVec.ofNat 32 last.wait.words.length
      unitIdx := BitVec.ofNat 32 first.length
      rdata := s.rdata ++ delivered u ((first ++ [last]).map UnitRun.word)
      answers := rest
      events := s.events ++ (first.flatMap UnitRun.readEvents ++ last.lastReadEvents (decide (1 < n)) k3) } := by
  obtain ⟨t, hmid, ht, v, w, hsh⟩ := readUnits_mid u n first s 1 _ (by omega) (by omega)
    (fun r hr => hgood r (by simp [hr])) hs
  have hlimit : t.pollLimit = s.pollLimit := by rw [ht]
  have hlast := readUnit_last u (n := n) (i := n - (0 + 1)) (s := t) (rest := rest) (k3 := k3) (by omega)
    (hlimit ▸ hgood last (by simp)) (by rw [ht])
  rw [← hn] at hmid
  rw [hmid, readUnits, hlast, Res.andThen, readUnits, hsh, ht]
  simp [delivered, hn, RegFile.set_sbdata_sbcs]

/-- A wait fails, before the last unit or at it. -/
theorem readUnits_stops (u : Nat) {units : List UnitRun} (hn : units.length < n)
    (hgood : ∀ r ∈ units, r.wait.good s.pollLimit.toNat) (hfails : busFails s.pollLimit.toNat ws x)
    (hs : s.answers = units.flatMap UnitRun.readAnswers ++ (okAll ws ++ rest)) :
    ∃ f : RegFile Word, readUnits u n n s = .stop x { s with
      sh := f.setLast .sbcs ws
      sbState := .polling
      pollCount := BitVec.ofNat 32 ws.length
      unitIdx := BitVec.ofNat 32 units.length
      rdata := s.rdata ++ delivered u (units.map UnitRun.word)
      answers := rest
      events := s.events ++ (units.flatMap UnitRun.readEvents ++ waitEvents ws) } := by
  obtain ⟨k, rfl⟩ := Nat.exists_eq_add_of_lt hn
  obtain ⟨t, hmid, ht, -⟩ := readUnits_mid u _ units s (k + 1) _ (Nat.le_refl _) (by omega) hgood hs
  have hlimit : t.pollLimit = s.pollLimit := by rw [ht]
  have hindex : units.length + (k + 1) - (k + 1) = units.length := by omega
  have hwait := waitBus_fails (s := t.setUnitIdx (BitVec.ofNat 32 units.length)) (rest := rest)
    (by rw [State.setUnitIdx_pollLimit, hlimit]; exact hfails) (by rw [State.setUnitIdx_answers, ht])
  refine ⟨t.sh, ?_⟩
  rw [Nat.add_assoc, hmid, readUnits, readUnit, hindex, hwait, Res.andThen, Res.andThen, ht]
  simp [State.setUnitIdx]

/-! ### The units of a write (R238) -/

/-- Every wait ends well. -/
theorem writeUnits_completes (u : Nat) {units : List UnitRun} {last : UnitRun} (hn : n = units.length + 1)
    (hdata : n * u ≤ s.wdata.length) (hgood : ∀ r ∈ units ++ [last], r.wait.good s.pollLimit.toNat)
    (hs : s.answers = (units ++ [last]).flatMap UnitRun.writeAnswers ++ rest) :
    writeUnits u n n s = .go () { s with
      sh := (s.sh.set (.sbdata 0) last.word).set .sbcs last.wait.ready
      sbState := .polling
      pollCount := BitVec.ofNat 32 last.wait.words.length
      unitIdx := BitVec.ofNat 32 units.length
      answers := rest
      events := s.events ++ writeEvents s.wdata u 0 (units ++ [last]) } := by
  obtain ⟨t, hmid, ht, v, w, hsh⟩ := writeUnits_mid u n units s 1 0 (last.writeAnswers ++ rest) (by omega)
    (fun r hr => hgood r (by simp [hr])) hdata (by simp [hs])
  have hlimit : t.pollLimit = s.pollLimit := by rw [ht]
  have hindex : n - (0 + 1) = units.length := by omega
  have hlast := writeUnit_good u units.length (s := t) (rest := rest)
    (by rw [ht]; simpa [hn, Nat.add_mul] using hdata) (hlimit ▸ hgood last (by simp)) (by rw [ht])
  rw [← hn] at hmid
  rw [hmid, writeUnits, hindex, hlast, Res.andThen, writeUnits, hsh, ht]
  simp [writeEvents_append, RegFile.set_sbdata_sbcs]

/-- The wait after a unit was sent fails. -/
theorem writeUnits_stops (u : Nat) {units : List UnitRun} {k : Word} (hn : units.length < n)
    (hdata : n * u ≤ s.wdata.length) (hgood : ∀ r ∈ units, r.wait.good s.pollLimit.toNat)
    (hfails : busFails s.pollLimit.toNat ws x)
    (hs : s.answers = units.flatMap UnitRun.writeAnswers ++ (.ok k :: (okAll ws ++ rest))) :
    ∃ f : RegFile Word, writeUnits u n n s = .stop x { s with
      sh := f.setLast .sbcs ws
      sbState := .polling
      pollCount := BitVec.ofNat 32 ws.length
      unitIdx := BitVec.ofNat 32 units.length
      answers := rest
      events := s.events ++ (writeEvents s.wdata u 0 units ++
        wrote (.sbdata 0) (packUnit (fun j => s.wdata.getD j 0) units.length u) k ::
          .engine .sb .issued :: waitEvents ws) } := by
  obtain ⟨m, rfl⟩ := Nat.exists_eq_add_of_lt hn
  obtain ⟨t, hmid, ht, -⟩ := writeUnits_mid u _ units s (m + 1) 0 _ (Nat.zero_add _) hgood hdata hs
  have hlimit : t.pollLimit = s.pollLimit := by rw [ht]
  have hindex : units.length + (m + 1) - (m + 1) = units.length := by omega
  have hunit : units.length * u + u ≤ t.wdata.length := by
    have hle : (units.length + 1) * u ≤ (units.length + m + 1) * u := Nat.mul_le_mul_right u (by omega)
    rw [Nat.add_mul, Nat.one_mul] at hle
    rw [ht]
    exact hle.trans hdata
  refine ⟨t.sh.set (.sbdata 0) k, ?_⟩
  rw [Nat.add_assoc, hmid, writeUnits, hindex,
    writeUnit_start u _ hunit (k := k) (rest := okAll ws ++ rest) (by rw [ht]),
    waitBus_fails (x := x) (ws := ws) (rest := rest) (by simpa [hlimit] using hfails) rfl, Res.andThen, ht]
  simp

end Sys2Proof.Machine

namespace Sys2Proof.Certificates

open Machine

/-- Settles O45: the units complete from the state the start leaves. -/
theorem readMemCompletes : Obligations.ReadMemCompletes := by
  intro a len s k1 k2 k3 first last rest u several words hclean hn hgood hs
  simp only [List.append_assoc, List.cons_append] at hs
  have hunits := readUnits_completes (k3 := k3) (rest := rest) (s := s.afterStart a u several true k1 k2 _) u hn
    hgood rfl
  rw [exec_readMem_of_ne (by omega), transferSteps_of_clean hclean (unitSize_mem a len) hs, unitSteps, hunits,
    Res.andThen, transferEnd_go]
  simp [State.afterStart, State.setUnitIdx, Response.okWith, RegFile.set_sbaddress_sbcs, words, several]

/-- Settles O46: the first wait, then the units. -/
theorem writeMemCompletes : Obligations.WriteMemCompletes := by
  intro a len s k1 k2 w0 units last rest u several hclean hn hdata hgood0 hgood hs
  simp only [List.append_assoc, List.cons_append] at hs
  have hlen : unitCount a len * u ≤ s.wdata.length := (unitCount_mul a len).trans_le hdata
  have hunits := writeUnits_completes (rest := rest) (s := s.afterFirstWait a u several k1 k2 w0 _) u hn hlen
    hgood rfl
  rw [exec_writeMem_of_ne (by omega), transferSteps_write_of_clean hclean (unitSize_mem a len) hgood0 hs, hunits,
    Res.andThen, transferEnd_go]
  simp [State.afterStart, State.afterFirstWait, State.setUnitIdx, Response.okWith, RegFile.set_sbaddress_sbcs,
    RegFile.set_sbdata_sbcs, several]

/-- Settles O47. -/
theorem readMemStops : Obligations.ReadMemStops := by
  intro a len s k1 k2 units ws x rest u several data hclean hn hgood hfails hs
  simp only [List.append_assoc, List.cons_append] at hs
  obtain ⟨f, hunits⟩ := readUnits_stops (s := s.afterStart a u several true k1 k2 _) u hn hgood hfails rfl
  have hexec := exec_readMem_of_ne (a := a) (len := len) (by omega) s
  rw [transferSteps_of_clean hclean (unitSize_mem a len) hs, unitSteps, hunits, Res.andThen, transferEnd_stop]
    at hexec
  obtain ⟨es, hk⟩ := exec_keepsFrame hexec
  refine ⟨_, hexec, rfl, rfl, rfl, rfl, rfl, hk.shadow, fun w hw => ?_, ?_⟩
  · simp [State.shadow, RegFile.setLast_of_getLast? hw]
  · simp [State.afterStart, data]

/-- Settles O48: the first wait fails before any unit is sent, or the wait of a unit does. -/
theorem writeMemStops : Obligations.WriteMemStops := by
  intro a len s k1 k2 ws x rest u several hclean hn hdata hfails
  have hlen : unitCount a len * u ≤ s.wdata.length := (unitCount_mul a len).trans_le hdata
  have hexec := exec_writeMem_of_ne (a := a) (len := len) (by omega) s
  refine ⟨fun hs => ?_, fun w0 units k hgood0 hgood hlt hs => ?_⟩
  · simp only [List.cons_append] at hs
    have hwait := waitBus_fails (rest := rest) (s := s.afterStart a u several false k1 k2 _) hfails rfl
    rw [transferSteps_of_clean hclean (unitSize_mem a len) hs, unitSteps, hwait, Res.andThen, transferEnd_stop]
      at hexec
    exact ⟨_, hexec, rfl, rfl, rfl, by simp [State.afterStart]⟩
  · simp only [List.append_assoc, List.cons_append] at hs
    obtain ⟨f, hunits⟩ := writeUnits_stops (k := k) (rest := rest)
      (s := s.afterFirstWait a u several k1 k2 w0 _) u hlt hlen hgood hfails rfl
    rw [transferSteps_write_of_clean hclean (unitSize_mem a len) hgood0 hs, hunits, Res.andThen, transferEnd_stop]
      at hexec
    exact ⟨_, hexec, rfl, rfl, rfl, by simp [State.afterStart, State.afterFirstWait]⟩

/-- Settles O49: the wait and the clear are the two halves of the preconditions. -/
theorem transferPreconditions : Obligations.TransferPreconditions := by
  intro i a len s hi hlen
  have hexec := exec_transfer hi (mt unitCount_eq_zero.mp hlen)
  refine ⟨fun ws w rest hstale hbusy hw hlimit hs => ?_, fun ws rest hstale hbusy hlimit hs => ?_, ?_⟩
  · rw [hexec, hexec, transferSteps_congr (prepareTransfer_busy (s := beginTransfer s) hstale hbusy hw hlimit hs)]
    rfl
  · rw [hexec, transferSteps_of_stop (prepareTransfer_expired (s := beginTransfer s) hstale hbusy hlimit hs),
      transferEnd_stop]
    simp [beginTransfer, State.setUnitIdx, Stop.response]
  · intro k w rest hidle hsticky hs t
    have hprepared : prepareTransfer (beginTransfer s) = .go () (beginTransfer t) :=
      prepareTransfer_stale (s := beginTransfer s) hidle hsticky hs
    refine ⟨fun hclean => ?_, fun k1 k2 rest' hrest => ?_⟩
    · have hnone : prepareTransfer (beginTransfer t) = .go () (beginTransfer t) :=
        prepareTransfer_clean (by simpa [t, State.shadow] using hclean)
      rw [hexec, hexec, transferSteps_congr (hprepared.trans hnone.symm)]
    · obtain ⟨es, hes⟩ := (unitSteps_runs (decide (i = .readMem a len)) (unitSize a len) (unitCount a len)
        (t.afterStart a (unitSize a len) (decide (1 < unitCount a len)) (decide (i = .readMem a len)) k1 k2
          rest')).transferEnd_events
      refine ⟨_, es, hexec s, ?_⟩
      rw [transferSteps_of_prepared hprepared (unitSize_mem a len) hrest, hes]
      simp [State.afterStart, State.shadow, t]

end Sys2Proof.Certificates
end

section
/-!
What a transfer answers, whatever the transport did (42_system_bus.md R240, R241): the count of its response is that of
the units its steps transferred, and a read delivers the bytes of the words it fetched. So what was written is read back.
-/

namespace Sys2Proof.Machine

variable {a len : Word} {s t : State} {es : List Event} {r : Response} {data : List Byte} {u n : Nat}

/-! ### The answer of a transfer -/

/-- What a transfer records last: its engine at rest and its response (R240, R242). -/
def answerEvents (st : EngineState) (r : Response) (data : List Byte) : List Event :=
  [.engine .sb st, .response r data]

/-- The only response of a transfer is the one its end gives (R136). -/
theorem Ran.answer_eq {p : RegId → Bool} {en : Option Engine} {mv : Bool} {fs : List Event} {st : EngineState}
    {x : Response} {d : List Byte} (h : Ran p en mv s t fs) (hes : t.events ++ answerEvents st x d = s.events ++ es)
    (hr : (r, data) ∈ responsesOf es) : es = fs ++ answerEvents st r data ∧ r = x ∧ data = d := by
  rw [h.events, List.append_assoc] at hes
  obtain rfl := List.append_cancel_left hes
  rw [responsesOf_append, responsesOf_of_within h.log] at hr
  obtain ⟨rfl, rfl⟩ : r = x ∧ data = d := by simpa [answerEvents, Event.response?] using hr
  exact ⟨rfl, rfl, rfl⟩

/-- From `s` to `t` a transfer recorded some events and counted the units that `m` finds in them, as many as `bound`
admits; `C` holds of those events and of the bytes delivered. -/
def UnitsCounted (m : List Event → Nat) (C : List Event → List Byte → Prop) (bound : Nat → Prop) (s t : State) :
    Prop :=
  ∃ fs, t.events = s.events ++ fs ∧ t.unitIdx = BitVec.ofNat 32 (m fs) ∧ bound (m fs) ∧ C fs t.rdata

/-- The answer of a transfer that completes with `n` units or ends before it has so many: `OK` in the first case alone,
the count under either status (R240). -/
theorem Res.Runs.answer {p : RegId → Bool} {en : Option Engine} {mv : Bool} {y : Res Unit} {m : List Event → Nat}
    {C : List Event → List Byte → Prop} (h : y.Runs p en mv s)
    (hends : y.Ends (UnitsCounted m C (· = n) s) (UnitsCounted m C (· < n) s)) (hn : n < 2 ^ 32)
    (hes : (transferEnd y).events = s.events ++ es) (hr : (r, data) ∈ responsesOf es) :
    ∃ fs st, es = fs ++ answerEvents st r data ∧ r.count = (transferEnd y).unitIdx ∧ r.count.toNat = m fs ∧
      m fs ≤ n ∧ (r.status = .ok → m fs = n) ∧ C fs data := by
  cases y with
  | go _ t =>
    obtain ⟨fs, hran, -⟩ := h
    obtain ⟨gs, hgs, hidx, hall, hC⟩ := hends
    obtain rfl : fs = gs := List.append_cancel_left (hran.events.symm.trans hgs)
    rw [transferEnd_go] at hes ⊢
    obtain ⟨rfl, rfl, rfl⟩ := hran.answer_eq hes hr
    exact ⟨fs, _, rfl, rfl, by simp [Response.okWith, hidx]; omega, hall.le, fun _ => hall, hC⟩
  | stop x t =>
    obtain ⟨fs, hran, -⟩ := h
    obtain ⟨gs, hgs, hidx, hsome, hC⟩ := hends
    obtain rfl : fs = gs := List.append_cancel_left (hran.events.symm.trans hgs)
    rw [transferEnd_stop] at hes ⊢
    obtain ⟨rfl, rfl, rfl⟩ := hran.answer_eq hes hr
    have hcount : (x.response t.unitIdx).count = t.unitIdx := by cases x <;> rfl
    have hstatus : (x.response t.unitIdx).status ≠ .ok := by cases x <;> nofun
    exact ⟨fs, _, rfl, hcount, by rw [hcount]; simp [hidx]; omega, hsome.le, fun hok => absurd hok hstatus, hC⟩

/-- A transfer of no unit or of some. -/
theorem transfer_runs {c : Prop} [Decidable c] {x : Res Unit}
    (hx : x.Runs busRegs (some .sb) true (beginTransfer s)) :
    (if c then .go () (beginTransfer s) else x).Runs busRegs (some .sb) true s := by
  refine .after Ran.beginTransfer noErr_nil ?_
  split
  · exact Res.Runs.go ()
  · exact hx

/-! ### What a read answers (R237, R240) -/

/-- The units a read has fetched (R240). -/
def unitsFetched (es : List Event) : Nat := (wordsRead (.sbdata 0) es).length

theorem wordsRead_answer (q : RegId) (es : List Event) (st : EngineState) (r : Response) (data : List Byte) :
    wordsRead q (es ++ answerEvents st r data) = wordsRead q es :=
  (wordsRead_append es _ q).trans (List.append_nil _)

/-- The bytes delivered are those of the words fetched (R232). -/
def DeliversFetched (u : Nat) (es : List Event) (data : List Byte) : Prop :=
  data = delivered u (wordsRead (.sbdata 0) es)

/-- A read completes with all its units, or ends before (R237, R243). -/
theorem readMem_ends (a len : Word) (s : State) : Res.Ends
    (UnitsCounted unitsFetched (DeliversFetched (unitSize a len)) (· = unitCount a len) s)
    (UnitsCounted unitsFetched (DeliversFetched (unitSize a len)) (· < unitCount a len) s)
    (if unitCount a len = 0 then .go () (beginTransfer s)
      else readSteps a (unitSize a len) (unitCount a len) (beginTransfer s)) := by
  split
  next hnone => exact ⟨[], by simp, rfl, hnone.symm, rfl⟩
  next hsome =>
    refine (readSteps_fetched a (unitSize a len) (Nat.pos_of_ne_zero hsome) s).imp ?_ ?_
    · rintro t ⟨hidx, words, es, hlen, hdata, hes, rfl⟩
      exact ⟨es, hes, by rw [hidx, ← hlen]; rfl, hlen, hdata⟩
    · rintro t ⟨words, es, hlen, hidx, hdata, hes, rfl⟩
      exact ⟨es, hes, hidx, hlen, hdata⟩

theorem readMem_answer (h : exec (.readMem a len) s = .next t) (hes : t.events = s.events ++ es)
    (hr : (r, data) ∈ responsesOf es) :
    r.count = t.unitIdx ∧ r.count.toNat = unitsFetched es ∧ unitsFetched es ≤ unitCount a len ∧
      (r.status = .ok → unitsFetched es = unitCount a len) ∧ DeliversFetched (unitSize a len) es data := by
  cases h
  obtain ⟨fs, st, rfl, hidx, hcount, hle, hok, hdata⟩ := (transfer_runs (readSteps_runs a _ _)).answer
    (readMem_ends a len s) (unitCount_lt a len) hes hr
  rw [unitsFetched, DeliversFetched, wordsRead_answer]
  exact ⟨hidx, hcount, hle, hok, hdata⟩

/-! ### What a write answers (R238, R240) -/

theorem unitsFinished_answer (es : List Event) (st : EngineState) (r : Response) (data : List Byte) :
    unitsFinished (es ++ answerEvents st r data) = unitsFinished es := by
  rw [unitsFinished, List.foldl_append]
  rfl

theorem wordsSent_answer (q : RegId) (es : List Event) (st : EngineState) (r : Response) (data : List Byte) :
    wordsSent q (es ++ answerEvents st r data) = wordsSent q es :=
  (wordsSent_append es _ q).trans (List.append_nil _)

/-- The first `n` units of the write data (R232). -/
def packedUnits (d : List Byte) (u n : Nat) : List Word :=
  (List.range' 0 n).map fun i => packUnit (fun j => d.getD j 0) i u

/-- Where all `n` units were seen finished, the words sent are those of the write data, if the request carries them
all. -/
def SendsAll (d : List Byte) (u n : Nat) (es : List Event) : Prop :=
  unitsFinished es = n → n * u ≤ d.length → wordsSent (.sbdata 0) es = packedUnits d u n

/-- A write completes with all its units sent and seen finished, or ends before (R238, R243). -/
theorem writeMem_ends (a len : Word) (s : State) : Res.Ends
    (UnitsCounted unitsFinished (fun es _ => SendsAll s.wdata (unitSize a len) (unitCount a len) es)
      (· = unitCount a len) s)
    (UnitsCounted unitsFinished (fun es _ => SendsAll s.wdata (unitSize a len) (unitCount a len) es)
      (· < unitCount a len) s)
    (if unitCount a len = 0 then .go () (beginTransfer s)
      else writeSteps a (unitSize a len) (unitCount a len) (beginTransfer s)) := by
  split
  next hnone => exact ⟨[], by simp, rfl, hnone.symm, fun _ _ => by rw [hnone]; rfl⟩
  next hsome =>
    refine (writeSteps_sent a (unitSize a len) (Nat.pos_of_ne_zero hsome) s).imp ?_ ?_
    · rintro t ⟨hidx, -, es, hes, hsent, hfinished⟩
      exact ⟨es, hes, by rw [hidx, hfinished], hfinished, fun _ => hsent⟩
    · rintro t ⟨⟨j, es, hlt, hidx, hes, rfl⟩, -⟩
      exact ⟨es, hes, hidx, hlt, fun hall => absurd hall hlt.ne⟩

theorem writeMem_answer (h : exec (.writeMem a len) s = .next t) (hes : t.events = s.events ++ es)
    (hr : (r, data) ∈ responsesOf es) :
    r.count = t.unitIdx ∧ r.count.toNat = unitsFinished es ∧ unitsFinished es ≤ unitCount a len ∧
      (r.status = .ok → unitsFinished es = unitCount a len) ∧
      SendsAll s.wdata (unitSize a len) (unitCount a len) es := by
  cases h
  obtain ⟨fs, st, rfl, hidx, hcount, hle, hok, hsent⟩ := (transfer_runs (writeSteps_runs a _ _)).answer
    (writeMem_ends a len s) (unitCount_lt a len) hes hr
  rw [SendsAll, unitsFinished_answer, wordsSent_answer]
  exact ⟨hidx, hcount, hle, hok, hsent⟩

/-! ### The round trip (R241) -/

/-- The bytes of one unit of the write data. -/
theorem map_getD_eq_take_drop (d : List Byte) {i : Nat} (h : i + u ≤ d.length) :
    (List.range u).map (fun j => d.getD (i + j) 0) = (d.drop i).take u := by
  refine List.ext_getElem (by simp; omega) fun j hj _ => ?_
  have hlt : i + j < d.length := by simp at hj; omega
  simp [hlt]

/-- Units packed from the write data deliver the write data (R232). -/
theorem delivered_packedUnits (d : List Byte) (hu : u ≤ 4) (h : n * u ≤ d.length) :
    delivered u (packedUnits d u n) = d.take (n * u) := by
  induction n with
  | zero => simp [delivered, packedUnits]
  | succ n ih =>
    rw [Nat.add_mul, Nat.one_mul] at h ⊢
    have hsplit : packedUnits d u (n + 1) = packedUnits d u n ++ [packUnit (fun j => d.getD j 0) n u] := by
      simp [packedUnits, List.range'_concat]
    have hfirst : delivered u (packedUnits d u n) = d.take (n * u) := ih (by omega)
    rw [delivered] at hfirst ⊢
    rw [hsplit, List.flatMap_append, hfirst, List.flatMap_singleton, unpackUnit_packUnit _ _ hu,
      map_getD_eq_take_drop d h, ← List.take_add]

end Sys2Proof.Machine

namespace Sys2Proof.Certificates

open Machine

/-- Settles O52: each direction by what its answer says. -/
theorem countIsUnitsTransferred : Obligations.CountIsUnitsTransferred := by
  intro i a len s t es r data hi h hes hr
  simp only [List.mem_cons, List.not_mem_nil, or_false] at hi
  rcases hi with rfl | rfl
  · obtain ⟨hidx, hcount, hle, hok, rfl⟩ := readMem_answer h hes hr
    refine ⟨hidx, hcount.trans_le hle, fun hs => hcount.trans (hok hs), fun _ => ⟨hcount, rfl, ?_⟩, nofun⟩
    rw [delivered_length, hcount, unitsFetched]
  · obtain ⟨hidx, hcount, hle, hok, -⟩ := writeMem_answer h hes hr
    exact ⟨hidx, hcount.trans_le hle, fun hs => hcount.trans (hok hs), nofun, fun _ => hcount⟩

/-- Settles O50: the words read deliver what the units sent deliver, and those are the write data. -/
theorem memoryRoundTrip : Obligations.MemoryRoundTrip := by
  intro a len s t s' t' es es' count count' data hlen hw hes hwr hr hes' hrr hsame
  obtain ⟨-, -, -, hok, hsent⟩ := writeMem_answer hw hes hwr
  obtain ⟨-, -, -, -, rfl⟩ := readMem_answer hr hes' hrr
  have htotal : unitCount a len * unitSize a len = s.wdata.length := (unitCount_mul a len).trans hlen.symm
  have hu : unitSize a len ≤ 4 := by rcases unitSize_mem a len with h | h | h <;> omega
  rw [delivered_congr hsame, hsent (hok rfl) htotal.le, delivered_packedUnits s.wdata hu htotal.le, htotal,
    List.take_length]

end Sys2Proof.Certificates
end

section
/-!
The bound on the accesses of a transfer (42_system_bus.md R246): so many for each part, `POLL_LIMIT` for each wait, and
the sum over the parts that run in a row.
-/

namespace Sys2Proof.Machine

variable {α β : Type} {s t : State} {j k limit : Nat}

/-! ### Parts and their sum -/

/-- From `s` to `t` the block made at most `k` accesses, under the same `POLL_LIMIT`. -/
def AccessedAtMost (k : Nat) (s t : State) : Prop :=
  t.pollLimit = s.pollLimit ∧ ∃ es, t.events = s.events ++ es ∧ (accessesOf es).length ≤ k

theorem AccessedAtMost.trans {u : State} (h : AccessedAtMost j s t) (g : AccessedAtMost k t u) :
    AccessedAtMost (j + k) s u := by
  obtain ⟨hlimit, es, hes, hj⟩ := h
  obtain ⟨glimit, fs, hfs, hk⟩ := g
  refine ⟨glimit.trans hlimit, es ++ fs, by rw [hfs, hes, List.append_assoc], ?_⟩
  rw [accessesOf_append, List.length_append]
  omega

theorem AccessedAtMost.mono (h : AccessedAtMost j s t) (hjk : j ≤ k) : AccessedAtMost k s t := by
  obtain ⟨hlimit, es, hes, hj⟩ := h
  exact ⟨hlimit, es, hes, hj.trans hjk⟩

/-- A local update makes no access. -/
theorem AccessedAtMost.of_events (hlimit : t.pollLimit = s.pollLimit) (h : t.events = s.events) :
    AccessedAtMost 0 s t :=
  ⟨hlimit, [], by rw [h, List.append_nil], Nat.le_refl 0⟩

/-- The write of an engine state register makes no access. -/
theorem AccessedAtMost.setEngine (s : State) (e : Engine) (st : EngineState) :
    AccessedAtMost 0 s (s.setEngine e st) :=
  ⟨by cases e <;> rfl, [.engine e st], s.setEngine_events e st, Nat.le_refl 0⟩

theorem AccessedAtMost.respond (s : State) (r : Response) (d : List Byte) : AccessedAtMost 0 s (s.respond r d) :=
  ⟨rfl, [.response r d], rfl, Nat.le_refl 0⟩

theorem AccessedAtMost.afterCycle (s : State) (a : Access) : AccessedAtMost 1 s (s.afterCycle a) :=
  ⟨rfl, [.cycle a (s.answerTo a)], rfl, Nat.le_refl 1⟩

/-- A part of an operation makes at most `k` accesses, whichever way it ends. -/
def Res.AccessesAtMost (k : Nat) (s : State) (x : Res α) : Prop :=
  x.Ends (AccessedAtMost k s) (AccessedAtMost k s)

theorem Res.AccessesAtMost.mono {x : Res α} (h : x.AccessesAtMost j s) (hjk : j ≤ k) : x.AccessesAtMost k s :=
  h.imp (fun _ ht => ht.mono hjk) fun _ ht => ht.mono hjk

theorem Res.AccessesAtMost.go (a : α) (s : State) : (Res.go a s).AccessesAtMost 0 s := AccessedAtMost.of_events rfl rfl

/-- A part after some accesses. -/
theorem Res.AccessesAtMost.after {x : Res α} (h : AccessedAtMost j s t) (hx : x.AccessesAtMost k t) :
    x.AccessesAtMost (j + k) s :=
  hx.imp (fun _ ht => h.trans ht) fun _ ht => h.trans ht

/-- A part after updates that make none. -/
theorem Res.AccessesAtMost.afterLocal {x : Res α} (h : AccessedAtMost 0 s t) (hx : x.AccessesAtMost k t) :
    x.AccessesAtMost k s :=
  (hx.after h).mono (Nat.zero_add k).le

/-- Two parts in a row, the second under the same `POLL_LIMIT`. -/
theorem Res.AccessesAtMost.andThen {x : Res α} {f : α → State → Res β} (h : x.AccessesAtMost j s)
    (hf : ∀ a t, t.pollLimit = s.pollLimit → (f a t).AccessesAtMost k t) :
    (x.andThen f).AccessesAtMost (j + k) s := by
  cases x with
  | go a t => exact (hf a t (And.left h)).after h
  | stop y t => exact AccessedAtMost.mono h (Nat.le_add_right j k)

/-! ### Micro-steps and polls (R160, R161, R201) -/

theorem rd_accesses (r : RegId) (s : State) : (rd r s).AccessesAtMost 1 s := by
  unfold rd
  split
  all_goals exact AccessedAtMost.afterCycle s _

theorem wr_accesses (r : RegId) (s : State) : (wr r s).AccessesAtMost 1 s := by
  unfold wr
  split
  all_goals exact AccessedAtMost.afterCycle s _

theorem wr_setShadow_accesses (r : RegId) (v : Word) (s : State) : (wr r (s.setShadow r v)).AccessesAtMost 1 s :=
  .afterLocal (AccessedAtMost.of_events rfl rfl) (wr_accesses r _)

theorem pollLoop_accesses (r : RegId) (cond : Word → Bool) (n : Nat) :
    ∀ s : State, (pollLoop r cond n s).AccessesAtMost n s := by
  induction n with
  | zero => exact Res.AccessesAtMost.go false
  | succ n ih =>
    intro s
    rw [pollLoop, Nat.add_comm]
    refine (rd_accesses r s).andThen fun _ t _ => .afterLocal (t := t.setPollCount (t.pollCount + 1))
      (AccessedAtMost.of_events rfl rfl) ?_
    dsimp only
    split
    · exact (Res.AccessesAtMost.go true _).mono (Nat.zero_le n)
    · exact ih _

theorem pollOrStop_accesses (r : RegId) (cond : Word → Bool) (s : State) :
    (pollOrStop r cond s).AccessesAtMost s.pollLimit.toNat s := by
  have hpoll : (poll r cond s).AccessesAtMost s.pollLimit.toNat s :=
    .afterLocal (t := s.setPollCount 0) (AccessedAtMost.of_events rfl rfl) (pollLoop_accesses r cond _ _)
  refine hpoll.andThen (k := 0) fun ready t _ => ?_
  split
  · exact Res.AccessesAtMost.go () t
  · exact AccessedAtMost.of_events rfl rfl

/-! ### The parts of a transfer (R233 to R238, R245) -/

/-- The clear is a write and a read (R233). -/
theorem clearStaleSberror_accesses (s : State) : (clearStaleSberror s).AccessesAtMost 2 s := by
  unfold clearStaleSberror
  split
  · exact .afterLocal (AccessedAtMost.of_events rfl rfl)
      ((wr_accesses .sbcs _).andThen fun _ t _ => rd_accesses .sbcs t)
  · exact (Res.AccessesAtMost.go () s).mono (Nat.zero_le 2)

theorem prepareTransfer_accesses (s : State) : (prepareTransfer s).AccessesAtMost (s.pollLimit.toNat + 2) s := by
  unfold prepareTransfer
  split
  · exact .afterLocal (AccessedAtMost.setEngine s .sb .polling) ((pollOrStop_accesses .sbcs notSbBusy _).andThen
      fun _ t _ => .afterLocal (AccessedAtMost.setEngine t .sb _) (clearStaleSberror_accesses _))
  · exact (clearStaleSberror_accesses s).mono (Nat.le_add_left 2 _)

theorem startTransfer_accesses (a code : Word) (several isRead : Bool) (s : State) :
    (startTransfer a code several isRead s).AccessesAtMost 2 s := by
  refine (wr_setShadow_accesses .sbcs _ s).andThen (k := 1) fun _ t _ => ?_
  exact .afterLocal (AccessedAtMost.setEngine t .sb .issued) (wr_setShadow_accesses (.sbaddress 0) a _)

theorem waitBus_accesses (hl : s.pollLimit.toNat = limit) : (waitBus s).AccessesAtMost limit s := by
  subst hl
  refine .afterLocal (AccessedAtMost.setEngine s .sb .polling)
    ((pollOrStop_accesses .sbcs notSbBusy _).andThen (k := 0) fun _ t _ => ?_)
  split
  · exact Res.AccessesAtMost.go () t
  · exact AccessedAtMost.of_events rfl rfl

/-- The end of the streaming is one write, before the last unit only (R245). -/
theorem endStreaming_accesses (last : Bool) (s : State) : (endStreaming last s).AccessesAtMost last.toNat s := by
  unfold endStreaming
  cases last with
  | true => exact wr_setShadow_accesses .sbcs _ s
  | false => exact Res.AccessesAtMost.go () s

theorem readUnit_accesses (u n i : Nat) (hl : s.pollLimit.toNat = limit) :
    (readUnit u n i s).AccessesAtMost (limit + 1 + (decide (i + 1 = n)).toNat) s := by
  have hunit : (readUnit u n i s).AccessesAtMost (limit + ((decide (i + 1 = n) && decide (1 < n)).toNat + (1 + 0))) s :=
    (Res.AccessesAtMost.afterLocal (t := s.setUnitIdx (BitVec.ofNat 32 i)) (AccessedAtMost.of_events rfl rfl)
      (waitBus_accesses hl)).andThen fun _ t _ => (endStreaming_accesses _ t).andThen fun _ t _ =>
        Res.AccessesAtMost.andThen (.afterLocal (AccessedAtMost.setEngine t .sb .issued) (rd_accesses (.sbdata 0) _))
          fun _ t _ => AccessedAtMost.of_events rfl rfl
  refine hunit.mono ?_
  have hle : (decide (i + 1 = n) && decide (1 < n)).toNat ≤ (decide (i + 1 = n)).toNat :=
    Bool.toNat_le_toNat (Bool.and_le_left _ _)
  omega

/-- Only the last unit of a read may take one access more than a wait and its fetch. -/
theorem readUnits_accesses (u n k : Nat) : ∀ s : State, k ≤ n → s.pollLimit.toNat = limit →
    (readUnits u n k s).AccessesAtMost (k * (limit + 1) + min k 1) s := by
  induction k with
  | zero => exact fun s _ _ => (Res.AccessesAtMost.go () s).mono (Nat.zero_le _)
  | succ k ih =>
    intro s hk hl
    have hunits := (readUnit_accesses u n (n - (k + 1)) hl).andThen fun _ t ht =>
      ih t (by omega) ((congrArg BitVec.toNat ht).trans hl)
    refine hunits.mono ?_
    rw [Nat.add_mul, Nat.one_mul]
    cases k with
    | zero =>
      have := Bool.toNat_le (decide (n - (0 + 1) + 1 = n))
      omega
    | succ k =>
      rw [decide_eq_false (by omega)]
      simp only [Bool.toNat_false]
      omega

theorem writeUnit_accesses (u i : Nat) (hl : s.pollLimit.toNat = limit) :
    (writeUnit u i s).AccessesAtMost (limit + 1) s := by
  rw [Nat.add_comm]
  refine .afterLocal (AccessedAtMost.of_events rfl rfl) ((wr_accesses (.sbdata 0) _).andThen fun _ t ht => ?_)
  refine .afterLocal (AccessedAtMost.setEngine t .sb .issued) (waitBus_accesses ?_)
  exact (congrArg BitVec.toNat ht).trans hl

theorem writeUnits_accesses (u n k : Nat) : ∀ s : State, s.pollLimit.toNat = limit →
    (writeUnits u n k s).AccessesAtMost (k * (limit + 1)) s := by
  induction k with
  | zero => exact fun s _ => (Res.AccessesAtMost.go () s).mono (Nat.zero_le _)
  | succ k ih =>
    intro s hl
    rw [Nat.add_mul, Nat.one_mul, Nat.add_comm]
    exact (writeUnit_accesses u _ hl).andThen fun _ t ht => ih t ((congrArg BitVec.toNat ht).trans hl)

/-! ### The whole of a transfer (R246) -/

/-- The units of a read after the preconditions, the configuration and the address. -/
theorem readSteps_accesses (a : Word) (u n : Nat) (s : State) :
    (readSteps a u n s).AccessesAtMost ((n + 2) * (s.pollLimit.toNat + 1) + 4) s := by
  have hsteps := (prepareTransfer_accesses s).andThen fun _ t ht =>
    (startTransfer_accesses a (unitCode u) (decide (1 < n)) true t).andThen fun _ t' ht' =>
      (readUnits_accesses u n n t' (Nat.le_refl n) (congrArg BitVec.toNat (ht'.trans ht))).andThen (k := 0) fun _ v _ =>
        Res.AccessesAtMost.afterLocal (t := v.setUnitIdx (BitVec.ofNat 32 n)) (AccessedAtMost.of_events rfl rfl)
          (Res.AccessesAtMost.go () _)
  refine hsteps.mono ?_
  rw [Nat.add_mul]
  omega

/-- The first wait and the units of a write after the preconditions, the configuration and the address. -/
theorem writeSteps_accesses (a : Word) (u n : Nat) (s : State) :
    (writeSteps a u n s).AccessesAtMost ((n + 2) * (s.pollLimit.toNat + 1) + 4) s := by
  have hsteps := (prepareTransfer_accesses s).andThen fun _ t ht =>
    (startTransfer_accesses a (unitCode u) (decide (1 < n)) false t).andThen fun _ t' ht' =>
      (waitBus_accesses (congrArg BitVec.toNat (ht'.trans ht))).andThen fun _ v hv =>
        (writeUnits_accesses u n n v (congrArg BitVec.toNat (hv.trans (ht'.trans ht)))).andThen (k := 0) fun _ v' _ =>
          Res.AccessesAtMost.afterLocal (t := v'.setUnitIdx (BitVec.ofNat 32 n)) (AccessedAtMost.of_events rfl rfl)
            (Res.AccessesAtMost.go () _)
  refine hsteps.mono ?_
  rw [Nat.add_mul]
  omega

/-- The answer of a transfer makes no access. -/
theorem transferEnd_accesses {x : Res Unit} (h : x.AccessesAtMost k s) : AccessedAtMost k s (transferEnd x) := by
  cases x with
  | go _ t => exact AccessedAtMost.trans h ((AccessedAtMost.setEngine t .sb .done).trans (AccessedAtMost.respond _ _ _))
  | stop y t =>
    exact AccessedAtMost.trans h ((AccessedAtMost.setEngine t .sb .failed).trans (AccessedAtMost.respond _ _ _))

/-- A transfer of no unit or of some, from its start to its answer. -/
theorem transfer_accesses {c : Prop} [Decidable c] {x : Res Unit} (hx : x.AccessesAtMost k (beginTransfer s)) :
    AccessedAtMost k s (transferEnd (if c then .go () (beginTransfer s) else x)) := by
  refine transferEnd_accesses (.afterLocal (t := beginTransfer s) (AccessedAtMost.of_events rfl rfl) ?_)
  split
  · exact (Res.AccessesAtMost.go () _).mono (Nat.zero_le k)
  · exact hx

end Sys2Proof.Machine

namespace Sys2Proof.Certificates

open Machine

/-- Settles O51: the sum of the bounds of the parts. -/
theorem transferAccessBound : Obligations.TransferAccessBound := by
  intro i a len s hi
  simp only [List.mem_cons, List.not_mem_nil, or_false] at hi
  rcases hi with rfl | rfl
  · obtain ⟨-, es, hes, hle⟩ := transfer_accesses (c := unitCount a len = 0)
      (readSteps_accesses a (unitSize a len) (unitCount a len) (beginTransfer s))
    exact ⟨_, es, rfl, hes, hle⟩
  · obtain ⟨-, es, hes, hle⟩ := transfer_accesses (c := unitCount a len = 0)
      (writeSteps_accesses a (unitSize a len) (unitCount a len) (beginTransfer s))
    exact ⟨_, es, rfl, hes, hle⟩

end Sys2Proof.Certificates
end

section
/-!
Hart control (43_hart_control.md R260 to R268): the one write of `selectHart`, whatever answers it; and a halt or resume
as its two writes, its poll of `dmstatus`, and its end, whichever way the poll goes.
-/

namespace Sys2Proof.Machine

variable {s : State} {k k1 k2 : Word} {rest : List Answer}

/-! ### Select (R260) -/

/-- The masked word of R260, with the halves of the index at their places. -/
theorem withHartsel_eq_halves (h : BitVec 20) (x : Word) : withHartsel h x =
    (x &&& 0xFC00003F) ||| ((h.extractLsb' 0 10).setWidth 32 <<< 16) |||
      ((h.extractLsb' 10 10).setWidth 32 <<< 6) := by
  rw [withHartsel_eq, selectWord, encHart, hartLo, hartHi, ← BitVec.or_assoc]
  rfl

/-- A write of a new shadow word, answered `Ok` (R161). -/
theorem wr_setShadow_of_ok {r : RegId} {v : Word} (hk : s.answerTo (.write r.addr v) = .ok k) :
    wr r (s.setShadow r v) = .go () { s with
      sh := s.sh.set r k
      answers := s.answers.tail
      events := s.events ++ [wrote r v k] } := by
  have hsent : (s.setShadow r v).sh.get r = v := RegFile.get_set_same s.sh r v
  rw [wr_of_ok (s := s.setShadow r v) (k := k) (by rw [hsent]; exact hk), hsent]
  simp [State.setShadow]

/-- A write of a new shadow word, answered `Err`: the new word stays in the shadow (R161, R301). -/
theorem wr_setShadow_of_err {r : RegId} {v : Word} {e : Nat} (he : s.answerTo (.write r.addr v) = .err e) :
    wr r (s.setShadow r v) = .stop (.transportError e) { s with
      sh := s.sh.set r v
      answers := s.answers.tail
      events := s.events ++ [.cycle (.write r.addr v) (.err e)] } := by
  have hsent : (s.setShadow r v).sh.get r = v := RegFile.get_set_same s.sh r v
  rw [wr_of_err (s := s.setShadow r v) (e := e) (by rw [hsent]; exact he), hsent]
  rfl

/-- A selection is one write, which ends as a primitive operation does (R260). -/
theorem exec_selectHart (h : BitVec 20) (s : State) : exec (.selectHart h) s =
    .next (primitiveEnd (wr .dmcontrol (s.setShadow .dmcontrol (withHartsel h (s.shadow .dmcontrol))))) :=
  execSelectHart_eq h s

/-! ### Halt and resume (R261, R262) -/

/-- The state in which the poll of a halt or resume starts, its two writes acknowledged with `k1` and `k2`. -/
def State.afterRequest (s : State) (h : BitVec 20) (bit k1 k2 : Word) (rest : List Answer) : State := { s with
  sh := s.sh.set .dmcontrol k2
  hcState := .polling
  answers := rest
  events := s.events ++ hartEvents h bit (s.shadow .dmcontrol) k1 k2 }

/-- A halt is its two writes, then the poll for its flag (R261, R263). -/
theorem exec_haltHart (h : BitVec 20) (hs : s.answers = .ok k1 :: .ok k2 :: rest) : exec (.haltHart h) s =
    .next (hartEnd (pollOrStop .dmstatus haltSeen (s.afterRequest h 0x80000000 k1 k2 rest))) := by
  have hcond : isHalted = haltSeen := funext isHalted_eq
  change execHaltHart h s = _
  rw [execHaltHart, requestSteps_scripted h _ _ _ hs, haltWord_eq, hcond]
  rfl

/-- A resume is its two writes, then the poll for its flag (R262, R263). -/
theorem exec_resumeHart (h : BitVec 20) (hs : s.answers = .ok k1 :: .ok k2 :: rest) : exec (.resumeHart h) s =
    .next (hartEnd (pollOrStop .dmstatus resumeSeen (s.afterRequest h 0x40000000 k1 k2 rest))) := by
  have hcond : isResumeack = resumeSeen := funext isResumeack_eq
  change execResumeHart h s = _
  rw [execResumeHart, requestSteps_scripted h _ _ _ hs, resumeWord_eq, hcond]
  rfl

variable {r : RegId} {cond : Word → Bool} {ws : List Word} {w : Word}

/-- The end of a halt or resume whose poll is satisfied (R264). -/
theorem hartEnd_of_ready (hs : s.answers = okAll (ws ++ [w]) ++ rest) (hlimit : ws.length + 1 ≤ s.pollLimit.toNat)
    (hws : ∀ x ∈ ws, cond x = false) (hw : cond w = true) :
    hartEnd (pollOrStop r cond s) = { s with
      sh := s.sh.set r w
      hcState := .done
      pollCount := BitVec.ofNat 32 (ws.length + 1)
      answers := rest
      events := s.events ++ polled r (ws ++ [w]) ++ [.engine .hc .done, answeredOk 0] } := by
  rw [pollOrStop_ready hs hws hw hlimit]
  simp [hartEnd, State.setEngine, State.respondOk_eq]

/-- The end of a halt or resume whose poll expires (R264, R305). -/
theorem hartEnd_of_expired (hs : s.answers = okAll ws ++ rest) (hlimit : ws.length = s.pollLimit.toNat)
    (hws : ∀ x ∈ ws, cond x = false) :
    hartEnd (pollOrStop r cond s) = { s with
      sh := s.sh.setLast r ws
      hcState := .failed
      pollCount := s.pollLimit
      answers := rest
      events := s.events ++ polled r ws ++ [.engine .hc .failed, .response ⟨.pollTimeout, 0, 0, 0⟩ []] } := by
  have hcount : BitVec.ofNat 32 ws.length = s.pollLimit := by rw [hlimit, BitVec.ofNat_toNat, BitVec.setWidth_eq]
  rw [pollOrStop_expired hs hws hlimit, hcount]
  simp [hartEnd, State.setEngine, State.respond, State.record, Stop.response]

end Sys2Proof.Machine

namespace Sys2Proof.Certificates

open Machine

/-- Settles O30, by the answer to the one write. -/
theorem selectHartOperation : Obligations.SelectHartOperation := by
  intro h s
  refine ⟨fun k hk => ?_, fun e he => ?_⟩
  · rw [exec_selectHart, withHartsel_eq_halves, wr_setShadow_of_ok hk, primitiveEnd_go, List.append_assoc]
    rfl
  · rw [exec_selectHart, withHartsel_eq_halves, wr_setShadow_of_err he, primitiveEnd_transportError, List.append_assoc]
    rfl

/-- Settles O31: the poll that follows the two writes is satisfied within its bound. -/
theorem haltAndResumeComplete : Obligations.HaltAndResumeComplete := by
  intro h s k1 k2 w ws rest hs hlimit
  refine ⟨fun hws hw => ?_, fun hws hw => ?_⟩
  · exact (exec_haltHart h hs).trans (congrArg Host.Outcome.next (hartEnd_of_ready rfl hlimit hws hw))
  · exact (exec_resumeHart h hs).trans (congrArg Host.Outcome.next (hartEnd_of_ready rfl hlimit hws hw))

/-- Settles O32: the poll that follows the two writes expires, for a limit of 0 before its first read. -/
theorem haltAndResumeTimeOut : Obligations.HaltAndResumeTimeOut := by
  intro h s k1 k2 ws rest hs hlimit
  refine ⟨fun hws => ?_, fun hws => ?_⟩
  · exact (exec_haltHart h hs).trans (congrArg Host.Outcome.next (hartEnd_of_expired rfl hlimit hws))
  · exact (exec_resumeHart h hs).trans (congrArg Host.Outcome.next (hartEnd_of_expired rfl hlimit hws))

end Sys2Proof.Certificates
end

section
/-!
The system operations (44_system_ops.md R280 to R284): what each answers and changes, and that the formatting modes
influence nothing else. Every part of an operation commutes with replacing the modes: once for each micro-step, once for
a sequence and for a choice, then by these for each engine's procedure.
-/

namespace Sys2Proof.Machine

variable {α β : Type} {n : RegName} {idx : BitVec 8} {r : RegId} {i : Instr} {s t : State}

/-! ### What the system operations do (R280 to R283) -/

theorem exec_dtmReset (s : State) : exec .dtmReset s = .next { s with
    events := s.events ++ [.transportReset, answeredOk 0] } := by
  change Host.Outcome.next ((s.record .transportReset).respondOk 0) = _
  rw [State.respondOk_eq, State.record_events, List.append_assoc]
  rfl

theorem exec_setPollLimit (v : Word) (s : State) : exec (.setPollLimit v) s = .next { s with
    pollLimit := v
    events := s.events ++ [answeredOk 0] } := rfl

theorem exec_getPollLimit (s : State) : exec .getPollLimit s = .next { s with
    events := s.events ++ [answeredOk s.pollLimit] } := rfl

theorem exec_setPretty (hr : n.resolve idx = some r) (b : Bool) (s : State) :
    exec (.setPretty n idx b) s = .next { s with
      pretty := s.pretty.set r b
      events := s.events ++ [answeredOk 0] } :=
  congrArg Host.Outcome.next (withReg_some hr)

/-! ### Other formatting modes (R284) -/

/-- The state that differs in its formatting modes alone. -/
def State.withPretty (s : State) (p : RegFile Bool) : State := { s with pretty := p }

/-- A part that ended the same way, in the state that differs in its formatting modes alone. -/
def Res.withPretty (x : Res α) (p : RegFile Bool) : Res α :=
  match x with
  | .go a s => .go a (s.withPretty p)
  | .stop y s => .stop y (s.withPretty p)

variable {p : RegFile Bool}

/-- Two parts in a row commute with replacing the modes if each does. -/
theorem Res.andThen_withPretty {x x' : Res α} {f f' : α → State → Res β} (hx : x' = x.withPretty p)
    (hf : ∀ a t, f' a (t.withPretty p) = (f a t).withPretty p) : x'.andThen f' = (x.andThen f).withPretty p := by
  subst hx
  cases x with
  | go a t => exact hf a t
  | stop y t => rfl

theorem Res.ite_withPretty {c : Prop} [Decidable c] {x x' y y' : Res α} (hx : x' = x.withPretty p)
    (hy : y' = y.withPretty p) : (if c then x' else y') = (if c then x else y).withPretty p := by
  subst hx hy
  split <;> rfl

/-! The micro-steps and the polling loop (R160, R161, R201) -/

theorem rd_withPretty (r : RegId) (s : State) : rd r (s.withPretty p) = (rd r s).withPretty p := by
  have hanswer : (s.withPretty p).answerTo (.read r.addr) = s.answerTo (.read r.addr) := rfl
  cases h : s.answerTo (.read r.addr) with
  | ok x => rw [rd_of_ok h, rd_of_ok (hanswer.trans h)]; rfl
  | err e => rw [rd_of_err h, rd_of_err (hanswer.trans h)]; rfl

theorem wr_withPretty (r : RegId) (s : State) : wr r (s.withPretty p) = (wr r s).withPretty p := by
  have hanswer : (s.withPretty p).answerTo (.write r.addr (s.sh.get r)) =
      s.answerTo (.write r.addr (s.sh.get r)) := rfl
  cases h : s.answerTo (.write r.addr (s.sh.get r)) with
  | ok k => rw [wr_of_ok h, wr_of_ok (hanswer.trans h)]; rfl
  | err e => rw [wr_of_err h, wr_of_err (hanswer.trans h)]; rfl

theorem pollLoop_withPretty (r : RegId) (cond : Word → Bool) (n : Nat) :
    ∀ s : State, pollLoop r cond n (s.withPretty p) = (pollLoop r cond n s).withPretty p := by
  induction n with
  | zero => exact fun _ => rfl
  | succ n ih =>
    exact fun s => Res.andThen_withPretty (rd_withPretty r s) fun _ t =>
      Res.ite_withPretty rfl (ih (t.setPollCount (t.pollCount + 1)))

theorem pollOrStop_withPretty (r : RegId) (cond : Word → Bool) (s : State) :
    pollOrStop r cond (s.withPretty p) = (pollOrStop r cond s).withPretty p :=
  Res.andThen_withPretty (pollLoop_withPretty r cond _ (s.setPollCount 0)) fun _ _ => Res.ite_withPretty rfl rfl

/-! The parts of an abstract command (R202 to R209) -/

theorem clearStaleCmderr_withPretty (s : State) :
    clearStaleCmderr (s.withPretty p) = (clearStaleCmderr s).withPretty p :=
  Res.ite_withPretty rfl (Res.andThen_withPretty (wr_withPretty _ (s.putField _ _ _)) fun _ => rd_withPretty _)

theorem prepareCommand_withPretty (s : State) : prepareCommand (s.withPretty p) = (prepareCommand s).withPretty p :=
  Res.ite_withPretty (Res.andThen_withPretty (pollOrStop_withPretty _ _ s) fun _ => clearStaleCmderr_withPretty)
    (clearStaleCmderr_withPretty s)

theorem stageValue_withPretty (staged : Option Word) (s : State) :
    stageValue staged (s.withPretty p) = (stageValue staged s).withPretty p := by
  cases staged with
  | none => rfl
  | some v => exact wr_withPretty _ (s.setShadow _ v)

theorem completeCommand_withPretty (write : Bool) (s : State) :
    completeCommand write (s.withPretty p) = (completeCommand write s).withPretty p :=
  Res.ite_withPretty
    (Res.ite_withPretty rfl (Res.andThen_withPretty (rd_withPretty _ s) fun _ _ => rfl)) rfl

theorem issueCommand_withPretty (write : Bool) (word : Word) (s : State) :
    issueCommand write word (s.withPretty p) = (issueCommand write word s).withPretty p :=
  Res.andThen_withPretty (wr_withPretty _ (s.setShadow _ word)) fun _ t =>
  Res.andThen_withPretty (pollOrStop_withPretty _ _ ((t.setEngine .ac .issued).setEngine .ac .polling)) fun _ =>
  completeCommand_withPretty write

/-! The parts of a halt or resume (R260 to R262) -/

theorem selectSteps_withPretty (h : BitVec 20) (s : State) :
    selectSteps h (s.withPretty p) = (selectSteps h s).withPretty p :=
  wr_withPretty _ (s.setShadow _ _)

theorem requestSteps_withPretty (h : BitVec 20) (request clear : Field) (cond : Word → Bool) (s : State) :
    requestSteps h request clear cond (s.withPretty p) = (requestSteps h request clear cond s).withPretty p :=
  Res.andThen_withPretty (selectSteps_withPretty h s) fun _ t =>
  Res.andThen_withPretty (wr_withPretty _ (t.setShadow _ _)) fun _ u =>
  pollOrStop_withPretty _ cond ((u.setEngine .hc .issued).setEngine .hc .polling)

/-! The parts of a transfer (R233 to R238, R245) -/

theorem clearStaleSberror_withPretty (s : State) :
    clearStaleSberror (s.withPretty p) = (clearStaleSberror s).withPretty p :=
  Res.ite_withPretty
    (Res.andThen_withPretty (wr_withPretty _ ((s.putField _ _ _).putField _ _ _)) fun _ => rd_withPretty _) rfl

theorem prepareTransfer_withPretty (s : State) :
    prepareTransfer (s.withPretty p) = (prepareTransfer s).withPretty p :=
  Res.ite_withPretty
    (Res.andThen_withPretty (pollOrStop_withPretty _ _ (s.setEngine .sb .polling)) fun _ t =>
      clearStaleSberror_withPretty (t.setEngine .sb s.sbState))
    (clearStaleSberror_withPretty s)

theorem startTransfer_withPretty (a code : Word) (several isRead : Bool) (s : State) :
    startTransfer a code several isRead (s.withPretty p) = (startTransfer a code several isRead s).withPretty p :=
  Res.andThen_withPretty (wr_withPretty _ (s.setShadow _ _)) fun _ t =>
  wr_withPretty _ ((t.setEngine .sb .issued).setShadow _ a)

theorem waitBus_withPretty (s : State) : waitBus (s.withPretty p) = (waitBus s).withPretty p :=
  Res.andThen_withPretty (pollOrStop_withPretty _ _ (s.setEngine .sb .polling)) fun _ _ => Res.ite_withPretty rfl rfl

theorem endStreaming_withPretty (last : Bool) (s : State) :
    endStreaming last (s.withPretty p) = (endStreaming last s).withPretty p :=
  Res.ite_withPretty (wr_withPretty _ (s.putField _ _ _)) rfl

theorem readUnit_withPretty (u n i : Nat) (s : State) :
    readUnit u n i (s.withPretty p) = (readUnit u n i s).withPretty p :=
  Res.andThen_withPretty (waitBus_withPretty (s.setUnitIdx _)) fun _ t =>
  Res.andThen_withPretty (endStreaming_withPretty _ t) fun _ v =>
  Res.andThen_withPretty (rd_withPretty _ (v.setEngine .sb .issued)) fun _ _ => rfl

theorem readUnits_withPretty (u n k : Nat) :
    ∀ s : State, readUnits u n k (s.withPretty p) = (readUnits u n k s).withPretty p := by
  induction k with
  | zero => exact fun _ => rfl
  | succ k ih => exact fun s => Res.andThen_withPretty (readUnit_withPretty u n _ s) fun _ => ih

theorem writeUnit_withPretty (u i : Nat) (s : State) :
    writeUnit u i (s.withPretty p) = (writeUnit u i s).withPretty p :=
  Res.andThen_withPretty (wr_withPretty _ ((s.setUnitIdx _).setShadow _ _)) fun _ t =>
  waitBus_withPretty (t.setEngine .sb .issued)

theorem writeUnits_withPretty (u n k : Nat) :
    ∀ s : State, writeUnits u n k (s.withPretty p) = (writeUnits u n k s).withPretty p := by
  induction k with
  | zero => exact fun _ => rfl
  | succ k ih => exact fun s => Res.andThen_withPretty (writeUnit_withPretty u _ s) fun _ => ih

theorem readSteps_withPretty (a : Word) (u n : Nat) (s : State) :
    readSteps a u n (s.withPretty p) = (readSteps a u n s).withPretty p :=
  Res.andThen_withPretty (prepareTransfer_withPretty s) fun _ t =>
  Res.andThen_withPretty (startTransfer_withPretty a _ _ true t) fun _ v =>
  Res.andThen_withPretty (readUnits_withPretty u n n v) fun _ _ => rfl

theorem writeSteps_withPretty (a : Word) (u n : Nat) (s : State) :
    writeSteps a u n (s.withPretty p) = (writeSteps a u n s).withPretty p :=
  Res.andThen_withPretty (prepareTransfer_withPretty s) fun _ t =>
  Res.andThen_withPretty (startTransfer_withPretty a _ _ false t) fun _ v =>
  Res.andThen_withPretty (waitBus_withPretty v) fun _ w =>
  Res.andThen_withPretty (writeUnits_withPretty u n n w) fun _ _ => rfl

/-! How operations end (R216, R240, R264, R301) -/

theorem primitiveEnd_withPretty (x : Res Unit) : primitiveEnd (x.withPretty p) = (primitiveEnd x).withPretty p := by
  cases x <;> rfl

theorem commandEnd_withPretty (x : Res Word) : commandEnd (x.withPretty p) = (commandEnd x).withPretty p := by
  cases x <;> rfl

theorem hartEnd_withPretty (x : Res Unit) : hartEnd (x.withPretty p) = (hartEnd x).withPretty p := by
  cases x <;> rfl

theorem transferEnd_withPretty (x : Res Unit) : transferEnd (x.withPretty p) = (transferEnd x).withPretty p := by
  cases x <;> rfl

theorem accessReg_withPretty (write : Bool) (regno : BitVec 16) (staged : Option Word) (s : State) :
    accessReg write regno staged (s.withPretty p) = (accessReg write regno staged s).withPretty p := by
  refine (congrArg commandEnd ?_).trans (commandEnd_withPretty _)
  exact Res.andThen_withPretty (prepareCommand_withPretty s) fun _ t =>
    Res.andThen_withPretty (stageValue_withPretty staged t) fun _ => issueCommand_withPretty write _

/-- A transfer, of no unit or of some, commutes with replacing the modes once its steps do (R243). -/
theorem transfer_withPretty {c : Prop} [Decidable c] {x x' : Res Unit} (hx : x' = x.withPretty p) :
    transferEnd (if c then .go () ((beginTransfer s).withPretty p) else x') =
      (transferEnd (if c then .go () (beginTransfer s) else x)).withPretty p :=
  (congrArg transferEnd (Res.ite_withPretty (x := .go () (beginTransfer s)) rfl hx)).trans (transferEnd_withPretty _)

/-! Designators and fields (R163 to R165) -/

theorem withReg_withPretty {f g : RegId → State} (h : ∀ r, n.resolve idx = some r → g r = (f r).withPretty p) :
    withReg n idx (s.withPretty p) g = (withReg n idx s f).withPretty p := by
  unfold withReg
  split
  · split
    next r hr => exact h r hr
    next => rfl
  · rfl

theorem withField_withPretty {fid : BitVec 8} {usable : Field → Bool} {f g : RegId → Field → State}
    (h : ∀ r fd, g r fd = (f r fd).withPretty p) :
    withField n idx fid usable (s.withPretty p) g = (withField n idx fid usable s f).withPretty p := by
  unfold withField
  split
  next fd _ =>
    split
    · exact withReg_withPretty fun r _ => h r fd
    · rfl
  next => rfl

theorem getField_withPretty (n : RegName) (fid : BitVec 8) (s : State) (r : RegId) (f : Field) :
    getField n fid (s.withPretty p) r f = (getField n fid s r f).withPretty p := by
  unfold getField
  split <;> rfl

theorem warnIf_withPretty {c : Prop} [Decidable c] (w : Warning) (s : State) :
    (if c then (s.withPretty p).warn w else s.withPretty p) = (if c then s.warn w else s).withPretty p := by
  split <;> rfl

theorem setField_withPretty (n : RegName) (idx fid : BitVec 8) (v : Word) (s : State) (r : RegId) (f : Field) :
    setField n idx fid v (s.withPretty p) r f = (setField n idx fid v s r f).withPretty p := by
  unfold setField
  split
  · rfl
  all_goals exact congrArg (fun t : State => (t.putField r f v).respondOk 0) (warnIf_withPretty _ s)

/-! ### Every instruction (R284) -/

/-- From other formatting modes every instruction but `setPretty` does the same and keeps them. -/
theorem exec_withPretty (hi : ∀ n idx b, i ≠ .setPretty n idx b) (h : exec i s = .next t) :
    exec i (s.withPretty p) = .next (t.withPretty p) := by
  cases i with
  | setPretty n idx b => exact absurd rfl (hi n idx b)
  | read n idx =>
    cases h
    exact congrArg Host.Outcome.next (withReg_withPretty fun r _ =>
      (congrArg primitiveEnd (rd_withPretty r s)).trans (primitiveEnd_withPretty _))
  | write n idx =>
    cases h
    exact congrArg Host.Outcome.next (withReg_withPretty fun r _ =>
      (congrArg primitiveEnd (wr_withPretty r s)).trans (primitiveEnd_withPretty _))
  | reset n idx =>
    cases h
    exact congrArg Host.Outcome.next (withReg_withPretty fun _ _ => rfl)
  | get n idx fid =>
    cases h
    exact congrArg Host.Outcome.next (withField_withPretty (getField_withPretty n fid s))
  | set n idx fid v =>
    cases h
    exact congrArg Host.Outcome.next (withField_withPretty (setField_withPretty n idx fid v s))
  | setHartsel v =>
    cases (exec_setHartsel v s).symm.trans h
    exact exec_setHartsel v (s.withPretty p)
  | getHartsel | hartselMax | cmderrClear | sberrorClear | sbbusyerrorClear | dtmReset | setPollLimit
  | getPollLimit =>
    cases h
    rfl
  | selectHart hart =>
    cases (exec_selectHart hart s).symm.trans h
    exact congrArg Host.Outcome.next
      ((congrArg primitiveEnd (selectSteps_withPretty hart s)).trans (primitiveEnd_withPretty _))
  | haltHart hart | resumeHart hart =>
    cases h
    exact congrArg Host.Outcome.next
      ((congrArg hartEnd (requestSteps_withPretty hart _ _ _ s)).trans (hartEnd_withPretty _))
  | readMem a len =>
    cases h
    exact congrArg Host.Outcome.next (transfer_withPretty (readSteps_withPretty a _ _ (beginTransfer s)))
  | writeMem a len =>
    cases h
    exact congrArg Host.Outcome.next (transfer_withPretty (writeSteps_withPretty a _ _ (beginTransfer s)))
  | readGpr | writeGpr | readFpr | writeFpr | readCsr | writeCsr
  | cmdReadGpr | cmdWriteGpr | cmdReadFpr | cmdWriteFpr | cmdReadCsr | cmdWriteCsr =>
    cases h
    exact congrArg Host.Outcome.next (accessReg_withPretty _ _ _ s)

/-- From other formatting modes `setPretty` differs at most in the modes it leaves. -/
theorem exec_setPretty_withPretty {b : Bool} (h : exec (.setPretty n idx b) s = .next t) :
    ∃ q, exec (.setPretty n idx b) (s.withPretty p) = .next (t.withPretty q) := by
  cases hr : n.resolve idx with
  | some r =>
    cases (exec_setPretty hr b s).symm.trans h
    exact ⟨p.set r b, exec_setPretty hr b (s.withPretty p)⟩
  | none =>
    cases h
    exact ⟨p, congrArg Host.Outcome.next (withReg_withPretty fun r hs => by rw [hr] at hs; cases hs)⟩

end Sys2Proof.Machine

namespace Sys2Proof.Certificates

open Machine

/-- Settles O26. -/
theorem dtmResetOperation : Obligations.DtmResetOperation := exec_dtmReset

/-- Settles O27. -/
theorem pollLimitOperations : Obligations.PollLimitOperations := fun v s =>
  ⟨exec_setPollLimit v s, exec_getPollLimit s⟩

/-- Settles O28. -/
theorem setPrettyOperation : Obligations.SetPrettyOperation := fun _ _ b s =>
  ⟨fun ha h => congrArg Host.Outcome.next (withReg_outOfRange ha h), fun _ hr => exec_setPretty hr b s⟩

/-- Settles O29: every instruction but `setPretty` leaves the modes as its frame says and commutes with replacing
them. -/
theorem prettyInfluencesNothing : Obligations.PrettyInfluencesNothing := by
  intro i s t p h
  by_cases hi : ∀ n idx b, i ≠ .setPretty n idx b
  · obtain ⟨_, hframe⟩ := exec_keepsFrame h
    exact ⟨p, exec_withPretty hi h, fun hi => ⟨rfl, hframe.pretty hi⟩⟩
  · push Not at hi
    obtain ⟨n, idx, b, rfl⟩ := hi
    obtain ⟨q, hq⟩ := exec_setPretty_withPretty h
    exact ⟨q, hq, fun hne => absurd rfl (hne n idx b)⟩

end Sys2Proof.Certificates
end

section
/-!
Statuses and response fields (30_encoding.md R136, 60_exceptions.md R300 to R309): what an operation answers is what its
rule lets it answer. An answer is allowed by where it comes from: a completed part, a stop of the operation's own
engine, a warning, or a refusal; and every operation's record ends in such an answer.
-/

namespace Sys2Proof.Machine

variable {i : Instr} {s t : State} {r : Response} {c : Word} {data : List Byte}

/-- The response and its read data are ones the rule of `i` allows (R136, R300). -/
structure AnswerAllowed (i : Instr) (r : Response) (data : List Byte) : Prop where
  status : r.status ∈ i.statuses
  cls : r.cls ≠ 0 ↔ r.status = .cmdError ∨ r.status = .busError
  transfer : i.movesMemory = false → r.count = 0 ∧ data = []
  value : r.status ≠ .ok → r.status ≠ .transportError → r.value = 0

/-- The record ends in an answer that the rule of `i` allows. -/
def EndsInAllowedAnswer (i : Instr) (t : State) : Prop :=
  ∃ r data, t.events.getLast? = some (.response r data) ∧ AnswerAllowed i r data

theorem AnswerAllowed.respond (h : AnswerAllowed i r data) (t : State) : EndsInAllowedAnswer i (t.respond r data) :=
  ⟨r, data, List.getLast?_concat, h⟩

/-! ### What may be answered -/

/-- The statuses of an operation that uses the transport, by the engine it runs (R301 to R305). -/
def transportStatuses : Option Engine → List Status
  | none => [.ok, .transportError]
  | some .hc => [.ok, .pollTimeout, .transportError]
  | some .ac => [.ok, .cmdError, .pollTimeout, .transportError]
  | some .sb => [.ok, .busError, .pollTimeout, .transportError]

theorem ok_mem_statuses (h : i.wf = true) : .ok ∈ i.statuses := by
  unfold Instr.statuses
  rw [if_pos h]
  cases i <;> exact List.mem_cons_self

theorem refused_mem_statuses (h : i.wf = false) : .refused ∈ i.statuses := by
  simp [Instr.statuses, h]

/-- A part is stopped only with a status of the engine it belongs to. -/
theorem Stop.status_mem {en : Option Engine} {x : Stop} (h : x.raisedBy en) (c : Word) :
    (x.response c).status ∈ transportStatuses en := by
  cases x with
  | transportError e => rcases en with _ | _ | _ | _ <;> simp [Stop.response, transportStatuses]
  | pollTimeout =>
    rcases en with _ | _ | _ | _
    · exact absurd rfl h
    all_goals simp [Stop.response, transportStatuses]
  | cmdError k =>
    obtain ⟨rfl, -⟩ := h
    simp [Stop.response, transportStatuses]
  | busError k =>
    obtain ⟨rfl, -⟩ := h
    simp [Stop.response, transportStatuses]

/-- The raw class code of three bits, zero-extended, is not 0 unless the code is (R136). -/
theorem setWidth_class_ne_zero {k : BitVec 3} (h : k ≠ 0) : k.setWidth 4 ≠ 0 := by
  revert k
  decide

/-- A class is answered with a class error alone, and its code is not 0 (R302, R304). -/
theorem Stop.cls_ne_zero_iff {en : Option Engine} {x : Stop} (h : x.raisedBy en) (c : Word) :
    (x.response c).cls ≠ 0 ↔ (x.response c).status = .cmdError ∨ (x.response c).status = .busError := by
  cases x with
  | transportError | pollTimeout => simp [Stop.response]
  | cmdError k => exact iff_of_true (setWidth_class_ne_zero h.2) (.inl rfl)
  | busError k => exact iff_of_true (setWidth_class_ne_zero h.2) (.inr rfl)

/-- No value comes with an early end but the error value of a transport error (R136). -/
theorem Stop.value_eq_zero {x : Stop} {c : Word} (h : (x.response c).status ≠ .transportError) :
    (x.response c).value = 0 := by
  cases x with
  | transportError => exact absurd rfl h
  | pollTimeout | cmdError | busError => rfl

theorem AnswerAllowed.okWith (hi : .ok ∈ i.statuses) (hc : i.movesMemory = false → c = 0 ∧ data = []) (v : Word) :
    AnswerAllowed i (Response.okWith v c) data where
  status := hi
  cls := by simp [Response.okWith]
  transfer := hc
  value h := absurd rfl h

theorem AnswerAllowed.stop {x : Stop} (hx : x.raisedBy i.engine?) (hi : i.statuses = transportStatuses i.engine?)
    (hc : i.movesMemory = false → c = 0 ∧ data = []) : AnswerAllowed i (x.response c) data where
  status := hi ▸ Stop.status_mem hx c
  cls := Stop.cls_ne_zero_iff hx c
  transfer h := by cases x <;> exact hc h
  value _ := Stop.value_eq_zero

theorem AnswerAllowed.refusal (h : i.wf = false) : AnswerAllowed i Response.refusal [] where
  status := refused_mem_statuses h
  cls := by simp [Response.refusal]
  transfer _ := ⟨rfl, rfl⟩
  value _ _ := rfl

/-! ### Operations that answer without the transport -/

/-- A well-formed operation may answer `OK`, whatever it did (R300). -/
theorem respondOk_endsInAllowedAnswer (hwf : i.wf = true) (t : State) (v : Word) :
    EndsInAllowedAnswer i (t.respondOk v) :=
  (AnswerAllowed.okWith (ok_mem_statuses hwf) (fun _ => ⟨rfl, rfl⟩) v).respond t

theorem withReg_endsInAllowedAnswer {n : RegName} {idx : BitVec 8} {f : RegId → State} (hwf : i.wf = n.indexOk idx)
    (h : ∀ r, i.wf = true → EndsInAllowedAnswer i (f r)) : EndsInAllowedAnswer i (withReg n idx s f) := by
  rcases withReg_cases n idx s f with ⟨hbad, e⟩ | ⟨hok, -, e⟩ | ⟨r, hok, -, e⟩ <;> rw [e]
  · exact (AnswerAllowed.refusal (hwf.trans hbad)).respond s
  · exact respondOk_endsInAllowedAnswer (hwf.trans hok) _ 0
  · exact h r (hwf.trans hok)

theorem withField_endsInAllowedAnswer {n : RegName} {idx fid : BitVec 8} {usable : Field → Bool}
    {f : RegId → Field → State} (hwf : i.wf = (n.indexOk idx && (n.field? fid).any usable))
    (h : ∀ r fd, i.wf = true → EndsInAllowedAnswer i (f r fd)) :
    EndsInAllowedAnswer i (withField n idx fid usable s f) := by
  rcases withField_cases n idx fid usable s f with ⟨hbad, e⟩ | ⟨hok, -, e⟩ | ⟨r, fd, hok, -, -, -, e⟩ <;> rw [e]
  · exact (AnswerAllowed.refusal (hwf.trans hbad)).respond s
  · exact respondOk_endsInAllowedAnswer (hwf.trans hok) _ 0
  · exact h r fd (hwf.trans hok)

theorem getField_endsInAllowedAnswer (hwf : i.wf = true) (n : RegName) (fid : BitVec 8) (s : State) (r : RegId)
    (f : Field) : EndsInAllowedAnswer i (getField n fid s r f) := by
  unfold getField
  split <;> exact respondOk_endsInAllowedAnswer hwf _ _

theorem setField_endsInAllowedAnswer (hwf : i.wf = true) (n : RegName) (idx fid : BitVec 8) (v : Word) (s : State)
    (r : RegId) (f : Field) : EndsInAllowedAnswer i (setField n idx fid v s r f) := by
  unfold setField
  split <;> exact respondOk_endsInAllowedAnswer hwf _ 0

/-! ### Operations that use the transport -/

variable {α : Type} {p : RegId → Bool} {mv : Bool}

theorem Res.Runs.raisedBy {en : Option Engine} {y : Stop} (h : (Res.stop y t : Res α).Runs p en mv s) :
    y.raisedBy en := by
  obtain ⟨_, -, -, hy⟩ := h
  exact hy

/-- The early end of an operation, answered without a count and without data (R136, R311). -/
theorem Stop.endsInAllowedAnswer {y : Stop} (hi : i.statuses = transportStatuses i.engine?)
    (hy : y.raisedBy i.engine?) (t : State) : EndsInAllowedAnswer i (t.respond (y.response 0) []) :=
  (AnswerAllowed.stop hy hi fun _ => ⟨rfl, rfl⟩).respond t

theorem primitiveEnd_endsInAllowedAnswer {x : Res Unit} (hi : i.statuses = transportStatuses i.engine?)
    (hwf : i.wf = true) (h : x.Runs p i.engine? mv s) : EndsInAllowedAnswer i (primitiveEnd x) := by
  cases x with
  | go _ t => exact respondOk_endsInAllowedAnswer hwf t 0
  | stop y t => exact Stop.endsInAllowedAnswer hi h.raisedBy t

theorem commandEnd_endsInAllowedAnswer {x : Res Word} (hi : i.statuses = transportStatuses i.engine?)
    (hwf : i.wf = true) (h : x.Runs p i.engine? mv s) : EndsInAllowedAnswer i (commandEnd x) := by
  cases x with
  | go v t => exact respondOk_endsInAllowedAnswer hwf _ v
  | stop y t => exact Stop.endsInAllowedAnswer hi h.raisedBy _

theorem hartEnd_endsInAllowedAnswer {x : Res Unit} (hi : i.statuses = transportStatuses i.engine?)
    (hwf : i.wf = true) (h : x.Runs p i.engine? mv s) : EndsInAllowedAnswer i (hartEnd x) := by
  cases x with
  | go _ t => exact respondOk_endsInAllowedAnswer hwf _ 0
  | stop y t => exact Stop.endsInAllowedAnswer hi h.raisedBy _

/-- The end of a transfer, whose answer carries a count and read data (R240). -/
theorem transferEnd_endsInAllowedAnswer {x : Res Unit} (hi : i.statuses = transportStatuses i.engine?)
    (hwf : i.wf = true) (hm : i.movesMemory = true) (h : x.Runs p i.engine? mv s) :
    EndsInAllowedAnswer i (transferEnd x) := by
  have hmoves : i.movesMemory ≠ false := by simp [hm]
  cases x with
  | go _ t => exact (AnswerAllowed.okWith (ok_mem_statuses hwf) (absurd · hmoves) 0).respond _
  | stop y t => exact (AnswerAllowed.stop h.raisedBy hi (absurd · hmoves)).respond _

/-! ### Every instruction -/

/-- Every instruction ends in an answer that its rule allows. -/
theorem exec_endsInAllowedAnswer (h : exec i s = .next t) : EndsInAllowedAnswer i t := by
  cases i with
  | read n idx =>
    cases h
    exact withReg_endsInAllowedAnswer rfl fun r hwf => primitiveEnd_endsInAllowedAnswer (if_pos hwf) hwf
      (rd_runs (p := fun _ => true) (mv := false) rfl)
  | write n idx =>
    cases h
    exact withReg_endsInAllowedAnswer rfl fun r hwf => primitiveEnd_endsInAllowedAnswer (if_pos hwf) hwf
      (wr_runs (p := fun _ => true) (mv := false) rfl)
  | reset n idx | setPretty n idx =>
    cases h
    exact withReg_endsInAllowedAnswer rfl fun r hwf => respondOk_endsInAllowedAnswer hwf _ 0
  | get n idx fid =>
    cases h
    exact withField_endsInAllowedAnswer (congrArg (n.indexOk idx && ·) Option.any_true.symm)
      fun r fd hwf => getField_endsInAllowedAnswer hwf n fid s r fd
  | set n idx fid v =>
    cases h
    exact withField_endsInAllowedAnswer rfl fun r fd hwf => setField_endsInAllowedAnswer hwf n idx fid v s r fd
  | getHartsel | setHartsel | hartselMax | cmderrClear | sberrorClear | sbbusyerrorClear | dtmReset | setPollLimit
  | getPollLimit =>
    cases h
    exact respondOk_endsInAllowedAnswer rfl _ _
  | selectHart hart =>
    cases (execSelectHart_eq hart s).symm.trans h
    exact primitiveEnd_endsInAllowedAnswer rfl rfl (selectSteps_runs (p := hartRegs) (mv := false) hart rfl)
  | haltHart | resumeHart =>
    cases h
    exact hartEnd_endsInAllowedAnswer rfl rfl (requestSteps_runs (mv := false) _ _ _ _)
  | readMem a len =>
    cases h
    refine transferEnd_endsInAllowedAnswer rfl rfl rfl (transfer_runs ?_)
    exact readSteps_runs a _ _
  | writeMem a len =>
    cases h
    refine transferEnd_endsInAllowedAnswer rfl rfl rfl (transfer_runs ?_)
    exact writeSteps_runs a _ _
  | readGpr | writeGpr | readFpr | writeFpr | readCsr | writeCsr
  | cmdReadGpr | cmdWriteGpr | cmdReadFpr | cmdWriteFpr | cmdReadCsr | cmdWriteCsr =>
    cases h
    exact commandEnd_endsInAllowedAnswer rfl rfl (accessReg_runs (mv := false) _ _ _)

end Sys2Proof.Machine

namespace Sys2Proof.Certificates

open Machine

/-- Settles O57: the one response of an operation is the last event of its record, and that is an allowed answer. -/
theorem statusesOfOperations : Obligations.StatusesOfOperations := by
  intro i s t es r data h hes hr
  obtain ⟨t', ht', fs, x, d, hfs, hresponses, -, -⟩ := exec_answersOnce i s
  cases h.symm.trans ht'
  obtain rfl := List.append_cancel_left (hes.symm.trans hfs)
  obtain ⟨rfl, rfl⟩ : r = x ∧ data = d := by simpa [hresponses, Event.response?] using hr
  obtain ⟨r', data', hlast, hallowed⟩ := exec_endsInAllowedAnswer h
  obtain ⟨rfl, rfl⟩ : r = r' ∧ data = data' := by simpa [hes] using hlast
  obtain ⟨hstatus, hcls, htransfer, hvalue⟩ := hallowed
  exact ⟨hstatus, hcls, htransfer, hvalue⟩

end Sys2Proof.Certificates
end

section
/-!
The reset input (70_reset_and_hazards.md R340 to R342): the state after reset, whatever stands at the ports, and what a
request leaves on record that the reset input ends (log 8).
-/

namespace Sys2Proof.Machine

variable {s t : State} {es : List Event} {word : BitVec 96} {k : Nat}

/-! ### The state after reset -/

/-- The reset state holds the values of R341, register by register and element by element. -/
theorem State.reset_afterReset : State.reset.afterReset :=
  ⟨fun r => by rw [State.reset_shadow, RegId.rst_eq], rfl, rfl, rfl, rfl, rfl, rfl, pollLimitReset_pos,
    fun r => RegFile.get_ofFn (fun _ => false) r⟩

/-- The values of R341 are those of the block's own elements, so what stands at the ports does not matter (R20). -/
theorem State.reset_withPorts_afterReset (inputs : List Input) (answers : List Answer) (events : List Event) :
    ({ State.reset with inputs := inputs, answers := answers, events := events } : State).afterReset :=
  State.reset_afterReset

theorem State.blockReset_afterReset (s : State) : s.blockReset.afterReset :=
  State.reset_withPorts_afterReset _ _ _

theorem abandon_afterReset (k : Nat) (s t : State) : (abandon k s t).afterReset :=
  State.reset_withPorts_afterReset _ _ _

/-! ### What an abandoned request leaves on record -/

/-- What is kept is taken from what the operation itself recorded. -/
theorem keptEvents_of_events (h : t.events = s.events ++ es) (k : Nat) :
    keptEvents s t k = (es.take k).filter fun e => !e.isResponse := by
  rw [keptEvents, h, List.drop_left]

theorem responsesOf_filter_not_isResponse (es : List Event) :
    responsesOf (es.filter fun e => !e.isResponse) = [] := by
  refine List.filterMap_eq_nil_iff.mpr fun e he => ?_
  have hno := (List.mem_filter.mp he).2
  cases e with
  | response => cases hno
  | cycle | transportReset | warning | engine => rfl

/-- No kept event is a response (R340). -/
theorem responsesOf_keptEvents (s t : State) (k : Nat) : responsesOf (keptEvents s t k) = [] :=
  responsesOf_filter_not_isResponse _

/-! ### The steps of the reset input -/

theorem step_of_inputs_reset {rest : List Input} (h : s.inputs = .reset :: rest) :
    step s = .next (s.accept rest []).blockReset := by
  rw [step, serveNext, h]

theorem step_of_inputs_abandoned {data : List Byte} {rest : List Input}
    (h : s.inputs = .abandoned word data k :: rest) : step s = serveAbandoned word k (s.accept rest data) := by
  rw [step, serveNext, h]

theorem serveAbandoned_of_serveRequest (h : serveRequest word s = .next t) :
    serveAbandoned word k s = .next (abandon k s t) := by
  rw [serveAbandoned, h]

/-- Every request word is served to its end, and the record only grows: by the events of its operation, or by the
refusal of a word that does not decode (R139). -/
theorem serveRequest_extends (word : BitVec 96) (s : State) :
    ∃ t es, serveRequest word s = .next t ∧ t.events = s.events ++ es := by
  unfold serveRequest
  split
  next i _ =>
    obtain ⟨t, ht, es, r, data, hes, -⟩ := exec_answersOnce i s
    exact ⟨t, es ++ [.response r data], ht, hes⟩
  next => exact ⟨s.refuse, [.response Response.refusal []], rfl, rfl⟩

end Sys2Proof.Machine

namespace Sys2Proof.Certificates

open Machine

/-- Settles O8: the whole request records some events; the first `k` of them, without the response, are kept. -/
theorem abandonedRequestIsNeverAnswered : Obligations.AbandonedRequestIsNeverAnswered := by
  intro s word data k rest hin
  obtain ⟨u, es, hu, hes⟩ := serveRequest_extends word (s.accept rest data)
  have hrequest : step { s with inputs := .request word data :: rest } = .next u :=
    (step_of_inputs_request rfl).trans hu
  have habandoned : step s = .next (abandon k (s.accept rest data) u) := by
    rw [step_of_inputs_abandoned hin, serveAbandoned_of_serveRequest hu]
  have hrecord : u.events = s.events ++ (es.take k ++ es.drop k) := by
    rw [List.take_append_drop]
    exact hes
  have hpoint : (es.take k).length = k ∨ (es.drop k = [] ∧ (es.take k).length ≤ k) := by
    rcases Nat.le_total k es.length with hle | hge
    · exact .inl (List.length_take_of_le hle)
    · exact .inr ⟨List.drop_eq_nil_of_le hge, List.length_take_le k es⟩
  exact ⟨_, keptEvents (s.accept rest data) u k, habandoned, abandon_afterReset k _ u, rfl, rfl,
    responsesOf_keptEvents _ u k, rfl, u, es.take k, es.drop k, hrequest, hrecord, keptEvents_of_events hes k, hpoint⟩

/-- Settles O6. -/
theorem blockResetRestoresEveryElement : Obligations.BlockResetRestoresEveryElement := by
  intro s rest hin
  exact ⟨_, step_of_inputs_reset hin, State.blockReset_afterReset _, rfl, rfl, rfl⟩

/-- Settles O7. -/
theorem resetStateHasTheResetValues : Obligations.ResetStateHasTheResetValues := State.reset_afterReset

/-- Settles O60: the engines are idle, and there is no access on the empty record. -/
theorem resetStateHasTheInvariants : Obligations.ResetStateHasTheInvariants :=
  ⟨quiet_of_idle rfl rfl rfl, fun _ ha => absurd ha List.not_mem_nil⟩

end Sys2Proof.Certificates
end
